-- ==== Sys2Proof/Word.lean ====
section
/-! DEFINITION. The words and bytes of the bitplane codec engine (R5, R6). -/

namespace Sys2Proof

/-- A register, a command word or a byte address of the memory port: 32 bits (`REG_WIDTH`, `ADDR_WIDTH` of R5). -/
abbrev Word := BitVec 32

/-- One byte of memory, one plane byte or one pixel byte (R6, R31). -/
abbrev Byte := BitVec 8

/-- The word holding `n`. R7: the rule that writes a register first shows that its value is below 2^32. -/
def wordOf (n : Nat) : Word := BitVec.ofNat 32 n

end Sys2Proof
end

