-- ==== Sys2Proof/Syntax.lean ====
section
/-! DEFINITION. The commands of the engine, its counterpart of instructions (30_encoding.md). -/

namespace Sys2Proof

/-- One constructor per row of the opcode table (R47). The one operand in the word is `fmt`, the unsigned number in
bits 15:8 (R46); every other operand is an argument register. A format id from 2 to 255 is a legal command (R48). -/
inductive Instr where
  | lookup (fmt : Nat)
  | sizeDec (fmt : Nat)
  | sizeEnc (fmt : Nat)
  | decode (fmt : Nat)
  | decodeAuto (fmt : Nat)
  | encode (fmt : Nat)
deriving DecidableEq, Repr

/-- The FMT operand (R46). -/
def Instr.fmt : Instr → Nat
  | .lookup f => f
  | .sizeDec f => f
  | .sizeEnc f => f
  | .decode f => f
  | .decodeAuto f => f
  | .encode f => f

end Sys2Proof
end

