-- ==== Sys2Proof/WellFormed.lean ====
section
/-! DEFINITION. Which commands a command word can hold. -/

namespace Sys2Proof

/-- The one bound of the syntax: FMT is an 8-bit field (R45, R46). Whether the format is registered is the engine's own check (R56). -/
abbrev WellFormed (i : Instr) : Prop := i.fmt < 256

end Sys2Proof
end

