-- ==== Sys2Proof/Decode.lean ====
section
/-! DEFINITION. Command words to commands and back (R44 to R50). A command is one 32-bit bus word; the engine fetches no bytes,
so decoding has no byte order (R29, R31). -/

namespace Sys2Proof

/-- Why a command word is illegal (R50). Each ends the command with IllegalCommand. -/
inductive IllegalWord where
  /-- OP is 0x0 or 0x7 to 0xF (R47). -/
  | reservedOp (op : Nat)
  /-- Bits 7:4 are not 0 (R45). -/
  | reservedBits7to4
  /-- Bits 31:16 are not 0 (R45). -/
  | reservedBits31to16
deriving DecidableEq, Repr

/-- `w[lo+len-1 : lo]` as an unsigned number (R6). -/
def bitField (w : Word) (lo len : Nat) : Nat := (w.toNat / 2 ^ lo) % 2 ^ len

/-- OP, bits 3:0 (R45). -/
def opField (w : Word) : Nat := bitField w 0 4

/-- RSV0, bits 7:4 (R45). -/
def rsv0Field (w : Word) : Nat := bitField w 4 4

/-- FMT, bits 15:8 (R45). -/
def fmtField (w : Word) : Nat := bitField w 8 8

/-- RSV1, bits 31:16 (R45). -/
def rsv1Field (w : Word) : Nat := bitField w 16 16

/-- The command an OP value selects (R47). -/
def opcodeMap (op fmt : Nat) : Except IllegalWord Instr :=
  match op with
  | 0x1 => .ok (.lookup fmt)
  | 0x2 => .ok (.sizeDec fmt)
  | 0x3 => .ok (.sizeEnc fmt)
  | 0x4 => .ok (.decode fmt)
  | 0x5 => .ok (.decodeAuto fmt)
  | 0x6 => .ok (.encode fmt)
  | _ => .error (.reservedOp op)

/-- The command a 32-bit word encodes, or why it is illegal (R45, R50). -/
def decodeWord (w : Word) : Except IllegalWord Instr :=
  if rsv0Field w ≠ 0 then .error .reservedBits7to4
  else if rsv1Field w ≠ 0 then .error .reservedBits31to16
  else opcodeMap (opField w) (fmtField w)

/-- The decoder on a word given as the opcode table numbers its bits; bits above `nbits` are 0. -/
def decodeTableWord (nbits w : Nat) : Option Instr :=
  if nbits ≤ 32 ∧ w < 2 ^ nbits then (decodeWord (wordOf w)).toOption else none

/-- The OP value of a command (R47). -/
def opcodeOf : Instr → Nat
  | .lookup _ => 0x1
  | .sizeDec _ => 0x2
  | .sizeEnc _ => 0x3
  | .decode _ => 0x4
  | .decodeAuto _ => 0x5
  | .encode _ => 0x6

/-- The word of a well-formed command: `0000000000000000 FFFFFFFF 0000 OOOO` (R45). -/
def encode (i : Instr) : Word := wordOf (2 ^ 8 * i.fmt + opcodeOf i)

end Sys2Proof
end

