-- ==== Sys2Proof/Config.lean ====
section
/-! DEFINITION. What an implementation fixes (the OPEN parameters of R5) and the free values (93_implementation_defined.md).
Every `opaque` constant here has no body: no proof can see its value. -/

namespace Sys2Proof

/-- A window of the memory space that is not ordinary RAM: `len` bytes from `base` (R33). -/
structure Window where
  base : Nat
  len  : Nat
deriving DecidableEq, Repr, Inhabited

/-- The OPEN parameters of R5 that are fixed for one engine. They are a named argument of the model: State carries
them as plain data, no step changes them, and a statement about every state holds for every value of them (log entry 3).
`LATENCY`, which differs from command to command, is `Config.latency`. The last field is what R33 leaves to the platform. -/
structure Params where
  /-- `DEFAULT_WIDTH_NES_1BPP` in tiles, less one: the width is `8 * (k + 1)`, exactly the multiples of 8 in 8..65528. -/
  nesDefaultTiles : Fin 8191
  /-- `DEFAULT_WIDTH_SNES_4BPP`, in the same form. -/
  snesDefaultTiles : Fin 8191
  /-- `ENGINE_BASE` in units of 64 bytes (it is 64-byte aligned). -/
  engineBlock : Nat
  /-- `BUS_ERRORS`: whether the platform's memory can answer an engine access with an error. -/
  busErrors : Bool
  /-- Where the platform has something other than ordinary RAM (R33, log entry 6). -/
  notRam : List Window
deriving DecidableEq, Repr, Inhabited

/-- The width in pixels that a count of tiles less one stands for. -/
def Params.widthOfTiles (k : Fin 8191) : Nat := 8 * (k.val + 1)

/-- `DEFAULT_WIDTH_NES_1BPP` in pixels. -/
def Params.nesDefaultWidth (p : Params) : Nat := Params.widthOfTiles p.nesDefaultTiles

/-- `DEFAULT_WIDTH_SNES_4BPP` in pixels. -/
def Params.snesDefaultWidth (p : Params) : Nat := Params.widthOfTiles p.snesDefaultTiles

/-- The `len` bytes from `base` are ordinary RAM: they meet no window (R33). -/
def Params.ordinary (p : Params) (base len : Nat) : Bool :=
  p.notRam.all fun w => decide (min (w.base + w.len) (base + len) ≤ max w.base base)

/-- `ENGINE_BASE`, the host byte address of the register block. -/
def Params.engineBase (p : Params) : Nat := 64 * p.engineBlock

/-- The engine's parameters, whatever they are. -/
opaque Config.params : Params

/-- `LATENCY` of the command accepted at draw `k`: how many host actions come before the engine's step (log entry 2). -/
opaque Config.latency : Nat → Nat

/-- What the `k`-th draw reads from a result or descriptor register while BUSY (R21, R22; 93 entry 8). -/
opaque Config.busyWord : Nat → Word

/-- The value draw `k` leaves at byte address `a` of a destination extent that the rules call unspecified
(R84, R97, R39 item 3; 93 entries 9, 11, 12). -/
opaque Config.spoiltByte : (k a : Nat) → Byte

/-- Whether some access of the memory command at draw `k` is answered with an error (R84; 93 entry 18). -/
opaque Config.accessError : Nat → Bool

/-- STATUS.RANGE where R78 leaves it unspecified (93 entry 10). -/
opaque Config.unspecifiedRange : Nat → Bool

/-- Whether the byte the host wrote at `a` of the destination extent, during the command at draw `k`, is the one that stays
(R39 item 3; 93 entry 13). -/
opaque Config.hostByteStays : (k a : Nat) → Bool

/-- Whether a host memory read at draw `k` while BUSY sees the engine's byte already (R34). -/
opaque Config.seesEngineByte : Nat → Bool

/-- The moment at which the command accepted at draw `k` has met a pixel out of range, if it meets one: how many host actions then
still come before the engine's step (R77, R79; log entry 27). -/
opaque Config.rangeMoment : Nat → Nat

/-- What the accesses at draw `k` to memory that is not ordinary RAM do to memory: any bytes anywhere (R33; 93 entry 14; log entry 6). -/
opaque Config.sideEffects : Nat → List (Word × Byte)

/-- The byte a host load from memory that is not ordinary RAM returns at draw `k` (log entry 6). -/
opaque Config.deviceByte : Nat → Byte

/-- The hidden state of R26 items 3 and 4: the plane scratch buffer PS and the walk counters. No host access reads or sets it. -/
structure Hidden where
  scratch : Vector Byte 8
  tile    : Nat
  row     : Nat
  plane   : Nat
  column  : Nat
deriving DecidableEq, Repr, Inhabited

/-- What the hidden state holds between commands and after reset, at draw `k` (R26, R95; 93 entry 19). -/
opaque Config.idleHidden : Nat → Hidden

/-- What a byte of memory that nothing has written reads as: the spec gives no contents. DESIGN CHOICE (log entry 5, unsafe). -/
def Config.unwrittenByte : Byte := 0

end Sys2Proof
end

