-- ==== Sys2Proof/Machine/State.lean ====
section
/-! DEFINITION. The state of the engine and of the bus around it, as plain data (10_state.md). -/

namespace Sys2Proof.Machine

/-- The machine never stops with a fault: an error ends a command with a code in STATUS.ERR, which is a next state (R82, R87),
and R59 rejects every command that would form an address outside the memory space. So no reason exists. Nobody raises one: safe. -/
inductive Fault where
deriving DecidableEq, Repr

/-- Why the model gives no meaning. -/
inductive Refusal where
  /-- Raised only by an arm of `exec` for an instruction that has no meaning yet. No arm raises it: safe. -/
  | notModelled (mnemonic : String)
deriving DecidableEq, Repr

/-- The error kinds of STATUS.ERR (R81). Codes 0xA to 0xF are never produced and have no name. -/
inductive ErrCode where
  | ok
  | unknownFormat
  | nullOrEmptyInput
  | insufficientData
  | insufficientOutputCapacity
  /-- Reserved: the engine allocates nothing and never produces it (R81, D7). -/
  | allocationFailure
  | illegalCommand
  | geometryError
  | regionError
  | busError
deriving DecidableEq, Repr, Inhabited

/-- The fields of STATUS (R19). Bits 7:4 and 31:12 are reserved and read 0, so they are not state. -/
structure Status where
  busy  : Bool
  done  : Bool
  range : Bool
  ovr   : Bool
  err   : ErrCode
deriving DecidableEq, Repr, Inhabited

/-- Memory: listed bytes by address. An unlisted address reads as `Config.unwrittenByte`. -/
abbrev Memory := List Host.Cell

/-- The canonical form: addresses strictly rising, and no entry equal to what an unlisted address reads as. -/
abbrev Memory.wf (m : Memory) : Prop :=
  m.Pairwise (fun c d => c.1 < d.1) ∧ ∀ c ∈ m, c.2 ≠ Config.unwrittenByte

/-- Every listed address exists in the memory space of 2^32 bytes (R14). -/
abbrev Memory.inSpace (m : Memory) : Prop := ∀ c ∈ m, c.1 < 2 ^ 32

/-- The width of a host access to the register block (R28). -/
inductive AccessWidth where
  | byte
  | half
  | word
deriving DecidableEq, Repr

/-- What the outside world can do in one step (R4, R102). Bus addresses are the host's byte addresses; memory addresses are
those of the memory space the engine shares (R14). -/
inductive HostAction where
  /-- Something that touches neither the engine nor its memory. -/
  | idle
  /-- A bus read of the register block (R28). -/
  | busRead (addr : Nat) (width : AccessWidth)
  /-- A bus write to the register block (R28). -/
  | busWrite (addr : Nat) (width : AccessWidth) (value : Word)
  /-- A write of `status` to STATUS and another bus write in the same cycle (R20). -/
  | statusAndWrite (status : Word) (addr : Nat) (width : AccessWidth) (value : Word)
  /-- A host load of one byte. -/
  | memRead (addr : Word)
  /-- A host store of one byte. -/
  | memWrite (addr : Word) (value : Byte)
  /-- Reset of the engine (R95, R97). -/
  | reset
deriving DecidableEq, Repr

/-- What the host has written in the running command's used extents since its acceptance (R39 item 3). -/
structure Touched where
  /-- A byte of the source extent was written. -/
  source : Bool
  /-- The bytes of the destination extent that were written, each once. -/
  dest   : List Nat
deriving DecidableEq, Repr, Inhabited

/-- A host that keeps R100. -/
def Touched.nothing : Touched := ⟨false, []⟩

structure State where
  /-- The OPEN parameters of R5 and the platform's memory (R33); no step changes them. -/
  params    : Params
  /-- CMD (R18). -/
  cmd       : Word
  /-- STATUS (R19). -/
  status    : Status
  /-- The six argument registers (R16). -/
  srcBase   : Word
  srcLen    : Word
  dstBase   : Word
  dstLen    : Word
  width     : Word
  height    : Word
  /-- RES_WIDTH, RES_HEIGHT, RES_BYTES (R21). -/
  resWidth  : Word
  resHeight : Word
  resBytes  : Word
  /-- DESC_W0, DESC_W1, DESC_W2 (R22). -/
  descW0    : Word
  descW1    : Word
  descW2    : Word
  /-- Plane scratch buffer and walk counters (R26). -/
  hidden    : Hidden
  /-- The memory space (R14). -/
  mem       : Memory
  /-- The model's own: the host's actions still to come, the next one first (R102). -/
  pending   : List HostAction
  /-- The model's own: while BUSY, how many host actions still come before the engine's step (R102, R103). -/
  wait      : Nat
  /-- The model's own: the running command's write of RANGE is done once fewer host actions than this still come (R79). -/
  rangeWait : Nat
  /-- The model's own: the host's writes to the used extents since acceptance (R39 item 3). -/
  touched   : Touched
  /-- The model's own: what the last host read returned; a byte of memory stands in bits 7:0. -/
  hostData  : Word
  /-- The model's own: how many free values have been drawn. -/
  draws     : Nat
deriving DecidableEq, Repr

/-- The machine right after reset (R95): every register 0, the engine idle. The model's own fields are a DESIGN CHOICE (log entry 16). -/
def State.reset : State where
  params    := Config.params
  cmd       := 0
  status    := ⟨false, false, false, false, .ok⟩
  srcBase   := 0
  srcLen    := 0
  dstBase   := 0
  dstLen    := 0
  width     := 0
  height    := 0
  resWidth  := 0
  resHeight := 0
  resBytes  := 0
  descW0    := 0
  descW1    := 0
  descW2    := 0
  hidden    := Config.idleHidden 0
  mem       := []
  pending   := []
  wait      := 0
  rangeWait := 0
  touched   := Touched.nothing
  hostData  := 0
  draws     := 1

end Sys2Proof.Machine
end

