-- ==== Sys2Proof/Machine/Flags.lean ====
section
/-! DEFINITION. STATUS as the host reads it, and every update of its fields (R19, R24, R81). -/

namespace Sys2Proof.Machine

/-- The 4-bit code of an error kind (R81). -/
def ErrCode.code : ErrCode → Nat
  | .ok => 0x0
  | .unknownFormat => 0x1
  | .nullOrEmptyInput => 0x2
  | .insufficientData => 0x3
  | .insufficientOutputCapacity => 0x4
  | .allocationFailure => 0x5
  | .illegalCommand => 0x6
  | .geometryError => 0x7
  | .regionError => 0x8
  | .busError => 0x9

/-- STATUS as one register word: BUSY bit 0, DONE bit 1, RANGE bit 2, OVR bit 3, ERR bits 11:8, the rest 0 (R19). -/
def Status.word (st : Status) : Word :=
  wordOf (st.busy.toNat + 2 * st.done.toNat + 4 * st.range.toNat + 8 * st.ovr.toNat + 256 * st.err.code)

/-- Acceptance of a command: BUSY 1, DONE, ERR and RANGE 0, OVR unchanged (R18). -/
def Status.accepted (st : Status) : Status :=
  { st with busy := true, done := false, range := false, err := .ok }

/-- The end of a command with code `e`, in one update (R82, R83). -/
def Status.ended (st : Status) (e : ErrCode) : Status :=
  { st with busy := false, done := true, err := e }

/-- A dropped host write sets OVR (R20). -/
def Status.dropped (st : Status) : Status := { st with ovr := true }

/-- A host write of `v` to STATUS: bit 3 = 1 clears OVR, every other bit is ignored (R19). -/
def Status.hostWrite (st : Status) (v : Word) : Status :=
  { st with ovr := st.ovr && !v.getLsbD 3 }

end Sys2Proof.Machine
end

