-- ==== Sys2Proof/Machine/Rom.lean ====
section
/-! DEFINITION. The format descriptor ROM (R53 to R55). -/

namespace Sys2Proof.Machine

/-- One ROM entry, field by field (R53). -/
structure Descriptor where
  defaultWidth : Nat
  tileW        : Nat
  tileH        : Nat
  /-- The plane count. -/
  bpp          : Nat
  rowInc       : Nat
  groupGap     : Nat
  palSize      : Nat
  palBpe       : Nat
  bytesPerTile : Nat
deriving DecidableEq, Repr

/-- Word 0: DEFAULT_WIDTH 15:0, TILE_W 23:16, TILE_H 31:24 (R53). -/
def Descriptor.w0 (D : Descriptor) : Word :=
  wordOf (2 ^ 24 * D.tileH + 2 ^ 16 * D.tileW + D.defaultWidth)

/-- Word 1: BPP 3:0, ROW_INC 7:4, GROUP_GAP 15:8, PAL_SIZE 24:16, PAL_BPE 28:25 (R53). -/
def Descriptor.w1 (D : Descriptor) : Word :=
  wordOf (2 ^ 25 * D.palBpe + 2 ^ 16 * D.palSize + 2 ^ 8 * D.groupGap + 2 ^ 4 * D.rowInc + D.bpp)

/-- Word 2: BYTES_PER_TILE 15:0 (R53). -/
def Descriptor.w2 (D : Descriptor) : Word := wordOf D.bytesPerTile

/-- The entry of NES_1BPP, format id 0 (R54). -/
def romNes1bpp (p : Params) : Descriptor where
  defaultWidth := p.nesDefaultWidth
  tileW        := 8
  tileH        := 8
  bpp          := 1
  rowInc       := 1
  groupGap     := 0
  palSize      := 2
  palBpe       := 3
  bytesPerTile := 8

/-- The entry of SNES_4BPP, format id 1 (R54). -/
def romSnes4bpp (p : Params) : Descriptor where
  defaultWidth := p.snesDefaultWidth
  tileW        := 8
  tileH        := 8
  bpp          := 4
  rowInc       := 2
  groupGap     := 16
  palSize      := 16
  palBpe       := 3
  bytesPerTile := 32

/-- The ROM by format id: exactly two entries (R2, R58); the parameters supply the two default widths. -/
def rom (p : Params) (f : Nat) : Option Descriptor :=
  match f with
  | 0 => some (romNes1bpp p)
  | 1 => some (romSnes4bpp p)
  | _ => none

end Sys2Proof.Machine
end

