-- ==== Sys2Proof/Machine/Ops.lean ====
section
/-! DEFINITION. The shared operations: memory bytes, register updates, the end of a command, the command prologue. -/

namespace Sys2Proof.Machine

/-- `for i in [0, n)`: apply `f 0`, then `f 1`, and so on (R8). -/
def forUpTo {σ : Type} : Nat → (Nat → σ → σ) → σ → σ
  | 0, _, s => s
  | n + 1, f, s => f n (forUpTo n f s)

/-! ## Memory (R30) -/

/-- `MemRead(a, 1)`. -/
def Memory.read : Memory → Nat → Byte
  | [], _ => Config.unwrittenByte
  | (b, u) :: m, a => if b = a then u else Memory.read m a

/-- `MemWrite(a, 1, v)`, in the canonical form. -/
def Memory.write : Memory → Nat → Byte → Memory
  | [], a, v => if v = Config.unwrittenByte then [] else [(a, v)]
  | (b, u) :: m, a, v =>
    if a < b then
      if v = Config.unwrittenByte then (b, u) :: m else (a, v) :: (b, u) :: m
    else if a = b then
      if v = Config.unwrittenByte then m else (a, v) :: m
    else (b, u) :: Memory.write m a v

/-- Bytes `[base, base + len)` take unspecified values (R84, R97, R39 item 3). -/
def Memory.spoil (k base len : Nat) (m : Memory) : Memory :=
  forUpTo len (fun i m => Memory.write m (base + i) (Config.spoiltByte k (base + i))) m

/-- Memory after an access to something that is not ordinary RAM: any bytes may have changed (R33, log entry 6). -/
def Memory.sideEffects (k : Nat) (m : Memory) : Memory :=
  (Config.sideEffects k).foldl (fun m c => Memory.write m c.1.toNat c.2) m

/-! ## Register updates -/

/-- Writes STATUS. -/
def State.setStatus (s : State) (st : Status) : State := { s with status := st }

/-- Writes memory. -/
def State.setMem (s : State) (m : Memory) : State := { s with mem := m }

/-- Writes the three result registers (R21). -/
def State.setRes (s : State) (w h b : Word) : State :=
  { s with resWidth := w, resHeight := h, resBytes := b }

/-- Writes the three descriptor registers (R22). -/
def State.setDesc (s : State) (w0 w1 w2 : Word) : State :=
  { s with descW0 := w0, descW1 := w1, descW2 := w2 }

/-- Draws one free value, and leaves the hidden state unspecified (R26). -/
def State.drawHidden (s : State) : State :=
  { s with hidden := Config.idleHidden s.draws, draws := s.draws + 1 }

/-- `raise Err(CODE)` (R82): the one way a command ends with an error. This is the machine's "trap" (R87): only STATUS records it. -/
def raiseErr (e : ErrCode) (s : State) : State := s.setStatus (s.status.ended e)

/-- `finish()` (R83): the one way a command ends with success. -/
def finish (s : State) : State := s.setStatus (s.status.ended .ok)

/-- Acceptance of the command word `v` (R18), which also draws the command's LATENCY (R103, log entry 2) and the moment of its write
of RANGE (R79, log entry 27). -/
def accept (v : Word) (s : State) : State :=
  { (((s.setStatus s.status.accepted).setRes 0 0 0).setDesc 0 0 0) with
    cmd := v, wait := Config.latency s.draws, rangeWait := Config.rangeMoment s.draws, touched := Touched.nothing
    draws := s.draws + 1 }

/-- The legal part of the command prologue (R56): look the format up, copy its words to DESC_W0..W2, run the body. -/
def withFormat (fmt : Nat) (body : Descriptor → State → State) (s : State) : State :=
  match rom s.params fmt with
  | none => raiseErr .unknownFormat s
  | some D => body D (s.setDesc D.w0 D.w1 D.w2)

end Sys2Proof.Machine
end

