-- ==== Sys2Proof/Machine/Operands.lean ====
section
/-! DEFINITION. The argument registers as each command reads them (R17), and the checks on them (R59, R61 to R66, R74, R75, R79).
Arithmetic is on unbounded naturals (R7). -/

namespace Sys2Proof.Machine

/-- `if c: raise Err(e)`. -/
def failIf (c : Prop) [Decidable c] (e : ErrCode) : Except ErrCode Unit :=
  if c then .error e else .ok ()

/-- The encoded byte count of a W×H image (R11). -/
def needEnc (W H bpp : Nat) : Nat := W * H * bpp / 8

/-- The width SIZE_DEC and DECODE_AUTO work with, before it is checked: WIDTH, or the default where WIDTH is 0 (R61). -/
def chosenWidth (D : Descriptor) (s : State) : Nat := if s.width.toNat ≠ 0 then s.width.toNat else D.defaultWidth

/-- `select_width()` (R61). -/
def selectWidth (D : Descriptor) (s : State) : Except ErrCode Nat := do
  let W := chosenWidth D s
  failIf (W % D.tileW ≠ 0) .geometryError
  return W

/-- `geometry_check(W, H)` (R62). -/
def geometryCheck (D : Descriptor) (W H : Nat) : Except ErrCode Unit :=
  failIf (W = 0 ∨ H = 0 ∨ W % D.tileW ≠ 0 ∨ H % D.tileH ≠ 0 ∨ W * H ≥ 2 ^ 32) .geometryError

/-- The height R63 derives, before it is checked: the floor, then down to a multiple of TILE_H. -/
def derivedHeight (D : Descriptor) (n W : Nat) : Nat := n * 8 / (D.bpp * W) / D.tileH * D.tileH

/-- `derive_height(n, W)` (R63). -/
def deriveHeight (D : Descriptor) (n W : Nat) : Except ErrCode Nat := do
  let H := derivedHeight D n W
  failIf (H = 0) .insufficientData
  return H

/-- `check_regions(su, du)` (R59). -/
def checkRegions (s : State) (su du : Nat) : Except ErrCode Unit := do
  failIf (s.srcBase.toNat + s.srcLen.toNat > 2 ^ 32 ∨ s.dstBase.toNat + s.dstLen.toNat > 2 ^ 32) .regionError
  failIf (s.srcBase.toNat < s.dstBase.toNat + du ∧ s.dstBase.toNat < s.srcBase.toNat + su) .regionError

/-- A buffer is absent when its length register is 0 (R36). -/
def notEmpty (s : State) : Except ErrCode Unit :=
  failIf (s.srcLen.toNat = 0 ∨ s.dstLen.toNat = 0) .nullOrEmptyInput

/-- What a command's checks leave: the geometry, and the byte counts it reads and writes (R26 item 2, R59). -/
structure Plan where
  width   : Nat
  height  : Nat
  /-- The encoded byte count, for RES_BYTES. -/
  need    : Nat
  /-- `su` of R59; 0 for a command without memory access. -/
  srcUsed : Nat
  /-- `du` of R59; 0 for a command without memory access. -/
  dstUsed : Nat
deriving DecidableEq, Repr

/-- The checks of SIZE_DEC, in order (R65). -/
def sizeDecPlan (D : Descriptor) (s : State) : Except ErrCode Plan := do
  let W ← selectWidth D s
  let H ← deriveHeight D s.srcLen.toNat W
  failIf (W * H ≥ 2 ^ 32) .geometryError
  return ⟨W, H, needEnc W H D.bpp, 0, 0⟩

/-- The check of SIZE_ENC (R66). -/
def sizeEncPlan (D : Descriptor) (s : State) : Except ErrCode Plan := do
  let W := s.width.toNat
  let H := s.height.toNat
  geometryCheck D W H
  return ⟨W, H, needEnc W H D.bpp, 0, 0⟩

/-- The checks of DECODE, in order (R74). -/
def decodePlan (D : Descriptor) (s : State) : Except ErrCode Plan := do
  notEmpty s
  let W := s.width.toNat
  let H := s.height.toNat
  geometryCheck D W H
  let need := needEnc W H D.bpp
  failIf (s.srcLen.toNat < need) .insufficientData
  failIf (s.dstLen.toNat < W * H) .insufficientOutputCapacity
  checkRegions s need (W * H)
  return ⟨W, H, need, need, W * H⟩

/-- The checks of DECODE_AUTO, in order (R75). HEIGHT is not read. -/
def decodeAutoPlan (D : Descriptor) (s : State) : Except ErrCode Plan := do
  notEmpty s
  let W ← selectWidth D s
  let H ← deriveHeight D s.srcLen.toNat W
  failIf (W * H ≥ 2 ^ 32) .geometryError
  let need := needEnc W H D.bpp
  failIf (s.dstLen.toNat < W * H) .insufficientOutputCapacity
  checkRegions s need (W * H)
  return ⟨W, H, need, need, W * H⟩

/-- The checks of ENCODE, in order (R79). -/
def encodePlan (D : Descriptor) (s : State) : Except ErrCode Plan := do
  notEmpty s
  let W := s.width.toNat
  let H := s.height.toNat
  geometryCheck D W H
  let need := needEnc W H D.bpp
  failIf (s.srcLen.toNat < W * H) .insufficientData
  failIf (s.dstLen.toNat < need) .insufficientOutputCapacity
  checkRegions s (W * H) need
  return ⟨W, H, need, W * H, need⟩

/-- The plan of a command that accesses memory and passes its checks; its used extents follow from it (R59). -/
def memoryPlan (D : Descriptor) (s : State) : Instr → Option Plan
  | .decode _ => (decodePlan D s).toOption
  | .decodeAuto _ => (decodeAutoPlan D s).toOption
  | .encode _ => (encodePlan D s).toOption
  | .lookup _ => none
  | .sizeDec _ => none
  | .sizeEnc _ => none

/-- `a` is in the source used extent `S` of R59. -/
abbrev Plan.inSrc (p : Plan) (s : State) (a : Nat) : Prop :=
  s.srcBase.toNat ≤ a ∧ a < s.srcBase.toNat + p.srcUsed

/-- `a` is in the destination used extent `T` of R59. -/
abbrev Plan.inDst (p : Plan) (s : State) (a : Nat) : Prop :=
  s.dstBase.toNat ≤ a ∧ a < s.dstBase.toNat + p.dstUsed

/-- Both used extents lie in ordinary RAM, as R33 asks of the host. -/
def Plan.ordinary (p : Plan) (s : State) : Bool :=
  s.params.ordinary s.srcBase.toNat p.srcUsed && s.params.ordinary s.dstBase.toNat p.dstUsed

end Sys2Proof.Machine
end

