-- ==== Sys2Proof/Machine/Codec.lean ====
section
/-! DEFINITION. What the decoder and the encoder share: addressing (R68 to R71), the datapath of a walk, and the frame of a
memory command around its walk (R59, R82 to R84). -/

namespace Sys2Proof.Machine

/-- Stream offset of the plane-`p` byte of tile row `r` of tile `t` (R69). -/
def planeOff (D : Descriptor) (t r p : Nat) : Nat :=
  t * D.bytesPerTile + r * D.rowInc + p / D.rowInc * D.groupGap + p % D.rowInc

/-- Bitmap offset of pixel column `c` of tile row `r` of tile (`tx`, `ty`) in an image `W` pixels wide (R71). -/
def pixelOff (D : Descriptor) (W ty tx r c : Nat) : Nat := (D.tileH * ty + r) * W + 8 * tx + c

/-- What a walk reads and writes: memory, the plane scratch buffer PS (R26) and STATUS.RANGE. -/
structure Datapath where
  mem   : Memory
  ps    : Vector Byte 8
  range : Bool

/-- The datapath at the start of a walk. PS holds whatever it held. -/
def Datapath.start (s : State) : Datapath := ⟨s.mem, s.hidden.scratch, s.status.range⟩

/-- `PS[p]`. -/
def Datapath.plane (d : Datapath) (p : Nat) : Byte := d.ps[p]?.getD 0

/-- `PS[p] <- v`. -/
def Datapath.setPlane (d : Datapath) (p : Nat) (v : Byte) : Datapath := { d with ps := d.ps.setIfInBounds p v }

/-- `MemWrite(a, 1, v)`. -/
def Datapath.write (d : Datapath) (a : Nat) (v : Byte) : Datapath := { d with mem := Memory.write d.mem a v }

/-- The tile walk's loops, over tile rows, tile columns and rows of a tile (R68, R72, R77): `row ty tx r` is one tile row. -/
def tileWalk (D : Descriptor) (W H : Nat) (row : (ty tx r : Nat) → Datapath → Datapath) : Datapath → Datapath :=
  forUpTo (H / D.tileH) fun ty =>
    forUpTo (W / 8) fun tx =>
      forUpTo D.tileH fun r => row ty tx r

/-- The number of tile (`tx`, `ty`) in an image `W` pixels wide (R68). -/
def tileNumber (W ty tx : Nat) : Nat := ty * (W / 8) + tx

/-- Some access of the memory command that runs now is answered with an error. One draw stands for the whole walk, since R84
leaves everything unspecified that depends on which access it is (log entry 7). -/
def busErrorHits (s : State) : Bool := s.params.busErrors && Config.accessError s.draws

/-- What the engine's accesses do besides reading and storing, where a used extent is not in ordinary RAM (R33, log entry 6). -/
def deviceEffects (p : Plan) (s : State) (m : Memory) : Memory :=
  if p.ordinary s then m else Memory.sideEffects s.draws m

/-- What the walk read is unknown: the host wrote in the source extent meanwhile (R39 item 3), or a used extent is not in ordinary
RAM (R33). Every destination byte then takes any value. -/
def sourceUnknown (p : Plan) (s : State) : Bool := s.touched.source || !p.ordinary s

/-- The state BusError leaves, before the code is written: every byte of the destination used extent is unspecified (R84),
and RANGE too where the command is ENCODE (R78). -/
def spoilForBusError (isEncode : Bool) (p : Plan) (s : State) : State :=
  let st := { s.status with range := if isEncode then Config.unspecifiedRange s.draws else s.status.range }
  ((s.setMem (deviceEffects p s (Memory.spoil s.draws s.dstBase.toNat p.dstUsed s.mem))).setStatus st).drawHidden

/-- Memory after the walk left `m`, when the host wrote in the used extents meanwhile (R39 item 3): a write to the source extent
makes every destination byte unspecified; a destination byte the host wrote ends as the host's or the engine's. -/
def settleHost (p : Plan) (s : State) (m : Memory) : Memory :=
  let m1 := if sourceUnknown p s then Memory.spoil s.draws s.dstBase.toNat p.dstUsed m else m
  s.touched.dest.foldl
    (fun m a => if Config.hostByteStays s.draws a then Memory.write m a (Memory.read s.mem a) else m) m1

/-- Memory after the walk left `m`, with all that R39 item 3 and R33 add. -/
def settleMem (p : Plan) (s : State) (m : Memory) : Memory := deviceEffects p s (settleHost p s m)

/-- STATUS.RANGE after the walk left `r`: unspecified where what ENCODE read is unknown (log entries 6 and 9), but a RANGE that is 1
already stays so (R78). -/
def settleRange (isEncode : Bool) (p : Plan) (s : State) (r : Bool) : Bool :=
  if isEncode && sourceUnknown p s then s.status.range || Config.unspecifiedRange s.draws else r

/-- The state after a whole walk. -/
def afterWalk (isEncode : Bool) (p : Plan) (d : Datapath) (s : State) : State :=
  ((s.setMem (settleMem p s d.mem)).setStatus { s.status with range := settleRange isEncode p s d.range }).drawHidden

/-- A memory command: its checks, then its walk, then RES_* and the end (R74, R75, R79). -/
def runMemoryCommand (isEncode : Bool) (plan : Except ErrCode Plan) (walk : Plan → Datapath → Datapath) (s : State) : State :=
  match plan with
  | .error e => raiseErr e s
  | .ok p =>
    if busErrorHits s then raiseErr .busError (spoilForBusError isEncode p s)
    else
      finish ((afterWalk isEncode p (walk p (Datapath.start s)) s).setRes
        (wordOf p.width) (wordOf p.height) (wordOf p.need))

end Sys2Proof.Machine
end

