-- ==== Sys2Proof/Machine/Decoder.lean ====
section
/-! DEFINITION. The bitplane decoder: DECODE (R74) and DECODE_AUTO (R75). -/

namespace Sys2Proof.Machine

/-- The plane bytes of one tile row go into PS (R72). -/
def loadPlanes (D : Descriptor) (src t r : Nat) (d : Datapath) : Datapath :=
  forUpTo D.bpp (fun p d => d.setPlane p (Memory.read d.mem (src + planeOff D t r p))) d

/-- The colour index of pixel column `c`: plane `p` gives bit `p`, from bit `7 - c` of its byte (R72). -/
def assemblePixel (bpp c : Nat) (d : Datapath) : Byte :=
  forUpTo bpp (fun p v => v ||| ((d.plane p >>> (7 - c)) &&& 1) <<< p) 0

/-- One tile row of the decoder (R72). -/
def decodeRow (D : Descriptor) (src dst W ty tx r : Nat) (d : Datapath) : Datapath :=
  forUpTo 8 (fun c d => d.write (dst + pixelOff D W ty tx r c) (assemblePixel D.bpp c d))
    (loadPlanes D src (tileNumber W ty tx) r d)

/-- `decode_tiles(W, H)` (R72). -/
def decodeTiles (D : Descriptor) (src dst W H : Nat) : Datapath → Datapath :=
  tileWalk D W H (decodeRow D src dst W)

/-- DECODE (R74). -/
def execDecode (fmt : Nat) (s : State) : Host.Outcome State Fault Refusal :=
  .next (withFormat fmt (fun D s =>
    runMemoryCommand false (decodePlan D s)
      (fun p => decodeTiles D s.srcBase.toNat s.dstBase.toNat p.width p.height) s) s)

/-- DECODE_AUTO (R75). -/
def execDecodeAuto (fmt : Nat) (s : State) : Host.Outcome State Fault Refusal :=
  .next (withFormat fmt (fun D s =>
    runMemoryCommand false (decodeAutoPlan D s)
      (fun p => decodeTiles D s.srcBase.toNat s.dstBase.toNat p.width p.height) s) s)

end Sys2Proof.Machine
end

