-- ==== Sys2Proof/Machine/Encoder.lean ====
section
/-! DEFINITION. The bitplane encoder: ENCODE (R79). -/

namespace Sys2Proof.Machine

/-- `PS[p] <- 0` for the planes in use (R77). -/
def clearPlanes (bpp : Nat) (d : Datapath) : Datapath :=
  forUpTo bpp (fun p d => d.setPlane p 0) d

/-- One pixel of value `v`: RANGE when it is not below 2^BPP (R78), and bit `p` of it shifted into plane `p` (R77). -/
def packPixel (bpp : Nat) (v : Byte) (d : Datapath) : Datapath :=
  forUpTo bpp (fun p d => d.setPlane p ((d.plane p <<< 1) ||| ((v >>> p) &&& 1)))
    { d with range := d.range || decide (v.toNat ≥ 2 ^ bpp) }

/-- One tile row of the encoder (R77). -/
def encodeRow (D : Descriptor) (src dst W ty tx r : Nat) (d : Datapath) : Datapath :=
  forUpTo D.bpp (fun p d => d.write (dst + planeOff D (tileNumber W ty tx) r p) (d.plane p))
    (forUpTo 8 (fun c d => packPixel D.bpp (Memory.read d.mem (src + pixelOff D W ty tx r c)) d)
      (clearPlanes D.bpp d))

/-- `encode_tiles(W, H)` (R77). -/
def encodeTiles (D : Descriptor) (src dst W H : Nat) : Datapath → Datapath :=
  tileWalk D W H (encodeRow D src dst W)

/-- ENCODE (R79). -/
def execEncode (fmt : Nat) (s : State) : Host.Outcome State Fault Refusal :=
  .next (withFormat fmt (fun D s =>
    runMemoryCommand true (encodePlan D s)
      (fun p => encodeTiles D s.srcBase.toNat s.dstBase.toNat p.width p.height) s) s)

end Sys2Proof.Machine
end

