-- ==== Sys2Proof/Machine/Registry.lean ====
section
/-! DEFINITION. The registry family: LOOKUP (R60). -/

namespace Sys2Proof.Machine

/-- LOOKUP (R60): the prologue has written DESC_W0..W2; nothing else happens. -/
def execLookup (fmt : Nat) (s : State) : Host.Outcome State Fault Refusal :=
  .next (withFormat fmt (fun _ s => finish s) s)

end Sys2Proof.Machine
end

