-- ==== Sys2Proof/Machine/Size.lean ====
section
/-! DEFINITION. The size calculator: SIZE_DEC (R65) and SIZE_ENC (R66). Neither accesses memory. -/

namespace Sys2Proof.Machine

/-- A command that only computes a geometry: its checks, then RES_* and the end. -/
def runSizeCommand (plan : Except ErrCode Plan) (s : State) : State :=
  match plan with
  | .error e => raiseErr e s
  | .ok p => finish (s.setRes (wordOf p.width) (wordOf p.height) (wordOf p.need))

/-- SIZE_DEC (R65). -/
def execSizeDec (fmt : Nat) (s : State) : Host.Outcome State Fault Refusal :=
  .next (withFormat fmt (fun D s => runSizeCommand (sizeDecPlan D s) s) s)

/-- SIZE_ENC (R66). -/
def execSizeEnc (fmt : Nat) (s : State) : Host.Outcome State Fault Refusal :=
  .next (withFormat fmt (fun D s => runSizeCommand (sizeEncPlan D s) s) s)

end Sys2Proof.Machine
end

