-- ==== Sys2Proof/Machine/Dispatch.lean ====
section
/-! DEFINITION. The dispatch multiplexer (R56, R57): the engine's step for a running command. -/

namespace Sys2Proof.Machine

def exec (i : Instr) (s : State) : Host.Outcome State Fault Refusal :=
  match i with
  | .lookup fmt => Sys2Proof.Machine.execLookup fmt s
  | .sizeDec fmt => Sys2Proof.Machine.execSizeDec fmt s
  | .sizeEnc fmt => Sys2Proof.Machine.execSizeEnc fmt s
  | .decode fmt => Sys2Proof.Machine.execDecode fmt s
  | .decodeAuto fmt => Sys2Proof.Machine.execDecodeAuto fmt s
  | .encode fmt => Sys2Proof.Machine.execEncode fmt s

end Sys2Proof.Machine
end

