-- ==== Sys2Proof/Machine/HostPort.lean ====
section
/-! DEFINITION. The engine's one step for a running command, and everything the outside world can do: register reads and writes
over the bus (R15 to R22, R28), loads and stores of memory (R34, R39), reset (R95, R97). -/

namespace Sys2Proof.Machine

/-- The engine's step (R102): run the command in CMD; an illegal word ends at once with IllegalCommand (R50, R56). -/
def runCommand (s : State) : Host.Outcome State Fault Refusal :=
  match decodeWord s.cmd with
  | .ok i => exec i s
  | .error _ => .next (raiseErr .illegalCommand s)

/-- The plan of the command in CMD, if it accesses memory: what R39 item 3 and R97 call its used extents. -/
def runningPlan (s : State) : Option Plan :=
  match decodeWord s.cmd with
  | .error _ => none
  | .ok i =>
    match rom s.params i.fmt with
    | none => none
    | some D => memoryPlan D s i

/-! ## RANGE during the walk (R77, R79) -/

/-- The walk of the command leaves RANGE at 1. Only ENCODE writes it (R78). -/
def walkSetsRange (D : Descriptor) (s : State) : Instr → Bool
  | .encode _ =>
    match encodePlan D s with
    | .error _ => false
    | .ok p =>
      settleRange true p s (encodeTiles D s.srcBase.toNat s.dstBase.toNat p.width p.height (Datapath.start s)).range
  | .lookup _ => false
  | .sizeDec _ => false
  | .sizeEnc _ => false
  | .decode _ => false
  | .decodeAuto _ => false

/-- The walk of the running command leaves RANGE at 1. -/
def runningSetsRange (s : State) : Bool :=
  match decodeWord s.cmd with
  | .error _ => false
  | .ok i =>
    match rom s.params i.fmt with
    | none => false
    | some D => walkSetsRange D s i

/-- What the running walk has done to RANGE by now: once its moment has come, drawn at acceptance, the write of R77 is done, and it
stays (R78). Nothing else of the walk shows before the engine's step (log entry 27). -/
def writeRange (s : State) : State :=
  if s.status.busy && decide (s.wait < s.rangeWait) && runningSetsRange s then s.setStatus { s.status with range := true } else s

/-! ## The register block -/

/-- The sixteen words of the register block (R15). -/
inductive RegName where
  | cmd
  | status
  | srcBase
  | srcLen
  | dstBase
  | dstLen
  | width
  | height
  | resWidth
  | resHeight
  | resBytes
  | descW0
  | descW1
  | descW2
  | reserved
deriving DecidableEq, Repr

/-- The register at word `k` of the block, offset `4 * k` (R15). -/
def RegName.ofWordIndex (k : Nat) : RegName :=
  match k with
  | 0 => .cmd
  | 1 => .status
  | 2 => .srcBase
  | 3 => .srcLen
  | 4 => .dstBase
  | 5 => .dstLen
  | 6 => .width
  | 7 => .height
  | 8 => .resWidth
  | 9 => .resHeight
  | 10 => .resBytes
  | 11 => .descW0
  | 12 => .descW1
  | 13 => .descW2
  | _ => .reserved

/-- What a bus access meets. -/
inductive BusTarget where
  /-- Outside the 64 bytes of the block: the access does not reach the engine (R35). -/
  | outside
  /-- In the block, but narrow or misaligned (R28). -/
  | ignored
  /-- An aligned 32-bit access to a register. -/
  | reg (r : RegName)
deriving DecidableEq, Repr

/-- What a bus access of `width` at host address `addr` meets (R15, R28). -/
def busTarget (p : Params) (addr : Nat) (width : AccessWidth) : BusTarget :=
  if addr < p.engineBase ∨ p.engineBase + 64 ≤ addr then .outside
  else if width = .word ∧ (addr - p.engineBase) % 4 = 0 then .reg (.ofWordIndex ((addr - p.engineBase) / 4))
  else .ignored

/-- A write to CMD or an argument register: dropped with OVR set while BUSY (R20), otherwise as given. -/
def unlessBusy (write : State → State) (s : State) : State :=
  if s.status.busy then s.setStatus s.status.dropped else write s

/-- An aligned 32-bit host write to a register (R16, R18, R19, R20); read-only and reserved words ignore it (R15). -/
def hostWriteReg (r : RegName) (v : Word) (s : State) : State :=
  match r with
  | .cmd => unlessBusy (accept v) s
  | .status => s.setStatus (s.status.hostWrite v)
  | .srcBase => unlessBusy (fun s => { s with srcBase := v }) s
  | .srcLen => unlessBusy (fun s => { s with srcLen := v }) s
  | .dstBase => unlessBusy (fun s => { s with dstBase := v }) s
  | .dstLen => unlessBusy (fun s => { s with dstLen := v }) s
  | .width => unlessBusy (fun s => { s with width := v }) s
  | .height => unlessBusy (fun s => { s with height := v }) s
  | .resWidth => s
  | .resHeight => s
  | .resBytes => s
  | .descW0 => s
  | .descW1 => s
  | .descW2 => s
  | .reserved => s

/-- The word a host read finds; a result or descriptor register read while BUSY gives an unspecified word (R21, R22). -/
def regWord (r : RegName) (s : State) : Word :=
  let quiet (w : Word) : Word := if s.status.busy then Config.busyWord s.draws else w
  match r with
  | .cmd => s.cmd
  | .status => s.status.word
  | .srcBase => s.srcBase
  | .srcLen => s.srcLen
  | .dstBase => s.dstBase
  | .dstLen => s.dstLen
  | .width => s.width
  | .height => s.height
  | .resWidth => quiet s.resWidth
  | .resHeight => quiet s.resHeight
  | .resBytes => quiet s.resBytes
  | .descW0 => quiet s.descW0
  | .descW1 => quiet s.descW1
  | .descW2 => quiet s.descW2
  | .reserved => 0

/-- A host read returns `v`; every read draws, so that two unspecified reads may differ. -/
def returnToHost (v : Word) (s : State) : State := { s with hostData := v, draws := s.draws + 1 }

/-- A bus read (R28): a register read has no side effect on the engine. -/
def busRead (addr : Nat) (width : AccessWidth) (s : State) : State :=
  match busTarget s.params addr width with
  | .outside => s
  | .ignored => returnToHost 0 s
  | .reg r => returnToHost (regWord r s) s

/-- A bus write (R28). -/
def busWrite (addr : Nat) (width : AccessWidth) (v : Word) (s : State) : State :=
  match busTarget s.params addr width with
  | .outside => s
  | .ignored => s
  | .reg r => hostWriteReg r v s

/-! ## Memory and reset -/

/-- Memory as the running command would leave it if the engine took its step now. -/
def memAfterCommand (s : State) : Memory :=
  match runCommand s with
  | .next t => t.mem
  | .fault _ => s.mem
  | .refused _ => s.mem

/-- A host load of a byte of ordinary RAM. While BUSY it may see the byte before or after the command's write; the two differ only in the
destination used extent (R34). -/
def hostLoad (a : Word) (s : State) : State :=
  let m := if s.status.busy && Config.seesEngineByte s.draws then memAfterCommand s else s.mem
  returnToHost ((Memory.read m a.toNat).setWidth 32) s

/-- Records a host write at `a` while the command with plan `p` runs (R39 item 3). -/
def touch (p : Plan) (a : Nat) (s : State) : Touched where
  source := s.touched.source || decide (p.inSrc s a)
  dest   := if p.inDst s a then s.touched.dest.insert a else s.touched.dest

/-- A store of a byte of ordinary RAM by the host. While a memory command runs, a write to a used extent is recorded (R39 item 3). -/
def hostStore (a : Word) (v : Byte) (s : State) : State :=
  let s' := s.setMem (Memory.write s.mem a.toNat v)
  if s.status.busy then
    match runningPlan s with
    | none => s'
    | some p => { s' with touched := touch p a.toNat s }
  else s'

/-- What an access of the host to something that is not ordinary RAM does: it may store any bytes anywhere (R33, log entry 6). -/
def hostSideEffects (s : State) : State := (Config.sideEffects s.draws).foldl (fun s c => hostStore c.1 c.2 s) s

/-- A host load from something that is not ordinary RAM returns any byte. -/
def deviceLoad (s : State) : State := returnToHost ((Config.deviceByte s.draws).setWidth 32) (hostSideEffects s)

/-- A host store to something that is not ordinary RAM. -/
def deviceStore (s : State) : State := { hostSideEffects s with draws := s.draws + 1 }

/-- Reset (R95). During a command every byte of its destination used extent becomes unspecified (R97).
The parameters, memory and what is outside the engine stay. -/
def resetEngine (s : State) : State :=
  let m :=
    if s.status.busy then
      match runningPlan s with
      | none => s.mem
      | some p => deviceEffects p s (Memory.spoil s.draws s.dstBase.toNat p.dstUsed s.mem)
    else s.mem
  { State.reset with
    params := s.params, mem := m, hidden := Config.idleHidden s.draws
    pending := s.pending, hostData := s.hostData, draws := s.draws + 1 }

/-- One action of the outside world. A same-cycle STATUS write comes first, so that a dropped write leaves OVR at 1 (R20). -/
def hostAct (a : HostAction) (s : State) : State :=
  match a with
  | .idle => s
  | .busRead addr width => busRead addr width s
  | .busWrite addr width v => busWrite addr width v s
  | .statusAndWrite st addr width v => busWrite addr width v (hostWriteReg .status st s)
  | .memRead a => if s.params.ordinary a.toNat 1 then hostLoad a s else deviceLoad s
  | .memWrite a v => if s.params.ordinary a.toNat 1 then hostStore a v s else deviceStore s
  | .reset => resetEngine s

/-- The engine moves next: a command runs, and its LATENCY is over or the host has nothing left to do (R102). -/
def engineTurn (s : State) : Bool := s.status.busy && (s.wait == 0 || s.pending.isEmpty)

/-- The host's next action, taken off the list of those to come; it finds RANGE as the running walk has written it by then.
With none left nothing changes (R94). -/
def hostTurn (s : State) : State :=
  match s.pending with
  | [] => s
  | a :: rest => hostAct a (writeRange { s with pending := rest, wait := s.wait - 1 })

end Sys2Proof.Machine
end

