-- ==== Sys2Proof/Machine/Step.lean ====
section
/-! DEFINITION. One step of the machine (R102). -/

namespace Sys2Proof.Machine

/-- One step: the engine performs the running command whole, or the host acts. -/
def step (s : State) : Host.Outcome State Fault Refusal :=
  if engineTurn s then runCommand s else .next (hostTurn s)

/-- The state in which the command word `w` has just been accepted (R18) and the engine's step is the next one. The engine fetches
nothing from memory (R42); this stands for the host's write to CMD (log entry 4). -/
def State.withFetchWord (s : State) (nbits w : Nat) : State :=
  { accept (wordOf (w % 2 ^ nbits)) s with wait := 0 }

end Sys2Proof.Machine
end

