-- ==== Sys2Proof/Safety.lean ====
section
/-! DEFINITION. What counts as a sound state of the machine and as a host that keeps the rules, in the terms claims use. -/

namespace Sys2Proof.Machine

/-- The combinations of STATUS fields that R19 allows, with what R78 and R81 add: RANGE only after an ENCODE that ended with OK
or BusError, or during one, and the reserved code AllocationFailure never. -/
def Status.Legal (st : Status) : Prop :=
  (st.busy = true → st.done = false ∧ st.err = .ok) ∧
  (st.busy = false → st.done = false → st.err = .ok ∧ st.range = false) ∧
  (st.range = true → st.err = .ok ∨ st.err = .busError) ∧
  st.err ≠ .allocationFailure

/-- While BUSY, RANGE is 1 only where the running command is an ENCODE that passed its checks (R78): its walk has written it. -/
def State.RangeLegal (s : State) : Prop :=
  s.status.busy = true → s.status.range = true → ∃ (f : Nat) (D : Descriptor) (p : Plan),
    decodeWord s.cmd = .ok (.encode f) ∧ rom s.params f = some D ∧ memoryPlan D s (.encode f) = some p

/-- A command has ended, and with success. -/
def Status.succeeded (st : Status) : Bool := st.done && decide (st.err = .ok)

/-- RES_* are 0 unless a command has ended with success (R21, R82). -/
def State.ResultsLegal (s : State) : Prop :=
  s.status.succeeded = false → s.resWidth = 0 ∧ s.resHeight = 0 ∧ s.resBytes = 0

/-- DESC_* hold the ROM entry of CMD's format once a command has ended otherwise than with UnknownFormat or IllegalCommand,
and 0 in every other case (R22). -/
def State.DescLegal (s : State) : Prop :=
  if s.status.done = true ∧ s.status.err ≠ .unknownFormat ∧ s.status.err ≠ .illegalCommand then
    ∃ D, rom s.params (fmtField s.cmd) = some D ∧ s.descW0 = D.w0 ∧ s.descW1 = D.w1 ∧ s.descW2 = D.w2
  else s.descW0 = 0 ∧ s.descW1 = 0 ∧ s.descW2 = 0

/-- Memory is canonical and lies in the memory space of 2^32 bytes. -/
def State.MemLegal (s : State) : Prop := s.mem.wf ∧ s.mem.inSpace

/-- While a command runs, the destination bytes recorded as written by the host lie in its destination used extent. -/
def State.TouchedLegal (s : State) : Prop :=
  s.status.busy = true → ∀ a ∈ s.touched.dest, a < 2 ^ 32 ∧ ∃ p, runningPlan s = some p ∧ p.inDst s a

/-- The invariant of the machine. -/
structure State.Inv (s : State) : Prop where
  status  : s.status.Legal
  range   : s.RangeLegal
  results : s.ResultsLegal
  desc    : s.DescLegal
  mem     : s.MemLegal
  touched : s.TouchedLegal

/-- The state right after the acceptance of a command, as R18 leaves it, with a host that has kept R100 since. -/
structure State.Accepted (s : State) : Prop where
  busy    : s.status.busy = true
  done    : s.status.done = false
  err     : s.status.err = .ok
  range   : s.status.range = false
  results : s.resWidth = 0 ∧ s.resHeight = 0 ∧ s.resBytes = 0
  desc    : s.descW0 = 0 ∧ s.descW1 = 0 ∧ s.descW2 = 0
  touched : s.touched = Touched.nothing

/-- A bus write that a host may make while BUSY: not to CMD or an argument register (R100). -/
def BusTarget.quietWrite : BusTarget → Bool
  | .outside => true
  | .ignored => true
  | .reg r => r ∉ [.cmd, .srcBase, .srcLen, .dstBase, .dstLen, .width, .height]

/-- The host action keeps R100 while the command in CMD runs: no write to CMD or an argument register, no write to a used extent.
It loads and stores ordinary RAM only (R33), where a load changes nothing. Reset is not a host access. -/
def HostAction.quiet (s : State) : HostAction → Prop
  | .idle => True
  | .busRead _ _ => True
  | .busWrite addr width _ => (busTarget s.params addr width).quietWrite = true
  | .statusAndWrite _ addr width _ => (busTarget s.params addr width).quietWrite = true
  | .memRead a => s.params.ordinary a.toNat 1 = true
  | .memWrite a _ => s.params.ordinary a.toNat 1 = true ∧ ∀ p, runningPlan s = some p → ¬ p.inSrc s a.toNat ∧ ¬ p.inDst s a.toNat
  | .reset => False

end Sys2Proof.Machine
end

