-- ==== Sys2Proof/Certificates/Slice0/Obligations.lean ====
section
/-! DEFINITION. The statements about the machine, for the provers. -/

namespace Sys2Proof.Claims
open Sys2Proof.Machine

/-! ## Words the statements share -/

/-- STATUS after the end of a command with code `e`: BUSY 0, DONE 1, ERR `e`; RANGE and OVR as they were (R82, R83). -/
def ended (s : State) (e : ErrCode) : Status := { s.status with busy := false, done := true, err := e }

/-- `s` with the three words of `D` in DESC_W0..W2 and the command ended with code `e`; everything else as it was. -/
def endedWith (s : State) (D : Descriptor) (e : ErrCode) : State :=
  { s with descW0 := D.w0, descW1 := D.w1, descW2 := D.w2, status := ended s e }

/-- What no command changes: the parameters, CMD, the six argument registers, OVR, the host's list and what it last read, and the
model's own `wait`, `rangeWait` and `touched` (log entry 16). -/
def KeptByCommands (s t : State) : Prop :=
  t.params = s.params ∧ t.cmd = s.cmd ∧ t.srcBase = s.srcBase ∧ t.srcLen = s.srcLen ∧ t.dstBase = s.dstBase ∧
  t.dstLen = s.dstLen ∧ t.width = s.width ∧ t.height = s.height ∧ t.status.ovr = s.status.ovr ∧
  t.pending = s.pending ∧ t.wait = s.wait ∧ t.rangeWait = s.rangeWait ∧ t.touched = s.touched ∧ t.hostData = s.hostData

/-- Every byte of memory outside `[base, base + len)` reads as before. -/
def SameBytesOutside (base len : Nat) (s t : State) : Prop :=
  ∀ a, a < base ∨ base + len ≤ a → Memory.read t.mem a = Memory.read s.mem a

/-- DESC_W0..W2 hold the words of `D`. -/
def ShowsDescriptor (D : Descriptor) (t : State) : Prop := t.descW0 = D.w0 ∧ t.descW1 = D.w1 ∧ t.descW2 = D.w2

/-- RES_WIDTH, RES_HEIGHT and RES_BYTES, as numbers. -/
def Results (t : State) (W H n : Nat) : Prop :=
  t.resWidth.toNat = W ∧ t.resHeight.toNat = H ∧ t.resBytes.toNat = n

/-- The result and descriptor registers are equal. -/
def SameResults (s t : State) : Prop :=
  t.resWidth = s.resWidth ∧ t.resHeight = s.resHeight ∧ t.resBytes = s.resBytes

def SameDescriptor (s t : State) : Prop := t.descW0 = s.descW0 ∧ t.descW1 = s.descW1 ∧ t.descW2 = s.descW2

/-- The width that SIZE_DEC and DECODE_AUTO use: WIDTH, or the format's default where WIDTH is 0 (R61). -/
def usedWidth (D : Descriptor) (s : State) : Nat := if s.width = 0 then D.defaultWidth else s.width.toNat

/-- The height R63 derives, in the closed form of R64. -/
def usedHeight (D : Descriptor) (s : State) : Nat := 8 * (s.srcLen.toNat / (usedWidth D s * D.bpp))

/-- `need_enc(W, H, bpp)` (R11). -/
def need (D : Descriptor) (W H : Nat) : Nat := W * H * D.bpp / 8

/-- The geometry conditions of R62. -/
abbrev GoodGeometry (W H : Nat) : Prop := W ≠ 0 ∧ H ≠ 0 ∧ W % 8 = 0 ∧ H % 8 = 0 ∧ W * H < 2 ^ 32

/-- The declared buffers do not wrap, and the used extents, `su` and `du` bytes long, do not overlap (R59). -/
abbrev GoodRegions (s : State) (su du : Nat) : Prop :=
  s.srcBase.toNat + s.srcLen.toNat ≤ 2 ^ 32 ∧ s.dstBase.toNat + s.dstLen.toNat ≤ 2 ^ 32 ∧
  ¬ (s.srcBase.toNat < s.dstBase.toNat + du ∧ s.dstBase.toNat < s.srcBase.toNat + su)

/-- Where the command accesses memory, its used extents lie in ordinary RAM, as R33 asks of the host. -/
def InOrdinaryMemory (i : Instr) (s : State) : Prop :=
  ∀ (D : Descriptor) (p : Plan), rom s.params i.fmt = some D → memoryPlan D s i = some p → p.ordinary s = true

/-- Memory is canonical, the command keeps to ordinary RAM (R33), and the host has kept R100 since acceptance. -/
def Undisturbed (i : Instr) (s : State) : Prop := s.mem.wf ∧ s.touched = Touched.nothing ∧ InOrdinaryMemory i s

/-- DECODE's checks after the format check all pass, with a WIDTH × HEIGHT image (R74). -/
def DecodeReady (D : Descriptor) (s : State) : Prop :=
  GoodGeometry s.width.toNat s.height.toNat ∧ need D s.width.toNat s.height.toNat ≤ s.srcLen.toNat ∧
  s.width.toNat * s.height.toNat ≤ s.dstLen.toNat ∧
  GoodRegions s (need D s.width.toNat s.height.toNat) (s.width.toNat * s.height.toNat)

/-- DECODE_AUTO's checks after the format check all pass (R75). -/
def DecodeAutoReady (D : Descriptor) (s : State) : Prop :=
  GoodGeometry (usedWidth D s) (usedHeight D s) ∧ usedWidth D s * usedHeight D s ≤ s.dstLen.toNat ∧
  GoodRegions s (need D (usedWidth D s) (usedHeight D s)) (usedWidth D s * usedHeight D s)

/-- ENCODE's checks after the format check all pass (R79). -/
def EncodeReady (D : Descriptor) (s : State) : Prop :=
  GoodGeometry s.width.toNat s.height.toNat ∧ s.width.toNat * s.height.toNat ≤ s.srcLen.toNat ∧
  need D s.width.toNat s.height.toNat ≤ s.dstLen.toNat ∧
  GoodRegions s (s.width.toNat * s.height.toNat) (need D s.width.toNat s.height.toNat)

/-- The bitmap at DST_BASE in `t` is the W×H image that the stream at SRC_BASE in `s` encodes: bit `p` of pixel (x, y) is bit
`7 - x mod 8` of the plane-`p` byte of the pixel's tile row, and the bits from BPP up are 0 (R69, R71, R72). -/
def BitmapDecoded (D : Descriptor) (W H : Nat) (s t : State) : Prop :=
  ∀ x y p, x < W → y < H → p < 8 →
    (Memory.read t.mem (s.dstBase.toNat + (y * W + x))).getLsbD p =
      (decide (p < D.bpp) &&
        (Memory.read s.mem (s.srcBase.toNat + planeOff D (y / 8 * (W / 8) + x / 8) (y % 8) p)).getLsbD (7 - x % 8))

/-- The stream at DST_BASE in `t` encodes the W×H bitmap at SRC_BASE in `s`: bit `7 - c` of each plane-`p` byte is bit `p` of pixel
column `c` of its tile row (R69, R71, R77). -/
def StreamEncoded (D : Descriptor) (W H : Nat) (s t : State) : Prop :=
  ∀ ty tx r p c, ty < H / 8 → tx < W / 8 → r < 8 → p < D.bpp → c < 8 →
    (Memory.read t.mem (s.dstBase.toNat + planeOff D (ty * (W / 8) + tx) r p)).getLsbD (7 - c) =
      (Memory.read s.mem (s.srcBase.toNat + ((8 * ty + r) * W + (8 * tx + c)))).getLsbD p

/-- Some pixel of the `n`-byte bitmap at SRC_BASE is 2^BPP or more (R78). -/
def OutOfRangePixel (D : Descriptor) (n : Nat) (s : State) : Prop :=
  ∃ o, o < n ∧ (Memory.read s.mem (s.srcBase.toNat + o)).toNat ≥ 2 ^ D.bpp

/-- `t` is the successful end of a decode of a W×H image begun in `s`: the bitmap is the one R72 gives, RES_* and DESC_* are written, ERR is 0, and
nothing else changes but the hidden state; memory outside the bitmap reads as before. -/
def DecodeDone (D : Descriptor) (W H : Nat) (s t : State) : Prop :=
  t.status = ended s .ok ∧ KeptByCommands s t ∧ ShowsDescriptor D t ∧ Results t W H (need D W H) ∧ BitmapDecoded D W H s t ∧
  SameBytesOutside s.dstBase.toNat (W * H) s t

/-- `t` is the successful end of an encode of a W×H image begun in `s`: every plane byte is the one R77 gives, RANGE is set exactly when some
pixel is out of range (R78), RES_* and DESC_* are written, ERR is 0, and nothing else changes but the hidden state; memory outside the stream
reads as before. -/
def EncodeDone (D : Descriptor) (W H : Nat) (s t : State) : Prop :=
  t.status = { ended s .ok with range := t.status.range } ∧
  (t.status.range = true ↔ s.status.range = true ∨ OutOfRangePixel D (W * H) s) ∧
  KeptByCommands s t ∧ ShowsDescriptor D t ∧ Results t W H (need D W H) ∧ StreamEncoded D W H s t ∧
  SameBytesOutside s.dstBase.toNat (need D W H) s t

/-- One of the commands with memory access. -/
def accessesMemory : Instr → Bool
  | .lookup _ => false
  | .sizeDec _ => false
  | .sizeEnc _ => false
  | .decode _ => true
  | .decodeAuto _ => true
  | .encode _ => true

/-- The command is ENCODE. -/
def isEncode : Instr → Bool
  | .lookup _ => false
  | .sizeDec _ => false
  | .sizeEnc _ => false
  | .decode _ => false
  | .decodeAuto _ => false
  | .encode _ => true

/-- The six argument registers by their offsets (R15, R16). -/
def argumentRegisters : List (Nat × (State → Word)) :=
  [(0x08, State.srcBase), (0x0C, State.srcLen), (0x10, State.dstBase), (0x14, State.dstLen), (0x18, State.width),
   (0x1C, State.height)]

/-- The result and descriptor registers by their offsets (R15). -/
def resultRegisters : List (Nat × (State → Word)) :=
  [(0x20, State.resWidth), (0x24, State.resHeight), (0x28, State.resBytes), (0x2C, State.descW0), (0x30, State.descW1),
   (0x34, State.descW2)]

/-- An aligned 32-bit host write of `v` at `offset` of the register block. -/
def hostWrite (offset : Nat) (v : Word) (s : State) : State := hostAct (.busWrite (s.params.engineBase + offset) .word v) s

/-- An aligned 32-bit host read at `offset` of the register block. -/
def hostRead (offset : Nat) (s : State) : State := hostAct (.busRead (s.params.engineBase + offset) .word) s

/-- A host read changes nothing but what the host has read, and uses one draw. -/
def OnlyHostData (s t : State) : Prop := t = { s with hostData := t.hostData, draws := s.draws + 1 }

/-- All registers of R15 hold 0 and no command has run: the values of R95. -/
def AtReset (s : State) : Prop :=
  s.cmd = 0 ∧ s.status = ⟨false, false, false, false, .ok⟩ ∧ s.status.word = 0 ∧ s.srcBase = 0 ∧ s.srcLen = 0 ∧ s.dstBase = 0 ∧
  s.dstLen = 0 ∧ s.width = 0 ∧ s.height = 0 ∧ s.resWidth = 0 ∧ s.resHeight = 0 ∧ s.resBytes = 0 ∧ s.descW0 = 0 ∧
  s.descW1 = 0 ∧ s.descW2 = 0

/-- A word is illegal (R50), on its bits. -/
def IllegalWordBits (w : Word) : Prop :=
  w.extractLsb' 0 4 ∈ [0x0#4, 0x7#4, 0x8#4, 0x9#4, 0xA#4, 0xB#4, 0xC#4, 0xD#4, 0xE#4, 0xF#4] ∨
  w.extractLsb' 4 4 ≠ 0#4 ∨ w.extractLsb' 16 16 ≠ 0#16

/-- The checks of a command with a registered format, in the order of R85: whether each fails, and the code it raises. -/
def checksInOrder (D : Descriptor) (s : State) : Instr → List (Bool × ErrCode)
  | .lookup _ => []
  | .sizeDec _ =>
    [(decide (usedWidth D s % 8 ≠ 0), .geometryError), (decide (usedHeight D s = 0), .insufficientData),
     (decide (2 ^ 32 ≤ usedWidth D s * usedHeight D s), .geometryError)]
  | .sizeEnc _ => [(!decide (GoodGeometry s.width.toNat s.height.toNat), .geometryError)]
  | .decode _ =>
    [(decide (s.srcLen = 0 ∨ s.dstLen = 0), .nullOrEmptyInput),
     (!decide (GoodGeometry s.width.toNat s.height.toNat), .geometryError),
     (decide (s.srcLen.toNat < need D s.width.toNat s.height.toNat), .insufficientData),
     (decide (s.dstLen.toNat < s.width.toNat * s.height.toNat), .insufficientOutputCapacity),
     (!decide (GoodRegions s (need D s.width.toNat s.height.toNat) (s.width.toNat * s.height.toNat)), .regionError)]
  | .decodeAuto _ =>
    [(decide (s.srcLen = 0 ∨ s.dstLen = 0), .nullOrEmptyInput), (decide (usedWidth D s % 8 ≠ 0), .geometryError),
     (decide (usedHeight D s = 0), .insufficientData),
     (decide (2 ^ 32 ≤ usedWidth D s * usedHeight D s), .geometryError),
     (decide (s.dstLen.toNat < usedWidth D s * usedHeight D s), .insufficientOutputCapacity),
     (!decide (GoodRegions s (need D (usedWidth D s) (usedHeight D s)) (usedWidth D s * usedHeight D s)), .regionError)]
  | .encode _ =>
    [(decide (s.srcLen = 0 ∨ s.dstLen = 0), .nullOrEmptyInput),
     (!decide (GoodGeometry s.width.toNat s.height.toNat), .geometryError),
     (decide (s.srcLen.toNat < s.width.toNat * s.height.toNat), .insufficientData),
     (decide (s.dstLen.toNat < need D s.width.toNat s.height.toNat), .insufficientOutputCapacity),
     (!decide (GoodRegions s (s.width.toNat * s.height.toNat) (need D s.width.toNat s.height.toNat)), .regionError)]

/-- The code of the first check that fails. -/
def firstFailing (checks : List (Bool × ErrCode)) : Option ErrCode := (checks.find? (·.1)).map (·.2)

/-- The argument registers a command reads hold the same values (R17). -/
def SameArguments (s s' : State) : Instr → Prop
  | .lookup _ => True
  | .sizeDec _ => s'.srcLen = s.srcLen ∧ s'.width = s.width
  | .sizeEnc _ => s'.width = s.width ∧ s'.height = s.height
  | .decode _ =>
    s'.srcBase = s.srcBase ∧ s'.srcLen = s.srcLen ∧ s'.dstBase = s.dstBase ∧ s'.dstLen = s.dstLen ∧ s'.width = s.width ∧
    s'.height = s.height
  | .decodeAuto _ =>
    s'.srcBase = s.srcBase ∧ s'.srcLen = s.srcLen ∧ s'.dstBase = s.dstBase ∧ s'.dstLen = s.dstLen ∧ s'.width = s.width
  | .encode _ =>
    s'.srcBase = s.srcBase ∧ s'.srcLen = s.srcLen ∧ s'.dstBase = s.dstBase ∧ s'.dstLen = s.dstLen ∧ s'.width = s.width ∧
    s'.height = s.height

/-- A host action that clears OVR: a write to STATUS with bit 3 = 1, or reset (R20). -/
def ClearsOvr (p : Params) (a : HostAction) : Prop :=
  a = .reset ∨ (∃ v : Word, v.getLsbD 3 = true ∧ a = .busWrite (p.engineBase + 0x04) .word v) ∨
  ∃ (st : Word) (addr : Nat) (width : AccessWidth) (v : Word), a = .statusAndWrite st addr width v ∧
    (st.getLsbD 3 = true ∨ (v.getLsbD 3 = true ∧ addr = p.engineBase + 0x04 ∧ width = .word))

end Sys2Proof.Claims

open Sys2Proof Sys2Proof.Machine Sys2Proof.Claims

/-! ## Encoding -/

/-- Words written out from the encoding table of R47 and R49 decode to the commands they stand for, one of each command, and two
illegal words of R50 do not decode. -/
def Obligations.WrittenOutWordsDecode : Prop :=
  decodeWord 0b00000000000000000000000000000001#32 = .ok (.lookup 0) ∧
  decodeWord 0b00000000000000000000000100000010#32 = .ok (.sizeDec 1) ∧
  decodeWord 0b00000000000000000000000000000011#32 = .ok (.sizeEnc 0) ∧
  decodeWord 0b00000000000000000000000100000100#32 = .ok (.decode 1) ∧
  decodeWord 0b00000000000000000000000000000101#32 = .ok (.decodeAuto 0) ∧
  decodeWord 0b00000000000000001111111100000110#32 = .ok (.encode 255) ∧
  decodeWord 0b00000000000000000000000000000000#32 = .error (.reservedOp 0) ∧
  decodeWord 0b00000000000000000000000000010001#32 = .error .reservedBits7to4

/-- Decoding the word of a well-formed command gives the command back, for every command and every FMT (R45, R47). -/
def Obligations.DecodeOfEncodeIsIdentity : Prop :=
  ∀ i : Instr, WellFormed i → decodeWord (encode i) = .ok i

/-- Every word that decodes is the word of the command it decodes to (R44, R45). -/
def Obligations.EncodeOfDecodeIsIdentity : Prop :=
  ∀ (w : Word) (i : Instr), decodeWord w = .ok i → WellFormed i ∧ encode i = w

/-- R49: the twelve words with a defined operation and a registered format, and no other. -/
def Obligations.TwelveWordsHaveRegisteredFormats : Prop :=
  ∀ (w : Word) (i : Instr), (decodeWord w = .ok i ∧ i.fmt < 2) ↔
    (w, i) ∈ [(0x00000001#32, Instr.lookup 0), (0x00000101#32, .lookup 1), (0x00000002#32, .sizeDec 0),
      (0x00000102#32, .sizeDec 1), (0x00000003#32, .sizeEnc 0), (0x00000103#32, .sizeEnc 1), (0x00000004#32, .decode 0),
      (0x00000104#32, .decode 1), (0x00000005#32, .decodeAuto 0), (0x00000105#32, .decodeAuto 1),
      (0x00000006#32, .encode 0), (0x00000106#32, .encode 1)]

/-- R50: exactly the words with a reserved OP or non-zero reserved bits are illegal; such a word is accepted, and its command ends
with IllegalCommand and changes STATUS alone, so RES_* and DESC_* stay 0. No command of another word ends with IllegalCommand. Word 0
is illegal. -/
def Obligations.IllegalWordsEndWithIllegalCommand : Prop :=
  (∀ w : Word, (∃ e, decodeWord w = .error e) ↔ IllegalWordBits w) ∧ IllegalWordBits 0 ∧
  (∀ (w : Word) (s : State), IllegalWordBits w → s.status.busy = false →
    (hostWrite 0x00 w s).cmd = w ∧ (hostWrite 0x00 w s).status.busy = true) ∧
  (∀ s : State, IllegalWordBits s.cmd → s.Accepted →
    runCommand s = .next { s with status := ended s .illegalCommand } ∧
    s.resWidth = 0 ∧ s.resHeight = 0 ∧ s.resBytes = 0 ∧ s.descW0 = 0 ∧ s.descW1 = 0 ∧ s.descW2 = 0) ∧
  (∀ s t : State, ¬ IllegalWordBits s.cmd → runCommand s = .next t → t.status.err ≠ .illegalCommand)

/-! ## Steps -/

/-- R102: the engine's step performs the whole command in CMD; a step is `exec` of the command that CMD decodes to, while BUSY, once
its latency is over or the host has no action left. Right after acceptance by `withFetchWord` it is the very next step. (How latency is
counted and `withFetchWord` are the model's choice, log entries 2 and 4.) -/
def Obligations.StepRunsTheDecodedCommand : Prop :=
  (∀ (s : State) (i : Instr), s.status.busy = true → (s.wait = 0 ∨ s.pending = []) → decodeWord s.cmd = .ok i →
    step s = exec i s) ∧
  (∀ (s : State) (i : Instr), WellFormed i →
    step (s.withFetchWord 32 (encode i).toNat) = exec i (s.withFetchWord 32 (encode i).toNat))

/-- R94 and R102: otherwise the host acts, its next action taken off the list of those to come and the latency counted down; it finds
RANGE as the running walk has written it by then (R79). With no action to come nothing changes. (The list, the count and the moment of that
write are the model's, log entries 1, 2 and 27.) -/
def Obligations.HostActsInEveryOtherStep : Prop :=
  (∀ (s : State) (a : HostAction) (rest : List HostAction), s.pending = a :: rest → (s.status.busy = false ∨ s.wait ≠ 0) →
    step s = .next (hostAct a (writeRange { s with pending := rest, wait := s.wait - 1 }))) ∧
  (∀ s : State, s.pending = [] → s.status.busy = false → step s = .next s)

/-- R87 and R88: no error or event stops the machine; every step, and every command in every state, has a next state. -/
def Obligations.NothingStopsTheMachine : Prop :=
  (∀ s : State, ∃ t, step s = .next t) ∧ (∀ (i : Instr) (s : State), ∃ t, exec i s = .next t)

/-- The invariant of the machine: STATUS in one of R19's combinations, RANGE 1 while BUSY only under an ENCODE that passed its checks (R78),
RES_* 0 unless a command has succeeded (R21), DESC_* the entry of CMD's format or 0 (R22), memory inside the 32-bit space (R14, R30). Every step
keeps it. Two parts are the model's choice: memory is in its canonical form (log entry 5), and while a command runs the recorded host writes lie in
its destination used extent (log entries 10 and 16). -/
def Obligations.StepKeepsTheInvariant : Prop :=
  ∀ s t : State, s.Inv → step s = .next t → t.Inv

/-- The invariant holds at reset. (The model's own fields at reset are its choice, log entry 16.) -/
def Obligations.ResetMeetsTheInvariant : Prop := State.reset.Inv

/-- R103 and R102: an accepted command ends; the machine is no longer BUSY after at most one step more than the host actions its
latency allows, and at most one more than the host actions there are. (Counting latency in host actions is the model's choice, log
entry 2.) -/
def Obligations.AcceptedCommandEnds : Prop :=
  ∀ s : State, s.status.busy = true → ∃ (k : Nat) (t : State), k ≤ s.wait + 1 ∧ k ≤ s.pending.length + 1 ∧
    Sys2Proof.core.run k s = .next t ∧ t.status.busy = false

/-! ## The descriptor ROM -/

/-- R25: no step, whatever the host does or the engine runs, and no command changes the ROM, and reset leaves it. -/
def Obligations.RomIsConstant : Prop :=
  (∀ (s t : State) (f : Nat), step s = .next t → rom t.params f = rom s.params f) ∧
  (∀ (i : Instr) (s t : State) (f : Nat), exec i s = .next t → rom t.params f = rom s.params f) ∧
  (∀ (s : State) (f : Nat), rom (hostAct .reset s).params f = rom s.params f)

/-- R54: the contents of the two entries, field by field and as words; the default widths are parameters. NES_1BPP has plane group 0
alone, so its gap is never multiplied by a non-zero group number. -/
def Obligations.RomContents : Prop :=
  ∀ p : Params,
    (∃ D, rom p 0x00 = some D ∧ D.defaultWidth = p.nesDefaultWidth ∧ D.tileW = 8 ∧ D.tileH = 8 ∧ D.bpp = 1 ∧ D.rowInc = 1 ∧
      D.groupGap = 0 ∧ (∀ q, q < D.bpp → q / D.rowInc = 0) ∧ D.palSize = 2 ∧ D.palBpe = 3 ∧ D.bytesPerTile = 8 ∧
      D.w0 = 0x08080000#32 ||| BitVec.ofNat 32 p.nesDefaultWidth ∧ D.w1 = 0x06020011#32 ∧ D.w2 = 0x00000008#32) ∧
    (∃ D, rom p 0x01 = some D ∧ D.defaultWidth = p.snesDefaultWidth ∧ D.tileW = 8 ∧ D.tileH = 8 ∧ D.bpp = 4 ∧ D.rowInc = 2 ∧
      D.groupGap = 16 ∧ D.palSize = 16 ∧ D.palBpe = 3 ∧ D.bytesPerTile = 32 ∧
      D.w0 = 0x08080000#32 ||| BitVec.ofNat 32 p.snesDefaultWidth ∧ D.w1 = 0x06101024#32 ∧ D.w2 = 0x00000020#32) ∧
    ∀ f, 2 ≤ f → rom p f = none

/-- R55: what every ROM entry satisfies, items 1 to 7. -/
def Obligations.RomEntriesAreSound : Prop :=
  ∀ (p : Params) (f : Nat) (D : Descriptor), rom p f = some D →
    D.tileW = 8 ∧ (1 ≤ D.bpp ∧ D.bpp ≤ 8) ∧ D.palSize = 2 ^ D.bpp ∧
    (1 ≤ D.rowInc ∧ (f = 0 → D.rowInc = 1) ∧ (f = 1 → D.rowInc = 2)) ∧ D.bytesPerTile = D.tileH * D.bpp ∧
    (D.bpp > D.rowInc → D.groupGap = D.tileH * D.rowInc ∧ D.bpp % D.rowInc = 0) ∧
    (D.defaultWidth ≠ 0 ∧ D.defaultWidth % D.tileW = 0)

/-- The layout of R53: each field of an entry stands in its own bits of its word, the rest is 0. -/
def Obligations.DescriptorWordLayout : Prop :=
  ∀ (p : Params) (f : Nat) (D : Descriptor), rom p f = some D →
    (D.w0.extractLsb' 0 16).toNat = D.defaultWidth ∧ (D.w0.extractLsb' 16 8).toNat = D.tileW ∧
    (D.w0.extractLsb' 24 8).toNat = D.tileH ∧ (D.w1.extractLsb' 0 4).toNat = D.bpp ∧
    (D.w1.extractLsb' 4 4).toNat = D.rowInc ∧ (D.w1.extractLsb' 8 8).toNat = D.groupGap ∧
    (D.w1.extractLsb' 16 9).toNat = D.palSize ∧ (D.w1.extractLsb' 25 4).toNat = D.palBpe ∧
    (D.w1.extractLsb' 29 3).toNat = 0 ∧ (D.w2.extractLsb' 0 16).toNat = D.bytesPerTile ∧
    (D.w2.extractLsb' 16 16).toNat = 0

/-! ## Registers and the bus -/

/-- R18: a write of any word to CMD while not BUSY is accepted in one update, OVR and everything it does not name unchanged; the word then
stays in CMD while BUSY, and the engine's step performs the command it encodes; while BUSY a write is dropped and OVR set; a read returns
CMD and has no side effect. When the engine's turn comes is the model's choice (log entry 2), and `wait`, `rangeWait`, `touched` and `draws` are
its own fields (log entry 16). -/
def Obligations.CommandAcceptance : Prop :=
  (∀ (s : State) (v : Word), s.status.busy = false →
    hostWrite 0x00 v s = { s with
      cmd := v, status := ⟨true, false, false, s.status.ovr, .ok⟩
      resWidth := 0, resHeight := 0, resBytes := 0, descW0 := 0, descW1 := 0, descW2 := 0
      wait := (hostWrite 0x00 v s).wait, rangeWait := (hostWrite 0x00 v s).rangeWait, touched := Touched.nothing, draws := (hostWrite 0x00 v s).draws }) ∧
  (∀ s t : State, s.status.busy = true → step s = .next t → t.status.busy = true → t.cmd = s.cmd) ∧
  (∀ s : State, engineTurn s = true → step s = runCommand s) ∧
  (∀ (s : State) (v : Word), s.status.busy = true →
    hostWrite 0x00 v s = { s with status := { s.status with ovr := true } }) ∧
  (∀ s : State, (hostRead 0x00 s).hostData = s.cmd ∧ OnlyHostData s (hostRead 0x00 s))

/-- R16: a write to an argument register while not BUSY stores all 32 bits there and leaves the other argument registers, CMD, STATUS, the results,
the descriptor words and memory; while BUSY it is dropped and OVR set; a read returns the register; no command writes one. -/
def Obligations.ArgumentRegistersHoldWhatTheHostWrites : Prop :=
  (∀ r ∈ argumentRegisters, ∀ (s : State) (v : Word), s.status.busy = false →
    r.2 (hostWrite r.1 v s) = v ∧ (∀ r' ∈ argumentRegisters, r'.1 ≠ r.1 → r'.2 (hostWrite r.1 v s) = r'.2 s) ∧
    (hostWrite r.1 v s).cmd = s.cmd ∧ (hostWrite r.1 v s).status = s.status ∧ (hostWrite r.1 v s).mem = s.mem ∧
    SameResults s (hostWrite r.1 v s) ∧ SameDescriptor s (hostWrite r.1 v s)) ∧
  (∀ r ∈ argumentRegisters, ∀ (s : State) (v : Word), s.status.busy = true →
    hostWrite r.1 v s = { s with status := { s.status with ovr := true } }) ∧
  (∀ r ∈ argumentRegisters, ∀ s : State, (hostRead r.1 s).hostData = r.2 s) ∧
  (∀ r ∈ argumentRegisters, ∀ s t : State, runCommand s = .next t → r.2 t = r.2 s)

/-- R20: dropped writes set OVR and change nothing else; OVR stays 1 until a STATUS write with bit 3 = 1 or reset; writes to STATUS, read-only
and reserved words never set it; a STATUS write in the same cycle as a dropped write leaves it at 1. The pair is one host action of the model (log entry 14), and what clears OVR is
the head of its list of host actions (log entry 1). -/
def Obligations.DroppedWritesSetOvr : Prop :=
  (∀ off ∈ [0x00, 0x08, 0x0C, 0x10, 0x14, 0x18, 0x1C], ∀ (s : State) (v : Word), s.status.busy = true →
    hostWrite off v s = { s with status := { s.status with ovr := true } } ∧
    ∀ st : Word, (hostAct (.statusAndWrite st (s.params.engineBase + off) .word v) s).status.ovr = true) ∧
  (∀ s t : State, step s = .next t → s.status.ovr = true → t.status.ovr = false →
    ∃ a rest, s.pending = a :: rest ∧ ClearsOvr s.params a) ∧
  (∀ off ∈ [0x04, 0x20, 0x24, 0x28, 0x2C, 0x30, 0x34, 0x38, 0x3C], ∀ (s : State) (v : Word),
    (hostWrite off v s).status.ovr = true → s.status.ovr = true)

/-- The STATUS word of R19, bit by bit; a host write to it, where bit 3 = 1 clears OVR and nothing else changes; a host read at any time. -/
def Obligations.StatusWordLayout : Prop :=
  (∀ st : Status, st.word.getLsbD 0 = st.busy ∧ st.word.getLsbD 1 = st.done ∧ st.word.getLsbD 2 = st.range ∧
    st.word.getLsbD 3 = st.ovr ∧ st.word.extractLsb' 4 4 = 0#4 ∧ st.word.extractLsb' 12 20 = 0#20 ∧
    (st.word.extractLsb' 8 4).toNat = st.err.code) ∧
  (∀ (s : State) (v : Word),
    hostWrite 0x04 v s = { s with status := { s.status with ovr := s.status.ovr && !v.getLsbD 3 } }) ∧
  (∀ s : State, (hostRead 0x04 s).hostData = s.status.word)

/-- STATUS read by the host while BUSY, in its own step. R79 writes RANGE during the walk, so the read may find RANGE = 1 where it was 0 before,
and then only where the running command is an ENCODE that passed its checks and meets a pixel out of range, or whose source the host wrote
(R39 item 3), or with a used extent outside ordinary RAM (R33). What is read is STATUS as it then stays; every other bit is as before, so BUSY
reads 1. At which host action the write shows is the model's choice (log entry 27). -/
def Obligations.StatusReadsWhileBusy : Prop :=
  ∀ (s t : State) (rest : List HostAction), s.status.busy = true → s.status.range = false → s.mem.wf → engineTurn s = false →
    s.pending = .busRead (s.params.engineBase + 0x04) .word :: rest → step s = .next t →
    t.hostData = t.status.word ∧
    (t.status = s.status ∨
      (t.status = { s.status with range := true } ∧
        ∃ (f : Nat) (D : Descriptor) (p : Plan), decodeWord s.cmd = .ok (.encode f) ∧ rom s.params f = some D ∧
          memoryPlan D s (.encode f) = some p ∧
          (s.touched.source = true ∨ p.ordinary s = false ∨ OutOfRangePixel D (s.width.toNat * s.height.toNat) s)))

/-- R18 and R78, over every step: a RANGE that is 1 stays 1 until the next acceptance or a reset, the one exception being a command that ends with
BusError, after which R78 leaves it unspecified; and only ENCODE sets it, one that passed its checks and, where it does not end with BusError,
meets a pixel out of range or reads what is unknown (R39 item 3, R33). So no host reads RANGE as 1 and then as 0 in one command that ends with OK.
(What heads the host's list is the model's, log entry 1.) -/
def Obligations.RangeStaysUntilAcceptance : Prop :=
  (∀ s t : State, step s = .next t → s.status.range = true →
    t.status.range = true ∨ (∃ rest, s.pending = .reset :: rest) ∨ (s.status.busy = false ∧ t.status.busy = true) ∨
    (s.status.busy = true ∧ t.status.err = .busError)) ∧
  (∀ s t : State, s.mem.wf → step s = .next t → s.status.range = false → t.status.range = true →
    s.status.busy = true ∧ ∃ (f : Nat) (D : Descriptor) (p : Plan), decodeWord s.cmd = .ok (.encode f) ∧ rom s.params f = some D ∧
      memoryPlan D s (.encode f) = some p ∧
      (t.status.err = .busError ∨ s.touched.source = true ∨ p.ordinary s = false ∨
        OutOfRangePixel D (s.width.toNat * s.height.toNat) s))

/-- The codes of R81. -/
def Obligations.ErrorCodes : Prop :=
  [ErrCode.ok, .unknownFormat, .nullOrEmptyInput, .insufficientData, .insufficientOutputCapacity, .allocationFailure,
    .illegalCommand, .geometryError, .regionError, .busError].map ErrCode.code = [0x0, 0x1, 0x2, 0x3, 0x4, 0x5, 0x6, 0x7, 0x8, 0x9]

/-- R28 and R15: a narrow or misaligned access does nothing on a write and returns 0 on a read; a read has no side effect; a write to a
read-only or reserved word does nothing. -/
def Obligations.AccessesWithoutEffect : Prop :=
  (∀ (s : State) (addr : Nat) (width : AccessWidth) (v : Word),
    s.params.engineBase ≤ addr → addr < s.params.engineBase + 64 →
    (width ≠ .word ∨ (addr - s.params.engineBase) % 4 ≠ 0) →
    hostAct (.busWrite addr width v) s = s ∧ (hostAct (.busRead addr width) s).hostData = 0) ∧
  (∀ (s : State) (addr : Nat) (width : AccessWidth),
    hostAct (.busRead addr width) s = s ∨ OnlyHostData s (hostAct (.busRead addr width) s)) ∧
  (∀ off ∈ [0x20, 0x24, 0x28, 0x2C, 0x30, 0x34, 0x38, 0x3C], ∀ (s : State) (v : Word), hostWrite off v s = s)

/-- R15, R21 and R22: while not BUSY a host read of a result or descriptor register returns it; a reserved word reads 0 at all times. -/
def Obligations.ReadsReturnResults : Prop :=
  (∀ r ∈ resultRegisters, ∀ s : State, s.status.busy = false → (hostRead r.1 s).hostData = r.2 s) ∧
  (∀ off ∈ [0x38, 0x3C], ∀ s : State, (hostRead off s).hostData = 0)

/-- The values of R95: at reset, and after a reset at any time, every register holds 0; while not BUSY a reset leaves memory as it was. -/
def Obligations.ResetValues : Prop :=
  AtReset State.reset ∧ (∀ s : State, AtReset (hostAct .reset s)) ∧
  (∀ s : State, s.status.busy = false → (hostAct .reset s).mem = s.mem)

/-- Reset while BUSY (R95, R97) aborts the command: the registers take their reset values and the engine has no step left to take; memory changes in
the aborted command's destination used extent at most, where each byte is a free value (in ordinary RAM, R33). Nothing but reset stops a running
command before its own step. That memory does not change where the command has no used extent is the model's reading (log entry 15). -/
def Obligations.ResetAbortsTheCommand : Prop :=
  (∀ (s : State) (p : Plan), s.status.busy = true → runningPlan s = some p →
    AtReset (hostAct .reset s) ∧ engineTurn (hostAct .reset s) = false ∧
    (p.ordinary s = true →
      (∀ a, ¬ p.inDst s a → Memory.read (hostAct .reset s).mem a = Memory.read s.mem a) ∧
      (s.mem.wf → ∀ a, p.inDst s a → Memory.read (hostAct .reset s).mem a = Config.spoiltByte s.draws a))) ∧
  (∀ s : State, s.status.busy = true → runningPlan s = none →
    AtReset (hostAct .reset s) ∧ engineTurn (hostAct .reset s) = false ∧ (hostAct .reset s).mem = s.mem) ∧
  (∀ s t : State, s.status.busy = true → engineTurn s = false → step s = .next t → t.status.busy = false →
    ∃ rest, s.pending = .reset :: rest)

/-! ## Commands: what each one does where its checks pass -/

/-- R60: LOOKUP with a registered format writes DESC_W0..W2, ends with ERR 0 and changes nothing else; with any other it ends with
UnknownFormat and writes STATUS alone. -/
def Obligations.LookupShowsTheDescriptor : Prop :=
  (∀ (s : State) (f : Nat) (D : Descriptor), rom s.params f = some D →
    exec (.lookup f) s = .next (endedWith s D .ok)) ∧
  (∀ (s : State) (f : Nat), 2 ≤ f → exec (.lookup f) s = .next { s with status := ended s .unknownFormat })

/-- LOOKUP is idempotent (R60): repeating it gives the same DESC words and the same code. -/
def Obligations.LookupIsIdempotent : Prop :=
  ∀ (s t u : State) (f : Nat) (w : Word), s.Accepted → exec (.lookup f) s = .next t → exec (.lookup f) (accept w t) = .next u →
    SameDescriptor t u ∧ u.status.err = t.status.err

/-- SIZE_DEC (R65) where its checks pass: RES_* hold the width, the height and the encoded byte count, at most SRC_LEN; no memory access,
nothing else changed. -/
def Obligations.SizeDecGivesTheGeometry : Prop :=
  ∀ (s : State) (f : Nat) (D : Descriptor), rom s.params f = some D → GoodGeometry (usedWidth D s) (usedHeight D s) →
    ∃ t, exec (.sizeDec f) s = .next t ∧
      Results t (usedWidth D s) (usedHeight D s) (need D (usedWidth D s) (usedHeight D s)) ∧
      need D (usedWidth D s) (usedHeight D s) ≤ s.srcLen.toNat ∧
      t = { endedWith s D .ok with resWidth := t.resWidth, resHeight := t.resHeight, resBytes := t.resBytes }

/-- SIZE_ENC (R66) where its check passes: RES_* hold the width, the height and the exact byte count; no memory access, nothing else
changed. -/
def Obligations.SizeEncGivesTheByteCount : Prop :=
  ∀ (s : State) (f : Nat) (D : Descriptor), rom s.params f = some D → GoodGeometry s.width.toNat s.height.toNat →
    ∃ t, exec (.sizeEnc f) s = .next t ∧
      Results t s.width.toNat s.height.toNat (need D s.width.toNat s.height.toNat) ∧
      8 * need D s.width.toNat s.height.toNat = s.width.toNat * s.height.toNat * D.bpp ∧
      t = { endedWith s D .ok with resWidth := t.resWidth, resHeight := t.resHeight, resBytes := t.resBytes }

/-- DECODE (R74) where its checks pass, in ordinary RAM and with a host that keeps R100: on a platform without bus errors it ends with the bitmap of
R72, RES_*, DESC_* and ERR 0, and everything else but the hidden state as it was; on any platform it does so where it ends with ERR 0. -/
def Obligations.DecodeWritesTheBitmap : Prop :=
  ∀ (s : State) (f : Nat) (D : Descriptor), rom s.params f = some D → DecodeReady D s → Undisturbed (.decode f) s →
    (s.params.busErrors = false → ∃ t, exec (.decode f) s = .next t ∧ DecodeDone D s.width.toNat s.height.toNat s t) ∧
    (∀ t, exec (.decode f) s = .next t → t.status.err = .ok → DecodeDone D s.width.toNat s.height.toNat s t)

/-- DECODE_AUTO (R75), the same with the width and height that SIZE_DEC gives. -/
def Obligations.DecodeAutoWritesTheBitmap : Prop :=
  ∀ (s : State) (f : Nat) (D : Descriptor), rom s.params f = some D → DecodeAutoReady D s → Undisturbed (.decodeAuto f) s →
    (s.params.busErrors = false → ∃ t, exec (.decodeAuto f) s = .next t ∧ DecodeDone D (usedWidth D s) (usedHeight D s) s t) ∧
    (∀ t, exec (.decodeAuto f) s = .next t → t.status.err = .ok → DecodeDone D (usedWidth D s) (usedHeight D s) s t)

/-- ENCODE (R79) where its checks pass, in ordinary RAM and with a host that keeps R100: on a platform without bus errors it ends with the stream of
R77, RANGE as R78 says, RES_*, DESC_* and ERR 0, and everything else but the hidden state as it was; on any platform it does so where it ends with
ERR 0. -/
def Obligations.EncodeWritesTheStream : Prop :=
  ∀ (s : State) (f : Nat) (D : Descriptor), rom s.params f = some D → EncodeReady D s → Undisturbed (.encode f) s →
    (s.params.busErrors = false → ∃ t, exec (.encode f) s = .next t ∧ EncodeDone D s.width.toNat s.height.toNat s t) ∧
    (∀ t, exec (.encode f) s = .next t → t.status.err = .ok → EncodeDone D s.width.toNat s.height.toNat s t)

/-! ## Commands: errors -/

/-- R85: the first failing check gives the code, and its command writes only STATUS, and DESC_* once the format is known; IllegalCommand comes
first, UnknownFormat second; where all checks pass the command ends with OK, or, only on a platform with bus errors and only for the
commands that access memory, with BusError. -/
def Obligations.ErrorsComeInOrder : Prop :=
  (∀ s : State, IllegalWordBits s.cmd → runCommand s = .next { s with status := ended s .illegalCommand }) ∧
  (∀ (i : Instr) (s : State), rom s.params i.fmt = none → exec i s = .next { s with status := ended s .unknownFormat }) ∧
  (∀ (i : Instr) (s : State) (D : Descriptor), rom s.params i.fmt = some D →
    (∀ e, firstFailing (checksInOrder D s i) = some e → exec i s = .next (endedWith s D e)) ∧
    (firstFailing (checksInOrder D s i) = none → ∃ t, exec i s = .next t ∧ (t.status.err = .ok ∨
      (t.status.err = .busError ∧ s.params.busErrors = true ∧ accessesMemory i = true))))

/-- R40: a command that ends with any error other than BusError leaves every memory byte unchanged. -/
def Obligations.DetectedErrorsLeaveMemory : Prop :=
  (∀ (i : Instr) (s t : State), exec i s = .next t → t.status.err ≠ .ok → t.status.err ≠ .busError → t.mem = s.mem) ∧
  (∀ s t : State, runCommand s = .next t → t.status.err ≠ .ok → t.status.err ≠ .busError → t.mem = s.mem)

/-- R86: an error other than BusError depends on CMD, the argument registers and the ROM only: in any two accepted states that agree
on these it is the same, with RES_* 0, the same DESC_* and memory untouched both times. -/
def Obligations.ErrorsAreRepeatable : Prop :=
  ∀ s s' t : State, s.Accepted → s'.Accepted → (∀ f, rom s'.params f = rom s.params f) → s'.cmd = s.cmd →
    (∀ r ∈ argumentRegisters, r.2 s' = r.2 s) → runCommand s = .next t → t.status.err ≠ .ok → t.status.err ≠ .busError →
    ∃ t', runCommand s' = .next t' ∧ t'.status.err = t.status.err ∧ Results t 0 0 0 ∧ Results t' 0 0 0 ∧ SameDescriptor t t' ∧
      t.mem = s.mem ∧ t'.mem = s'.mem

/-- R84: a memory command whose checks pass ends with OK and its geometry in RES_*, or, only where the platform has bus errors, with BusError and RES_*
as they were; in ordinary RAM (R33) memory outside the destination used extent reads as before both ways. (One draw for each command is the
model's choice, log entry 7.) -/
def Obligations.BusErrorSpoilsOnlyTheDestination : Prop :=
  ∀ (i : Instr) (s : State) (D : Descriptor) (p : Plan), rom s.params i.fmt = some D → memoryPlan D s i = some p → s.mem.wf →
    ∃ t, exec i s = .next t ∧ ShowsDescriptor D t ∧
      (p.ordinary s = true → ∀ a, ¬ p.inDst s a → Memory.read t.mem a = Memory.read s.mem a) ∧
      ((t.status.err = .ok ∧ Results t p.width p.height p.need) ∨
        (t.status.err = .busError ∧ s.params.busErrors = true ∧ SameResults s t))

/-! ## Commands: what they leave alone -/

/-- R82 and R83: every command ends with BUSY 0 and DONE 1 in the same step; it leaves the parameters, CMD, the argument registers, OVR, the list of
host actions and what the host last read as they were, and the model's own `wait`, `rangeWait` and `touched` (log entry 16); with an error RES_* stay as
acceptance left them; a command without memory access leaves memory and the hidden state too. -/
def Obligations.EveryCommandEndsAndKeepsItsOperands : Prop :=
  ∀ (i : Instr) (s : State), ∃ t, exec i s = .next t ∧ t.status.busy = false ∧ t.status.done = true ∧ KeptByCommands s t ∧
    (t.status.err ≠ .ok → SameResults s t) ∧
    (accessesMemory i = false → t.mem = s.mem ∧ t.hidden = s.hidden ∧ t.draws = s.draws)

/-- R33: in ordinary RAM no byte outside the destination used extent changes, whatever the outcome of the command and whatever the host did
meanwhile. -/
def Obligations.CommandsWriteOnlyTheirDestination : Prop :=
  ∀ (i : Instr) (s t : State) (D : Descriptor) (p : Plan) (a : Nat), s.mem.wf → rom s.params i.fmt = some D →
    memoryPlan D s i = some p → p.ordinary s = true → exec i s = .next t → ¬ p.inDst s a → Memory.read t.mem a = Memory.read s.mem a

/-- R78: acceptance clears RANGE; no command but ENCODE writes it; an ENCODE that ends with an error other than BusError leaves it; one that ends
with OK, in ordinary RAM and with the source buffer left alone, sets it exactly when some pixel is 2^BPP or more. -/
def Obligations.RangeMarksTruncatedPixels : Prop :=
  (∀ (s : State) (w : Word), (accept w s).status.range = false) ∧
  (∀ (i : Instr) (s t : State), isEncode i = false → exec i s = .next t → t.status.range = s.status.range) ∧
  (∀ (f : Nat) (s t : State), exec (.encode f) s = .next t → t.status.err ≠ .ok → t.status.err ≠ .busError →
    t.status.range = s.status.range) ∧
  (∀ (f : Nat) (s t : State) (D : Descriptor), s.Accepted → s.mem.wf → rom s.params f = some D →
    InOrdinaryMemory (.encode f) s → exec (.encode f) s = .next t → t.status.err = .ok → (t.status.range = true ↔ OutOfRangePixel D (s.width.toNat * s.height.toNat) s))

/-- R17: a command reads no argument register that the table does not mark. In accepted states that agree on the marked ones, on a platform without
bus errors, the code and the result and descriptor registers come out the same, and memory too where it was the same and is ordinary RAM. -/
def Obligations.CommandsReadOnlyTheirArguments : Prop :=
  ∀ (i : Instr) (s s' t t' : State), s.Accepted → s'.Accepted → s'.params = s.params → s.params.busErrors = false →
    SameArguments s s' i → exec i s = .next t → exec i s' = .next t' →
    t'.status.err = t.status.err ∧ SameResults t t' ∧ SameDescriptor t t' ∧
    (InOrdinaryMemory i s → s'.mem = s.mem → t'.mem = t.mem)

/-- R26: the plane scratch buffer and the walk counters are never read before they are written: what they hold when a command starts changes
nothing the command leaves, they themselves apart (log entry 12). -/
def Obligations.HiddenStateIsNeverRead : Prop :=
  ∀ (i : Instr) (s t : State) (h : Hidden), exec i s = .next t →
    ∃ t', exec i { s with hidden := h } = .next t' ∧ t = { t' with hidden := t.hidden }

/-! ## Geometry, addresses, regions -/

/-- The closed form of R64: where the derived height is not 0, the helper of R63 gives `8 * (n / (W * BPP))`, the encoded byte count is the largest
multiple of `W * BPP` not above `n`, and less than `W * BPP` bytes are left over; where it is 0 the helper raises InsufficientData. -/
def Obligations.DerivedHeightClosedForm : Prop :=
  ∀ (p : Params) (f n W : Nat) (D : Descriptor), rom p f = some D → 0 < W → W % 8 = 0 →
    (n / (W * D.bpp) ≠ 0 → deriveHeight D n W = .ok (8 * (n / (W * D.bpp)))) ∧
    (n / (W * D.bpp) = 0 → deriveHeight D n W = .error .insufficientData) ∧
    need D W (8 * (n / (W * D.bpp))) = W * D.bpp * (n / (W * D.bpp)) ∧
    need D W (8 * (n / (W * D.bpp))) ≤ n ∧ n - need D W (8 * (n / (W * D.bpp))) < W * D.bpp

/-- R61: the width selection, and that the default always passes. -/
def Obligations.WidthSelection : Prop :=
  ∀ (s : State) (f : Nat) (D : Descriptor), rom s.params f = some D →
    (s.width ≠ 0 → s.width.toNat % D.tileW = 0 → selectWidth D s = .ok s.width.toNat) ∧
    (s.width ≠ 0 → s.width.toNat % D.tileW ≠ 0 → selectWidth D s = .error .geometryError) ∧
    (s.width = 0 → selectWidth D s = .ok D.defaultWidth)

/-- R62: the geometry check fails exactly on the listed conditions; after it passes the byte count is exact and below 2^32. -/
def Obligations.GeometryCheck : Prop :=
  ∀ (p : Params) (f W H : Nat) (D : Descriptor), rom p f = some D →
    ((W = 0 ∨ H = 0 ∨ W % D.tileW ≠ 0 ∨ H % D.tileH ≠ 0 ∨ 2 ^ 32 ≤ W * H) → geometryCheck D W H = .error .geometryError) ∧
    (¬ (W = 0 ∨ H = 0 ∨ W % D.tileW ≠ 0 ∨ H % D.tileH ≠ 0 ∨ 2 ^ 32 ≤ W * H) → geometryCheck D W H = .ok () ∧
      8 * need D W H = W * H * D.bpp ∧ need D W H < 2 ^ 32)

/-- R67: the size commands agree: SIZE_ENC of what SIZE_DEC gives succeeds with a byte count at most `n` and short of it by less than one tile row;
SIZE_DEC of what SIZE_ENC gives, with the same WIDTH, gives the same geometry back. -/
def Obligations.SizeCommandsAgree : Prop :=
  (∀ (s t : State) (f : Nat) (D : Descriptor), rom s.params f = some D → exec (.sizeDec f) s = .next t → t.status.err = .ok →
    ∃ u, exec (.sizeEnc f) { s with width := t.resWidth, height := t.resHeight } = .next u ∧ u.status.err = .ok ∧
      u.resBytes.toNat = t.resWidth.toNat * D.bpp * (s.srcLen.toNat / (t.resWidth.toNat * D.bpp)) ∧
      u.resBytes.toNat ≤ s.srcLen.toNat ∧ s.srcLen.toNat - u.resBytes.toNat < t.resWidth.toNat * D.bpp) ∧
  (∀ (s t : State) (f : Nat) (D : Descriptor), rom s.params f = some D → exec (.sizeEnc f) s = .next t → t.status.err = .ok →
    ∃ u, exec (.sizeDec f) { s with srcLen := t.resBytes } = .next u ∧ u.status.err = .ok ∧
      u.resWidth = s.width ∧ u.resHeight = s.height)

/-- R69: the plane-byte offset, and its values for the two formats. -/
def Obligations.PlaneByteOffsets : Prop :=
  (∀ (D : Descriptor) (t r p : Nat), planeOff D t r p =
    t * D.bytesPerTile + r * D.rowInc + p / D.rowInc * D.groupGap + p % D.rowInc) ∧
  (∀ (q : Params) (D : Descriptor) (t r : Nat), rom q 0 = some D → planeOff D t r 0 = 8 * t + r) ∧
  (∀ (q : Params) (D : Descriptor) (t r : Nat), rom q 1 = some D →
    planeOff D t r 0 = 32 * t + 2 * r ∧ planeOff D t r 1 = 32 * t + 2 * r + 1 ∧
    planeOff D t r 2 = 32 * t + 2 * r + 16 ∧ planeOff D t r 3 = 32 * t + 2 * r + 17)

/-- The bijection of R70: in a tile-aligned image each byte of the stream is one plane byte of one tile row of one tile, and each of these is a byte
of the stream. -/
def Obligations.PlaneBytesTileTheStream : Prop :=
  ∀ (q : Params) (f W H : Nat) (D : Descriptor), rom q f = some D → W % 8 = 0 → H % 8 = 0 →
    (∀ ty tx r p, ty < H / 8 → tx < W / 8 → r < 8 → p < D.bpp → planeOff D (ty * (W / 8) + tx) r p < need D W H) ∧
    (∀ o, o < need D W H → ∃ ty tx r p, (ty < H / 8 ∧ tx < W / 8 ∧ r < 8 ∧ p < D.bpp ∧
      planeOff D (ty * (W / 8) + tx) r p = o) ∧
      ∀ ty' tx' r' p', ty' < H / 8 → tx' < W / 8 → r' < 8 → p' < D.bpp → planeOff D (ty' * (W / 8) + tx') r' p' = o →
        ty' = ty ∧ tx' = tx ∧ r' = r ∧ p' = p)

/-- R59: the region check raises RegionError exactly when a declared buffer wraps or the used extents overlap; the used extents of a command that passed its
checks are not empty, lie in its buffers, are apart, and every address in them is below 2^32. -/
def Obligations.RegionsAreCheckedAndInSpace : Prop :=
  (∀ (s : State) (su du : Nat),
    (GoodRegions s su du → checkRegions s su du = .ok ()) ∧ (¬ GoodRegions s su du → checkRegions s su du = .error .regionError)) ∧
  (∀ (i : Instr) (s : State) (D : Descriptor) (p : Plan), rom s.params i.fmt = some D → memoryPlan D s i = some p →
    1 ≤ p.srcUsed ∧ 1 ≤ p.dstUsed ∧ p.srcUsed ≤ s.srcLen.toNat ∧ p.dstUsed ≤ s.dstLen.toNat ∧
    ∀ a, (p.inSrc s a → a < 2 ^ 32 ∧ ¬ p.inDst s a) ∧ (p.inDst s a → a < 2 ^ 32))

/-! ## Inverse properties -/

/-- R76, its first sentence: every pixel byte a successful DECODE or DECODE_AUTO writes is below 2^BPP = PAL_SIZE. -/
def Obligations.DecodedPixelsAreInThePalette : Prop :=
  (∀ (s t : State) (f : Nat) (D : Descriptor), rom s.params f = some D → DecodeReady D s → Undisturbed (.decode f) s →
    exec (.decode f) s = .next t → t.status.err = .ok → ∀ o, o < s.width.toNat * s.height.toNat →
      (Memory.read t.mem (s.dstBase.toNat + o)).toNat < D.palSize) ∧
  (∀ (s t : State) (f : Nat) (D : Descriptor), rom s.params f = some D → DecodeAutoReady D s → Undisturbed (.decodeAuto f) s →
    exec (.decodeAuto f) s = .next t → t.status.err = .ok → ∀ o, o < usedWidth D s * usedHeight D s →
      (Memory.read t.mem (s.dstBase.toNat + o)).toNat < D.palSize)

/-- R80, bitmap first: a successful ENCODE and then a successful DECODE of its output, with the same format and geometry, gives every pixel modulo 2^BPP; so the bitmap itself where
every pixel is below PAL_SIZE, and then RANGE stays 0. -/
def Obligations.DecodeInvertsEncode : Prop :=
  ∀ (s t s' u : State) (f : Nat) (D : Descriptor), rom s.params f = some D → Undisturbed (.encode f) s → EncodeReady D s →
    s.status.range = false → exec (.encode f) s = .next t → t.status.err = .ok →
    s'.params = s.params → s'.mem = t.mem → s'.srcBase = s.dstBase → s'.width = s.width → s'.height = s.height →
    Undisturbed (.decode f) s' → DecodeReady D s' → exec (.decode f) s' = .next u → u.status.err = .ok →
    (∀ o, o < s.width.toNat * s.height.toNat → (Memory.read u.mem (s'.dstBase.toNat + o)).toNat =
      (Memory.read s.mem (s.srcBase.toNat + o)).toNat % 2 ^ D.bpp) ∧
    ((∀ o, o < s.width.toNat * s.height.toNat → (Memory.read s.mem (s.srcBase.toNat + o)).toNat < D.palSize) →
      t.status.range = false ∧ ∀ o, o < s.width.toNat * s.height.toNat →
        Memory.read u.mem (s'.dstBase.toNat + o) = Memory.read s.mem (s.srcBase.toNat + o))

/-- R80, stream first: a successful DECODE and then a successful ENCODE of its output, with the same format and geometry, gives every byte of the stream back, and RANGE
stays 0. -/
def Obligations.EncodeInvertsDecode : Prop :=
  ∀ (s t s' u : State) (f : Nat) (D : Descriptor), rom s.params f = some D → Undisturbed (.decode f) s → DecodeReady D s →
    exec (.decode f) s = .next t → t.status.err = .ok →
    s'.params = s.params → s'.mem = t.mem → s'.srcBase = s.dstBase → s'.width = s.width → s'.height = s.height →
    s'.status.range = false → Undisturbed (.encode f) s' → EncodeReady D s' → exec (.encode f) s' = .next u →
    u.status.err = .ok →
    u.status.range = false ∧ ∀ o, o < need D s.width.toNat s.height.toNat →
      Memory.read u.mem (s'.dstBase.toNat + o) = Memory.read s.mem (s.srcBase.toNat + o)

/-! ## The host during a command -/

/-- R102: treating the command as one step is exact for a host that keeps R100: an action of such a host before the engine's step, and with it what the walk
has by then done to RANGE, changes neither the code nor the results, descriptor and RANGE that the command leaves, nor any byte of its destination
used extent (on a platform without bus errors, in ordinary RAM). The list of host actions and the moment of that write are the model's (log entries
1 and 27). -/
def Obligations.QuietHostDoesNotDisturb : Prop :=
  ∀ (s t t' : State) (a : HostAction), s.status.busy = true → s.params.busErrors = false → s.mem.wf → s.touched = Touched.nothing →
    (∀ p, runningPlan s = some p → p.ordinary s = true) → a.quiet s → runCommand s = .next t →
    runCommand (hostAct a (writeRange s)) = .next t' →
    (hostAct a (writeRange s)).touched = Touched.nothing ∧ t'.status.err = t.status.err ∧ t'.status.range = t.status.range ∧
    SameResults t t' ∧ SameDescriptor t t' ∧
    ∀ p, runningPlan s = some p → ∀ b, p.inDst s b → Memory.read t'.mem b = Memory.read t.mem b

/-- R39 item 3, in ordinary RAM: where the host has written bytes of the destination used extent alone, each byte of memory ends with the engine's value, the one it has
where the host wrote nothing, or, if the host wrote it, with the host's (log entry 10). -/
def Obligations.HostWriteRacesWithTheEngine : Prop :=
  ∀ (i : Instr) (s t t' : State), s.params.busErrors = false → s.mem.wf → s.touched.source = false → InOrdinaryMemory i s →
    exec i s = .next t → exec i { s with touched := Touched.nothing } = .next t' →
    ∀ b, Memory.read t.mem b = Memory.read t'.mem b ∨
      (b ∈ s.touched.dest ∧ Memory.read t.mem b = Memory.read s.mem b)

/-- A host store to ordinary RAM writes its byte and no other and no register, so it cannot change an accepted command (R42); while a command runs, it
is recorded when it hits a used extent, and only then (R39 item 3); while the engine is idle, or runs a command without used extents, nothing is
recorded. The record is the model's own field (log entry 16). -/
def Obligations.HostStoresAreRecorded : Prop :=
  (∀ (s : State) (a : Word) (v : Byte), s.params.ordinary a.toNat 1 = true → s.mem.wf →
    hostAct (.memWrite a v) s = { s with mem := (hostAct (.memWrite a v) s).mem, touched := (hostAct (.memWrite a v) s).touched } ∧
    ∀ b, Memory.read (hostAct (.memWrite a v) s).mem b = if b = a.toNat then v else Memory.read s.mem b) ∧
  (∀ (s : State) (a : Word) (v : Byte) (p : Plan), s.params.ordinary a.toNat 1 = true → s.status.busy = true → runningPlan s = some p →
    ((hostAct (.memWrite a v) s).touched.source = true ↔ s.touched.source = true ∨ p.inSrc s a.toNat) ∧
    ∀ b, (b ∈ (hostAct (.memWrite a v) s).touched.dest ↔ b ∈ s.touched.dest ∨ (b = a.toNat ∧ p.inDst s b))) ∧
  (∀ (s : State) (a : Word) (v : Byte), s.status.busy = false ∨ runningPlan s = none → (hostAct (.memWrite a v) s).touched = s.touched)

/-- R34: a host load from ordinary RAM returns the byte of memory; while BUSY it returns the byte before or after the engine's step, one or the other
(log entry 11). It changes nothing but what the host has read. -/
def Obligations.HostLoadsSeeOldOrNewBytes : Prop :=
  (∀ (s : State) (a : Word), s.params.ordinary a.toNat 1 = true → OnlyHostData s (hostAct (.memRead a) s)) ∧
  (∀ (s : State) (a : Word), s.params.ordinary a.toNat 1 = true → s.status.busy = false →
    (hostAct (.memRead a) s).hostData = (Memory.read s.mem a.toNat).setWidth 32) ∧
  (∀ (s t : State) (a : Word), s.params.ordinary a.toNat 1 = true → s.status.busy = true → runCommand s = .next t →
    (hostAct (.memRead a) s).hostData = (Memory.read s.mem a.toNat).setWidth 32 ∨
    (hostAct (.memRead a) s).hostData = (Memory.read t.mem a.toNat).setWidth 32)

/-- Outside ordinary RAM a host load or store may change memory in any way, with its record, but no register of the engine; memory stays canonical
and inside the 32-bit space. R33 allows any side effect of such an access. That it may store any bytes, and that a side effect on a register of the
engine is an action of the host's list and not part of this one, is the model's choice (log entries 6 and 1), and so is the canonical form
(log entry 5). -/
def Obligations.AccessesOutsideRamLeaveTheRegisters : Prop :=
  ∀ (s : State) (a : Word) (v : Byte), s.params.ordinary a.toNat 1 = false → s.MemLegal →
    (∃ m tc, hostAct (.memWrite a v) s = { s with mem := m, touched := tc, draws := s.draws + 1 } ∧ m.wf ∧ m.inSpace) ∧
    (∃ m tc d, hostAct (.memRead a) s = { s with mem := m, touched := tc, hostData := d, draws := s.draws + 1 } ∧ m.wf ∧ m.inSpace)
end

