-- ==== Sys2Proof/Laws/Loops.lean ====
section
/-! SUPPORT. The one loop of the model: three ways to use it. -/

namespace Sys2Proof.Machine

/-- An invariant that counts the rounds. -/
theorem forUpTo_counts {σ : Type} {f : Nat → σ → σ} (P : Nat → σ → Prop) :
    ∀ (n : Nat) {s : σ}, P 0 s → (∀ i, i < n → ∀ t, P i t → P (i + 1) (f i t)) → P n (forUpTo n f s)
  | 0, _, h0, _ => h0
  | n + 1, _, h0, hs =>
    hs n (Nat.lt_succ_self n) _ (forUpTo_counts P n h0 fun i hi t ht => hs i (Nat.lt_succ_of_lt hi) t ht)

/-- An invariant that every round keeps. -/
theorem forUpTo_keeps {σ : Type} {f : Nat → σ → σ} (P : σ → Prop) (n : Nat) {s : σ} (h0 : P s)
    (hs : ∀ i, i < n → ∀ t, P t → P (f i t)) : P (forUpTo n f s) :=
  forUpTo_counts (fun _ => P) n h0 hs

/-- Round `k` establishes `Q`, and every round keeps it, under an invariant `P`. -/
theorem forUpTo_reaches {σ : Type} {f : Nat → σ → σ} (P Q : σ → Prop) (n : Nat) {s : σ} (h0 : P s)
    (hP : ∀ i, i < n → ∀ t, P t → P (f i t)) {k : Nat} (hk : k < n)
    (hQ : ∀ t, P t → Q (f k t)) (keep : ∀ i, i < n → ∀ t, P t → Q t → Q (f i t)) : Q (forUpTo n f s) := by
  have main : P (forUpTo n f s) ∧ (k < n → Q (forUpTo n f s)) := by
    refine forUpTo_counts (fun i t => P t ∧ (k < i → Q t)) n ⟨h0, fun h => absurd h (Nat.not_lt_zero _)⟩ ?_
    rintro i hi t ⟨hPt, hQt⟩
    refine ⟨hP i hi t hPt, fun hki => ?_⟩
    rcases Nat.lt_succ_iff_lt_or_eq.mp hki with h | h
    · exact keep i hi t hPt (hQt h)
    · exact h ▸ hQ t hPt
  exact main.2 hk

end Sys2Proof.Machine
end

