-- ==== Sys2Proof/Laws/Memory.lean ====
section
/-! SUPPORT. Reads after writes, and the canonical form of memory. -/

namespace Sys2Proof.Machine

@[simp] theorem Memory.read_nil (a : Nat) : Memory.read [] a = Config.unwrittenByte := rfl

/-- An address below every listed one is unlisted. -/
theorem Memory.read_of_lt_all {m : Memory} {a : Nat} (h : ∀ c ∈ m, a < c.1) :
    Memory.read m a = Config.unwrittenByte := by
  induction m with
  | nil => rfl
  | cons c m ih =>
    have hc : ¬ c.1 = a := fun e => Nat.lt_irrefl a (e ▸ h c (by simp))
    simp only [Memory.read, hc, if_false]
    exact ih fun d hd => h d (by simp [hd])

/-- A write leaves every other byte alone, in any memory. -/
@[simp] theorem Memory.read_write_ne {m : Memory} {a b : Nat} {v : Byte} (h : b ≠ a) :
    Memory.read (Memory.write m a v) b = Memory.read m b := by
  induction m with
  | nil =>
    unfold Memory.write
    split <;> simp [Memory.read, Ne.symm h]
  | cons c m ih =>
    obtain ⟨k, u⟩ := c
    unfold Memory.write
    split_ifs with h1 h2 h3 h4
    · rfl
    · simp [Memory.read, Ne.symm h]
    · simp [Memory.read, ← h3, Ne.symm h]
    · simp [Memory.read, ← h3, Ne.symm h]
    · by_cases hk : k = b
      · simp [Memory.read, hk]
      · simp only [Memory.read, hk, if_false]; exact ih

/-- A byte written reads back, in canonical memory. -/
theorem Memory.read_write_eq {m : Memory} (a : Nat) (v : Byte) (hm : m.wf) :
    Memory.read (Memory.write m a v) a = v := by
  induction m with
  | nil =>
    unfold Memory.write
    split
    · simp_all [Memory.read]
    · simp [Memory.read]
  | cons c m ih =>
    obtain ⟨k, u⟩ := c
    obtain ⟨hp, hv⟩ := hm
    rw [List.pairwise_cons] at hp
    unfold Memory.write
    split_ifs with h1 h2 h3 h4
    · subst h2
      refine Memory.read_of_lt_all fun d hd => ?_
      rcases List.mem_cons.mp hd with rfl | hd
      · exact h1
      · exact Nat.lt_trans h1 (hp.1 d hd)
    · simp [Memory.read]
    · subst h4; subst h3
      exact Memory.read_of_lt_all fun d hd => hp.1 d hd
    · simp [Memory.read]
    · have hka : ¬ k = a := fun e => h3 e.symm
      simp only [Memory.read, hka, if_false]
      exact ih ⟨hp.2, fun d hd => hv d (by simp [hd])⟩

theorem Memory.read_write {m : Memory} (a b : Nat) (v : Byte) (hm : m.wf) :
    Memory.read (Memory.write m a v) b = if b = a then v else Memory.read m b := by
  split
  · subst b; exact Memory.read_write_eq a v hm
  · exact Memory.read_write_ne ‹_›

/-- What a write can leave listed. -/
theorem Memory.mem_of_mem_write {m : Memory} {a : Nat} {v : Byte} {c : Host.Cell} (h : c ∈ Memory.write m a v) :
    c ∈ m ∨ (c = (a, v) ∧ v ≠ Config.unwrittenByte) := by
  induction m with
  | nil =>
    unfold Memory.write at h
    split at h <;> simp_all
  | cons d m ih =>
    obtain ⟨k, u⟩ := d
    unfold Memory.write at h
    split_ifs at h with h1 h2 h3 h4
    · exact .inl h
    · rcases List.mem_cons.mp h with h | h
      · exact .inr ⟨h, h2⟩
      · exact .inl h
    · exact .inl (by simp [h])
    · rcases List.mem_cons.mp h with h | h
      · exact .inr ⟨h, h4⟩
      · exact .inl (by simp [h])
    · rcases List.mem_cons.mp h with h | h
      · exact .inl (by simp [h])
      · rcases ih h with h | h
        · exact .inl (by simp [h])
        · exact .inr h

/-- A write keeps the canonical form. -/
theorem Memory.write_wf {m : Memory} (a : Nat) (v : Byte) (hm : m.wf) : (Memory.write m a v).wf := by
  refine ⟨?_, fun c hc => ?_⟩
  · induction m with
    | nil => unfold Memory.write; split <;> simp
    | cons d m ih =>
      obtain ⟨k, u⟩ := d
      have hm' := hm
      obtain ⟨hp, hv⟩ := hm
      rw [List.pairwise_cons] at hp
      unfold Memory.write
      split_ifs with h1 h2 h3 h4
      · exact hm'.1
      · refine List.pairwise_cons.mpr ⟨fun c hc => ?_, hm'.1⟩
        rcases List.mem_cons.mp hc with rfl | hc
        · exact h1
        · exact Nat.lt_trans h1 (hp.1 c hc)
      · exact hp.2
      · exact List.pairwise_cons.mpr ⟨fun c hc => h3 ▸ hp.1 c hc, hp.2⟩
      · refine List.pairwise_cons.mpr ⟨fun c hc => ?_, ih ⟨hp.2, fun d hd => hv d (by simp [hd])⟩⟩
        rcases Memory.mem_of_mem_write hc with hc | ⟨rfl, -⟩
        · exact hp.1 c hc
        · show k < a
          omega
  · rcases Memory.mem_of_mem_write hc with hc | ⟨rfl, h⟩
    · exact hm.2 c hc
    · exact h

/-- A write to an address of the memory space keeps memory in it. -/
theorem Memory.write_inSpace {m : Memory} {a : Nat} (v : Byte) (hm : m.inSpace) (ha : a < 2 ^ 32) :
    (Memory.write m a v).inSpace := fun c hc => by
  rcases Memory.mem_of_mem_write hc with hc | ⟨rfl, -⟩
  · exact hm c hc
  · exact ha

/-! ## Unspecified bytes -/

theorem Memory.read_spoil_outside {k base len a : Nat} {m : Memory} (h : ¬ (base ≤ a ∧ a < base + len)) :
    Memory.read (Memory.spoil k base len m) a = Memory.read m a :=
  forUpTo_keeps (fun t => Memory.read t a = Memory.read m a) len rfl fun i hi t ht => by
    rw [Memory.read_write_ne (by omega), ht]

theorem Memory.spoil_wf {k base len : Nat} {m : Memory} (hm : m.wf) : (Memory.spoil k base len m).wf :=
  forUpTo_keeps Memory.wf len hm fun _ _ _ ht => Memory.write_wf _ _ ht

theorem Memory.spoil_inSpace {k base len : Nat} {m : Memory} (hm : m.inSpace) (h : base + len ≤ 2 ^ 32) :
    (Memory.spoil k base len m).inSpace :=
  forUpTo_keeps Memory.inSpace len hm fun i hi t ht => Memory.write_inSpace _ ht (by omega)

theorem Memory.sideEffects_wf {k : Nat} {m : Memory} (hm : m.wf) : (Memory.sideEffects k m).wf := by
  unfold Memory.sideEffects
  generalize Config.sideEffects k = l
  induction l generalizing m with
  | nil => exact hm
  | cons c l ih => exact ih (Memory.write_wf _ _ hm)

theorem Memory.sideEffects_inSpace {k : Nat} {m : Memory} (hm : m.inSpace) : (Memory.sideEffects k m).inSpace := by
  unfold Memory.sideEffects
  generalize Config.sideEffects k = l
  induction l generalizing m with
  | nil => exact hm
  | cons c l ih => exact ih (Memory.write_inSpace _ hm c.1.isLt)

/-- Each byte of the extent reads as its own free value. -/
theorem Memory.read_spoil_inside {k base len a : Nat} {m : Memory} (hm : m.wf) (h : base ≤ a ∧ a < base + len) :
    Memory.read (Memory.spoil k base len m) a = Config.spoiltByte k a := by
  refine forUpTo_reaches Memory.wf (fun t => Memory.read t a = Config.spoiltByte k a) len hm
    (fun _ _ _ ht => Memory.write_wf _ _ ht) (k := a - base) (by omega) (fun t ht => ?_) (fun i hi t ht hQ => ?_)
  · rw [Memory.read_write _ _ _ ht, if_pos (by omega)]; congr 1; omega
  · rw [Memory.read_write _ _ _ ht]; split
    · congr 1; omega
    · exact hQ

end Sys2Proof.Machine
end

