-- ==== Sys2Proof/Laws/Rom.lean ====
section
/-! SUPPORT. What the two ROM entries have in common, and the arithmetic of addressing (R55, R69, R70). -/

namespace Sys2Proof.Machine

/-- The facts of R55 that the walks rely on. -/
structure Descriptor.Fits (D : Descriptor) : Prop where
  tileW : D.tileW = 8
  tileH : D.tileH = 8
  bpp_pos : 1 ≤ D.bpp
  bpp_le : D.bpp ≤ 8
  bytes : D.bytesPerTile = 8 * D.bpp
  widthPos : 0 < D.defaultWidth
  widthTiles : D.defaultWidth % 8 = 0
  widthBound : D.defaultWidth ≤ 65528
  off_lt : ∀ {t r p}, r < 8 → p < D.bpp → planeOff D t r p < (t + 1) * D.bytesPerTile
  off_ge : ∀ {t r p}, r < 8 → p < D.bpp → t * D.bytesPerTile ≤ planeOff D t r p
  off_inj : ∀ {t r p t' r' p'}, r < 8 → p < D.bpp → r' < 8 → p' < D.bpp →
    planeOff D t r p = planeOff D t' r' p' → t = t' ∧ r = r' ∧ p = p'
  off_surj : ∀ {o}, o < D.bytesPerTile → ∃ r p, r < 8 ∧ p < D.bpp ∧ planeOff D 0 r p = o

theorem widthOfTiles_pos (k : Fin 8191) : 0 < Params.widthOfTiles k := by
  unfold Params.widthOfTiles; omega

theorem widthOfTiles_mod (k : Fin 8191) : Params.widthOfTiles k % 8 = 0 := by
  unfold Params.widthOfTiles; omega

theorem widthOfTiles_le (k : Fin 8191) : Params.widthOfTiles k ≤ 65528 := by
  have := k.isLt
  unfold Params.widthOfTiles; omega

theorem romNes1bpp_fits (p : Params) : (romNes1bpp p).Fits where
  tileW := rfl
  tileH := rfl
  bpp_pos := by show 1 ≤ 1; omega
  bpp_le := by show 1 ≤ 8; omega
  bytes := rfl
  widthPos := widthOfTiles_pos _
  widthTiles := widthOfTiles_mod _
  widthBound := widthOfTiles_le _
  off_lt := by intro t r q hr hq; simp only [planeOff, romNes1bpp] at *; omega
  off_ge := by intro t r q hr hq; simp only [planeOff, romNes1bpp] at *; omega
  off_inj := by intro t r q t' r' q' hr hq hr' hq' h; simp only [planeOff, romNes1bpp] at *; omega
  off_surj := by
    intro o ho
    simp only [planeOff, romNes1bpp] at *
    exact ⟨o, 0, by omega, by omega, by omega⟩

theorem romSnes4bpp_fits (p : Params) : (romSnes4bpp p).Fits where
  tileW := rfl
  tileH := rfl
  bpp_pos := by show 1 ≤ 4; omega
  bpp_le := by show 4 ≤ 8; omega
  bytes := rfl
  widthPos := widthOfTiles_pos _
  widthTiles := widthOfTiles_mod _
  widthBound := widthOfTiles_le _
  off_lt := by intro t r q hr hq; simp only [planeOff, romSnes4bpp] at *; omega
  off_ge := by intro t r q hr hq; simp only [planeOff, romSnes4bpp] at *; omega
  off_inj := by intro t r q t' r' q' hr hq hr' hq' h; simp only [planeOff, romSnes4bpp] at *; omega
  off_surj := by
    intro o ho
    simp only [planeOff, romSnes4bpp] at *
    exact ⟨o % 16 / 2, o / 16 * 2 + o % 2, by omega, by omega, by omega⟩

/-- A registered format is one of the two. -/
theorem rom_cases {p : Params} {f : Nat} {D : Descriptor} (h : rom p f = some D) :
    (f = 0 ∧ D = romNes1bpp p) ∨ (f = 1 ∧ D = romSnes4bpp p) := by
  match f, h with
  | 0, h => exact .inl ⟨rfl, (Option.some.inj h).symm⟩
  | 1, h => exact .inr ⟨rfl, (Option.some.inj h).symm⟩

theorem rom_isSome {p : Params} {f : Nat} (h : f < 2) : ∃ D, rom p f = some D := by
  match f, h with
  | 0, _ => exact ⟨_, rfl⟩
  | 1, _ => exact ⟨_, rfl⟩

theorem rom_none {p : Params} {f : Nat} (h : 2 ≤ f) : rom p f = none := by
  match f, h with
  | f + 2, _ => rfl

theorem rom_fits {p : Params} {f : Nat} {D : Descriptor} (h : rom p f = some D) : D.Fits := by
  rcases rom_cases h with ⟨-, rfl⟩ | ⟨-, rfl⟩
  · exact romNes1bpp_fits p
  · exact romSnes4bpp_fits p

/-! ## Geometry -/

/-- A tile-aligned image is `a` by `b` tiles, and its stream is `a * b` tiles long. -/
theorem needEnc_tiles {W H bpp : Nat} (hW : W % 8 = 0) (hH : H % 8 = 0) :
    needEnc W H bpp = (W / 8) * (H / 8) * (8 * bpp) := by
  obtain ⟨a, rfl⟩ := Nat.dvd_of_mod_eq_zero hW
  obtain ⟨b, rfl⟩ := Nat.dvd_of_mod_eq_zero hH
  unfold needEnc
  rw [Nat.mul_div_cancel_left a (by decide), Nat.mul_div_cancel_left b (by decide),
    show 8 * a * (8 * b) * bpp = 8 * (a * b * (8 * bpp)) by ring, Nat.mul_div_cancel_left _ (by decide)]

/-- A pixel offset names its row and its column. -/
theorem rowMajor_inj {W x y x' y' : Nat} (hx : x < W) (hx' : x' < W) (h : y * W + x = y' * W + x') :
    y = y' ∧ x = x' := by
  have hd : ∀ {y x}, x < W → (y * W + x) / W = y := fun {y x} hx => by
    rw [Nat.mul_comm, Nat.mul_add_div (by omega), Nat.div_eq_of_lt hx, Nat.add_zero]
  have hy : y = y' := by rw [← hd (y := y) hx, h, hd hx']
  subst hy
  exact ⟨rfl, by omega⟩

/-- A row-major offset stays inside the rectangle. -/
theorem rowMajor_lt {W H x y : Nat} (hx : x < W) (hy : y < H) : y * W + x < W * H := by
  calc y * W + x < y * W + W := by omega
    _ = (y + 1) * W := by ring
    _ ≤ H * W := Nat.mul_le_mul_right W hy
    _ = W * H := Nat.mul_comm _ _

/-- Every plane byte of an image lies in its stream. -/
theorem planeOff_lt_need {D : Descriptor} (hD : D.Fits) {W H ty tx r p : Nat} (hW : W % 8 = 0) (hH : H % 8 = 0)
    (hty : ty < H / 8) (htx : tx < W / 8) (hr : r < 8) (hp : p < D.bpp) :
    planeOff D (tileNumber W ty tx) r p < needEnc W H D.bpp := by
  have h1 := hD.off_lt (t := tileNumber W ty tx) hr hp
  have h2 : tileNumber W ty tx < W / 8 * (H / 8) := rowMajor_lt htx hty
  rw [needEnc_tiles hW hH, ← hD.bytes]
  exact Nat.lt_of_lt_of_le h1 (Nat.mul_le_mul_right _ h2)

theorem tileNumber_inj {W ty tx ty' tx' : Nat} (h1 : tx < W / 8) (h2 : tx' < W / 8)
    (h : tileNumber W ty tx = tileNumber W ty' tx') : ty = ty' ∧ tx = tx' :=
  rowMajor_inj h1 h2 h

/-- Every byte of the stream is a plane byte of the image. -/
theorem planeOff_covers {D : Descriptor} (hD : D.Fits) {W H o : Nat} (hW : W % 8 = 0) (hH : H % 8 = 0)
    (ho : o < needEnc W H D.bpp) :
    ∃ ty tx r p, ty < H / 8 ∧ tx < W / 8 ∧ r < 8 ∧ p < D.bpp ∧ planeOff D (tileNumber W ty tx) r p = o := by
  rw [needEnc_tiles hW hH, ← hD.bytes] at ho
  have hB : 0 < D.bytesPerTile := by have := hD.bytes; have := hD.bpp_pos; omega
  have ht : o / D.bytesPerTile < W / 8 * (H / 8) := Nat.div_lt_of_lt_mul (by rwa [Nat.mul_comm])
  have hW0 : 0 < W / 8 := by
    rcases Nat.eq_zero_or_pos (W / 8) with h | h
    · rw [h, Nat.zero_mul] at ht; exact absurd ht (Nat.not_lt_zero _)
    · exact h
  obtain ⟨r, p, hr, hp, h⟩ := hD.off_surj (Nat.mod_lt o hB)
  refine ⟨o / D.bytesPerTile / (W / 8), o / D.bytesPerTile % (W / 8), r, p,
    Nat.div_lt_of_lt_mul ht, Nat.mod_lt _ hW0, hr, hp, ?_⟩
  have hn : tileNumber W (o / D.bytesPerTile / (W / 8)) (o / D.bytesPerTile % (W / 8)) = o / D.bytesPerTile := by
    unfold tileNumber; exact Nat.div_add_mod' _ _
  have hs : planeOff D (o / D.bytesPerTile) r p = o / D.bytesPerTile * D.bytesPerTile + planeOff D 0 r p := by
    unfold planeOff; omega
  rw [hn, hs, h]
  exact Nat.div_add_mod' _ _

end Sys2Proof.Machine
end

