-- ==== Sys2Proof/Laws/Datapath.lean ====
section
/-! SUPPORT. The datapath's small lemmas, and the induction over a tile walk, done once. -/

namespace Sys2Proof.Machine

/-- The used extents of a memory command do not overlap (R59). -/
def Apart (src su dst du : Nat) : Prop := ¬ (src < dst + du ∧ dst < src + su)

@[simp] theorem Datapath.setPlane_mem (d : Datapath) (p : Nat) (v : Byte) : (d.setPlane p v).mem = d.mem := rfl
@[simp] theorem Datapath.setPlane_range (d : Datapath) (p : Nat) (v : Byte) : (d.setPlane p v).range = d.range := rfl
@[simp] theorem Datapath.write_mem (d : Datapath) (a : Nat) (v : Byte) : (d.write a v).mem = Memory.write d.mem a v := rfl
@[simp] theorem Datapath.write_range (d : Datapath) (a : Nat) (v : Byte) : (d.write a v).range = d.range := rfl
@[simp] theorem Datapath.write_plane (d : Datapath) (a p : Nat) (v : Byte) : (d.write a v).plane p = d.plane p := rfl

/-- The plane scratch buffer has eight bytes. -/
theorem Datapath.plane_setPlane (d : Datapath) (p q : Nat) (v : Byte) (hp : p < 8) :
    (d.setPlane p v).plane q = if q = p then v else d.plane q := by
  unfold Datapath.plane Datapath.setPlane
  rw [Vector.getElem?_setIfInBounds]
  by_cases h : p = q
  · subst h; simp [hp]
  · simp [h, Ne.symm h]

/-- An invariant that every tile row keeps holds after the walk. -/
theorem tileWalk_keeps {D : Descriptor} {W H : Nat} {row : Nat → Nat → Nat → Datapath → Datapath} (P : Datapath → Prop)
    (hrow : ∀ ty tx r, ty < H / D.tileH → tx < W / 8 → r < D.tileH → ∀ d, P d → P (row ty tx r d))
    {d : Datapath} (hd : P d) : P (tileWalk D W H row d) :=
  forUpTo_keeps P _ hd fun ty hty _ h1 =>
    forUpTo_keeps P _ h1 fun tx htx _ h2 =>
      forUpTo_keeps P _ h2 fun r hr t ht => hrow ty tx r hty htx hr t ht

/-- What tile row (`ty`, `tx`, `r`) establishes and every tile row keeps holds after the walk. -/
theorem tileWalk_reaches {D : Descriptor} {W H : Nat} {row : Nat → Nat → Nat → Datapath → Datapath} (P Q : Datapath → Prop)
    (hP : ∀ ty tx r, ty < H / D.tileH → tx < W / 8 → r < D.tileH → ∀ d, P d → P (row ty tx r d))
    (keep : ∀ ty tx r, ty < H / D.tileH → tx < W / 8 → r < D.tileH → ∀ d, P d → Q d → Q (row ty tx r d))
    {ty tx r : Nat} (hty : ty < H / D.tileH) (htx : tx < W / 8) (hr : r < D.tileH)
    (hQ : ∀ d, P d → Q (row ty tx r d)) {d : Datapath} (hd : P d) : Q (tileWalk D W H row d) := by
  refine forUpTo_reaches P Q _ hd (fun y hy t ht => ?_) hty (fun t ht => ?_) (fun y hy t ht hq => ?_)
  · exact forUpTo_keeps P _ ht fun x hx _ h2 => forUpTo_keeps P _ h2 fun k hk u hu => hP y x k hy hx hk u hu
  · refine forUpTo_reaches P Q _ ht (fun x hx t ht => ?_) htx (fun t ht => ?_) (fun x hx t ht hq => ?_)
    · exact forUpTo_keeps P _ ht fun k hk u hu => hP ty x k hty hx hk u hu
    · exact forUpTo_reaches P Q _ ht (fun k hk u hu => hP ty tx k hty htx hk u hu) hr hQ
        (fun k hk u hu hq => keep ty tx k hty htx hk u hu hq)
    · exact (forUpTo_keeps (fun u => P u ∧ Q u) _ ⟨ht, hq⟩ fun k hk u hu =>
        ⟨hP ty x k hty hx hk u hu.1, keep ty x k hty hx hk u hu.1 hu.2⟩).2
  · exact (forUpTo_keeps (fun u => P u ∧ Q u) _ ⟨ht, hq⟩ fun x hx _ h2 =>
      forUpTo_keeps (fun u => P u ∧ Q u) _ h2 fun k hk u hu =>
        ⟨hP y x k hy hx hk u hu.1, keep y x k hy hx hk u hu.1 hu.2⟩).2

end Sys2Proof.Machine
end

