-- ==== Sys2Proof/Laws/Decoder.lean ====
section
/-! SUPPORT. Everything the decoder's walk does (R72, R73). -/

namespace Sys2Proof.Machine

/-- The planes in use hold their bytes; memory and RANGE stay. -/
theorem loadPlanes_spec (D : Descriptor) (src t r : Nat) (d : Datapath) (hb : D.bpp ≤ 8) :
    (loadPlanes D src t r d).mem = d.mem ∧ (loadPlanes D src t r d).range = d.range ∧
      ∀ p, p < D.bpp → (loadPlanes D src t r d).plane p = Memory.read d.mem (src + planeOff D t r p) := by
  refine forUpTo_counts (fun i (u : Datapath) => u.mem = d.mem ∧ u.range = d.range ∧
    ∀ p, p < i → u.plane p = Memory.read d.mem (src + planeOff D t r p)) D.bpp
    ⟨rfl, rfl, fun p hp => absurd hp (Nat.not_lt_zero _)⟩ ?_
  rintro i hi u ⟨hm, hr, hp⟩
  refine ⟨hm, hr, fun p hpi => ?_⟩
  rw [Datapath.plane_setPlane _ _ _ _ (by omega)]
  split
  · rw [hm, ‹p = i›]
  · exact hp p (by omega)

/-- Bit `p` of an assembled pixel is bit `7 - c` of plane `p`; the bits from `bpp` up are 0 (R72, R73). -/
theorem assemblePixel_bit {bpp c p : Nat} (d : Datapath) (hp : p < 8) :
    (assemblePixel bpp c d).getLsbD p = (decide (p < bpp) && (d.plane p).getLsbD (7 - c)) := by
  refine forUpTo_counts (fun i (v : Byte) => v.getLsbD p = (decide (p < i) && (d.plane p).getLsbD (7 - c))) bpp (by simp) ?_
  intro i hi v hv
  rw [BitVec.getLsbD_or, hv, BitVec.getLsbD_shiftLeft, BitVec.getLsbD_and, BitVec.getLsbD_ushiftRight]
  by_cases h1 : p = i
  · subst h1; simp [hp]
  · by_cases h2 : p < i
    · simp [h2, Nat.lt_succ_of_lt h2]
    · have h3 : ¬ p < i + 1 := by omega
      have h4 : p - i ≠ 0 := by omega
      simp [h2, h3, h4]

/-- The stream offset of the plane-`p` byte of pixel (`x`, `y`). -/
def pixelPlaneOff (D : Descriptor) (W x y p : Nat) : Nat := planeOff D (tileNumber W (y / 8) (x / 8)) (y % 8) p

/-- The walk so far: memory canonical, nothing outside the bitmap changed, RANGE as it was. -/
structure DecodeSoFar (dst n : Nat) (d0 d : Datapath) : Prop where
  wf : d.mem.wf
  inSpace : dst + n ≤ 2 ^ 32 → d0.mem.inSpace → d.mem.inSpace
  range : d.range = d0.range
  outside : ∀ a, ¬ (dst ≤ a ∧ a < dst + n) → Memory.read d.mem a = Memory.read d0.mem a

/-- Pixel (`x`, `y`) is decoded. -/
def Decoded (D : Descriptor) (src dst W x y : Nat) (d0 d : Datapath) : Prop :=
  ∀ p, p < 8 → (Memory.read d.mem (dst + (y * W + x))).getLsbD p =
    (decide (p < D.bpp) && (Memory.read d0.mem (src + pixelPlaneOff D W x y p)).getLsbD (7 - x % 8))

theorem decodeRow_spec {D : Descriptor} (hD : D.Fits) {src dst W H ty tx r : Nat} {d0 : Datapath}
    (hW : W % 8 = 0) (hH : H % 8 = 0) (hap : Apart src (needEnc W H D.bpp) dst (W * H))
    (hty : ty < H / 8) (htx : tx < W / 8) (hr : r < 8) {d : Datapath} (hd : DecodeSoFar dst (W * H) d0 d) :
    DecodeSoFar dst (W * H) d0 (decodeRow D src dst W ty tx r d) ∧
    (∀ c, c < 8 → Decoded D src dst W (8 * tx + c) (8 * ty + r) d0 (decodeRow D src dst W ty tx r d)) ∧
    ∀ x y, x < W → y < H → Decoded D src dst W x y d0 d → Decoded D src dst W x y d0 (decodeRow D src dst W ty tx r d) := by
  obtain ⟨hm, hrg, hpl⟩ := loadPlanes_spec D src (tileNumber W ty tx) r d hD.bpp_le
  have hplane : ∀ p, p < D.bpp → (loadPlanes D src (tileNumber W ty tx) r d).plane p =
      Memory.read d0.mem (src + planeOff D (tileNumber W ty tx) r p) := fun p hp => by
    rw [hpl p hp]
    have := planeOff_lt_need hD hW hH hty htx hr hp
    exact hd.outside _ fun h => hap (by omega)
  have hy : 8 * ty + r < H := by omega
  have hpix : ∀ c, pixelOff D W ty tx r c = (8 * ty + r) * W + (8 * tx + c) := fun c => by
    unfold pixelOff; rw [hD.tileH]; omega
  have hval : ∀ c, c < 8 → ∀ u : Datapath,
      (∀ p, p < D.bpp → u.plane p = Memory.read d0.mem (src + planeOff D (tileNumber W ty tx) r p)) →
      ∀ p, p < 8 → (assemblePixel D.bpp c u).getLsbD p = (decide (p < D.bpp) &&
        (Memory.read d0.mem (src + pixelPlaneOff D W (8 * tx + c) (8 * ty + r) p)).getLsbD (7 - (8 * tx + c) % 8)) := by
    intro c hc u hu p hp
    rw [assemblePixel_bit u hp]
    unfold pixelPlaneOff
    rw [show (8 * ty + r) / 8 = ty by omega, show (8 * tx + c) / 8 = tx by omega, show (8 * ty + r) % 8 = r by omega,
      show (8 * tx + c) % 8 = c by omega]
    by_cases h : p < D.bpp
    · rw [hu p h]
    · simp [h]
  have main := forUpTo_counts (f := fun c d => d.write (dst + pixelOff D W ty tx r c) (assemblePixel D.bpp c d))
    (fun i u => DecodeSoFar dst (W * H) d0 u ∧
      (∀ p, p < D.bpp → u.plane p = Memory.read d0.mem (src + planeOff D (tileNumber W ty tx) r p)) ∧
      (∀ c, c < i → c < 8 → Decoded D src dst W (8 * tx + c) (8 * ty + r) d0 u) ∧
      ∀ x y, x < W → y < H → Decoded D src dst W x y d0 d → Decoded D src dst W x y d0 u) 8
    (s := loadPlanes D src (tileNumber W ty tx) r d)
    ⟨⟨hm ▸ hd.wf, hm ▸ hd.inSpace, hrg.trans hd.range, hm ▸ hd.outside⟩, hplane,
      fun c hc => absurd hc (Nat.not_lt_zero _), fun x y _ _ h => by unfold Decoded at *; rwa [hm]⟩
    (by
      rintro c hc u ⟨hu, hup, hdone, hkeep⟩
      have hx : 8 * tx + c < W := by omega
      have hlt : (8 * ty + r) * W + (8 * tx + c) < W * H := rowMajor_lt hx hy
      have hmerge : ∀ x y, x < W → y < H →
          (Decoded D src dst W x y d0 u ∨ (y = 8 * ty + r ∧ x = 8 * tx + c)) →
          Decoded D src dst W x y d0 (u.write (dst + pixelOff D W ty tx r c) (assemblePixel D.bpp c u)) := by
        intro x y hxW _ hor p hp
        rw [Datapath.write_mem, Memory.read_write _ _ _ hu.wf, hpix]
        split
        · obtain ⟨rfl, rfl⟩ := rowMajor_inj (y := y) (y' := 8 * ty + r) hxW hx (by omega)
          exact hval c hc u hup p hp
        · rcases hor with h | ⟨rfl, rfl⟩
          · exact h p hp
          · exact absurd rfl ‹_›
      refine ⟨⟨Memory.write_wf _ _ hu.wf, fun hs hm0 => Memory.write_inSpace _ (hu.inSpace hs hm0) ?_, hu.range,
        fun a ha => ?_⟩, hup, fun c' hc' hc8 => ?_, fun x y hxW hyH h => ?_⟩
      · rw [hpix]; omega
      · rw [Datapath.write_mem, Memory.read_write_ne (by rw [hpix]; omega)]
        exact hu.outside a ha
      · rcases Nat.lt_succ_iff_lt_or_eq.mp hc' with h | rfl
        · exact hmerge _ _ (by omega) hy (.inl (hdone c' h hc8))
        · exact hmerge _ _ hx hy (.inr ⟨rfl, rfl⟩)
      · exact hmerge _ _ hxW hyH (.inl (hkeep x y hxW hyH h)))
  exact ⟨main.1, fun c hc => main.2.2.1 c hc hc, main.2.2.2⟩

/-- The decoder's walk: every pixel is the one R72 gives, nothing outside the bitmap changes, RANGE stays. -/
theorem decodeTiles_spec {D : Descriptor} (hD : D.Fits) {src dst W H : Nat} {d0 : Datapath} (hwf : d0.mem.wf)
    (hW : W % 8 = 0) (hH : H % 8 = 0) (hap : Apart src (needEnc W H D.bpp) dst (W * H)) :
    DecodeSoFar dst (W * H) d0 (decodeTiles D src dst W H d0) ∧
    ∀ x y, x < W → y < H → Decoded D src dst W x y d0 (decodeTiles D src dst W H d0) := by
  have h0 : DecodeSoFar dst (W * H) d0 d0 := ⟨hwf, fun _ h => h, rfl, fun _ _ => rfl⟩
  have hP : ∀ ty tx r, ty < H / D.tileH → tx < W / 8 → r < D.tileH → ∀ d, DecodeSoFar dst (W * H) d0 d →
      DecodeSoFar dst (W * H) d0 (decodeRow D src dst W ty tx r d) := fun ty tx r hty htx hr d hd =>
    (decodeRow_spec hD hW hH hap (hD.tileH ▸ hty) htx (hD.tileH ▸ hr) hd).1
  refine ⟨tileWalk_keeps _ hP h0, fun x y hx hy => ?_⟩
  refine tileWalk_reaches _ _ hP (ty := y / 8) (tx := x / 8) (r := y % 8)
    (fun ty tx r hty htx hr d hd h => (decodeRow_spec hD hW hH hap (hD.tileH ▸ hty) htx (hD.tileH ▸ hr) hd).2.2 x y hx hy h)
    (by rw [hD.tileH]; omega) (by omega) (by rw [hD.tileH]; omega) (fun d hd => ?_) h0
  have := (decodeRow_spec hD hW hH hap (ty := y / 8) (tx := x / 8) (r := y % 8) (by omega) (by omega) (by omega) hd).2.1
    (x % 8) (by omega)
  rwa [show 8 * (x / 8) + x % 8 = x by omega, show 8 * (y / 8) + y % 8 = y by omega] at this

end Sys2Proof.Machine
end

