-- ==== Sys2Proof/Laws/Encoder.lean ====
section
/-! SUPPORT. Everything the encoder's walk does (R77, R78). -/

namespace Sys2Proof.Machine

/-- Clearing the planes in use leaves memory and RANGE. -/
theorem clearPlanes_spec {bpp : Nat} (d : Datapath) (hb : bpp ≤ 8) :
    (clearPlanes bpp d).mem = d.mem ∧ (clearPlanes bpp d).range = d.range ∧
      ∀ p, p < bpp → (clearPlanes bpp d).plane p = 0 := by
  refine forUpTo_counts (fun i (u : Datapath) => u.mem = d.mem ∧ u.range = d.range ∧ ∀ p, p < i → u.plane p = 0) bpp
    ⟨rfl, rfl, fun p hp => absurd hp (Nat.not_lt_zero _)⟩ ?_
  rintro i hi u ⟨hm, hr, hp⟩
  refine ⟨hm, hr, fun p hpi => ?_⟩
  rw [Datapath.plane_setPlane _ _ _ _ (by omega)]
  split
  · rfl
  · exact hp p (by omega)

/-- One pixel moves every plane in use up by a bit and enters its own bit at the bottom. -/
theorem packPixel_spec {bpp : Nat} (v : Byte) (d : Datapath) (hb : bpp ≤ 8) :
    (packPixel bpp v d).mem = d.mem ∧ (packPixel bpp v d).range = (d.range || decide (v.toNat ≥ 2 ^ bpp)) ∧
      ∀ p, p < bpp → (packPixel bpp v d).plane p = (d.plane p <<< 1) ||| ((v >>> p) &&& 1) := by
  have main := forUpTo_counts
    (f := fun p (d : Datapath) => d.setPlane p ((d.plane p <<< 1) ||| ((v >>> p) &&& 1)))
    (s := { d with range := d.range || decide (v.toNat ≥ 2 ^ bpp) })
    (fun i (u : Datapath) => u.mem = d.mem ∧ u.range = (d.range || decide (v.toNat ≥ 2 ^ bpp)) ∧
      (∀ p, p < i → u.plane p = (d.plane p <<< 1) ||| ((v >>> p) &&& 1)) ∧ ∀ p, i ≤ p → u.plane p = d.plane p) bpp
    ⟨rfl, rfl, fun p hp => absurd hp (Nat.not_lt_zero _), fun _ _ => rfl⟩
    (by
      rintro i hi u ⟨hm, hr, hlo, hhi⟩
      refine ⟨hm, hr, fun p hp => ?_, fun p hp => ?_⟩
      · rw [Datapath.plane_setPlane _ _ _ _ (by omega)]
        split
        · rw [‹p = i›, hhi i (Nat.le_refl i)]
        · exact hlo p (by omega)
      · rw [Datapath.plane_setPlane _ _ _ _ (by omega), if_neg (by omega)]
        exact hhi p (by omega))
  exact ⟨main.1, main.2.1, main.2.2.1⟩

/-- Some pixel of the bitmap is not below 2^BPP (R78). -/
def SomeOutOfRange (bpp src n : Nat) (m : Memory) : Prop := ∃ o, o < n ∧ (Memory.read m (src + o)).toNat ≥ 2 ^ bpp

/-- The walk so far: memory canonical, nothing outside the stream changed, RANGE only for a reason. -/
structure EncodeSoFar (bpp src sn dst dn : Nat) (d0 d : Datapath) : Prop where
  wf : d.mem.wf
  inSpace : dst + dn ≤ 2 ^ 32 → d0.mem.inSpace → d.mem.inSpace
  range : d.range = true → d0.range = true ∨ SomeOutOfRange bpp src sn d0.mem
  outside : ∀ a, ¬ (dst ≤ a ∧ a < dst + dn) → Memory.read d.mem a = Memory.read d0.mem a

/-- The plane-`p` byte of tile row `r` of tile (`tx`, `ty`) is encoded. -/
def Encoded (D : Descriptor) (src dst W ty tx r p : Nat) (d0 d : Datapath) : Prop :=
  ∀ c, c < 8 → (Memory.read d.mem (dst + planeOff D (tileNumber W ty tx) r p)).getLsbD (7 - c) =
    (Memory.read d0.mem (src + ((8 * ty + r) * W + (8 * tx + c)))).getLsbD p

/-- The eight pixels of one tile row, packed. -/
theorem packRow_spec {bpp : Nat} (hb : bpp ≤ 8) (pix : Nat → Nat) (d : Datapath) :
    let d' := forUpTo 8 (fun c d => packPixel bpp (Memory.read d.mem (pix c)) d) (clearPlanes bpp d)
    d'.mem = d.mem ∧
    (d'.range = true ↔ d.range = true ∨ ∃ c, c < 8 ∧ (Memory.read d.mem (pix c)).toNat ≥ 2 ^ bpp) ∧
    ∀ p, p < bpp → ∀ c, c < 8 → (d'.plane p).getLsbD (7 - c) = (Memory.read d.mem (pix c)).getLsbD p := by
  obtain ⟨hm, hr, hz⟩ := clearPlanes_spec d hb
  have main := forUpTo_counts (f := fun c (d : Datapath) => packPixel bpp (Memory.read d.mem (pix c)) d)
    (s := clearPlanes bpp d)
    (fun i (u : Datapath) => u.mem = d.mem ∧
      (u.range = true ↔ d.range = true ∨ ∃ c, c < i ∧ (Memory.read d.mem (pix c)).toNat ≥ 2 ^ bpp) ∧
      ∀ p, p < bpp → ∀ j, j < 8 → (u.plane p).getLsbD j =
        (decide (j < i) && (Memory.read d.mem (pix (i - 1 - j))).getLsbD p)) 8
    ⟨hm, by simp [hr], fun p hp j _ => by simp [hz p hp]⟩
    (by
      rintro i hi u ⟨hum, hur, hup⟩
      obtain ⟨gm, gr, gp⟩ := packPixel_spec (Memory.read u.mem (pix i)) u hb
      refine ⟨gm.trans hum, ?_, fun p hp j hj => ?_⟩
      · rw [gr, Bool.or_eq_true, hur, decide_eq_true_eq, hum, or_assoc]
        refine or_congr_right ⟨?_, ?_⟩
        · rintro (⟨c, hc, h⟩ | h)
          · exact ⟨c, Nat.lt_succ_of_lt hc, h⟩
          · exact ⟨i, Nat.lt_succ_self i, h⟩
        · rintro ⟨c, hc, h⟩
          rcases Nat.lt_succ_iff_lt_or_eq.mp hc with hc | rfl
          · exact .inl ⟨c, hc, h⟩
          · exact .inr h
      · rw [gp p hp, hum, BitVec.getLsbD_or, BitVec.getLsbD_shiftLeft, BitVec.getLsbD_and, BitVec.getLsbD_ushiftRight]
        rcases Nat.eq_zero_or_pos j with rfl | hj0
        · simp
        · rw [hup p hp (j - 1) (by omega)]
          have h1 : ¬ j < 1 := by omega
          have h2 : j ≠ 0 := by omega
          have h3 : (j - 1 < i) = (j < i + 1) := by simp; omega
          have h4 : i - 1 - (j - 1) = i + 1 - 1 - j := by omega
          simp [hj, h1, h2, h3, h4])
  refine ⟨main.1, main.2.1, fun p hp c hc => ?_⟩
  rw [main.2.2 p hp (7 - c) (by omega)]
  have h : 8 - 1 - (7 - c) = c := by omega
  have h' : 7 - c < 8 := by omega
  simp [h, h']

theorem encodeRow_spec {D : Descriptor} (hD : D.Fits) {src dst W H ty tx r : Nat} {d0 : Datapath}
    (hW : W % 8 = 0) (hH : H % 8 = 0) (hap : Apart src (W * H) dst (needEnc W H D.bpp))
    (hty : ty < H / 8) (htx : tx < W / 8) (hr : r < 8) {d : Datapath}
    (hd : EncodeSoFar D.bpp src (W * H) dst (needEnc W H D.bpp) d0 d) :
    EncodeSoFar D.bpp src (W * H) dst (needEnc W H D.bpp) d0 (encodeRow D src dst W ty tx r d) ∧
    (∀ p, p < D.bpp → Encoded D src dst W ty tx r p d0 (encodeRow D src dst W ty tx r d)) ∧
    (∀ ty' tx' r' p, ty' < H / 8 → tx' < W / 8 → r' < 8 → p < D.bpp → Encoded D src dst W ty' tx' r' p d0 d →
      Encoded D src dst W ty' tx' r' p d0 (encodeRow D src dst W ty tx r d)) ∧
    (d.range = true → (encodeRow D src dst W ty tx r d).range = true) ∧
    (∀ c, c < 8 → (Memory.read d0.mem (src + ((8 * ty + r) * W + (8 * tx + c)))).toNat ≥ 2 ^ D.bpp →
      (encodeRow D src dst W ty tx r d).range = true) := by
  obtain ⟨hm, hrg, hpl⟩ := packRow_spec hD.bpp_le (fun c => src + pixelOff D W ty tx r c) d
  have hy : 8 * ty + r < H := by omega
  have hpix : ∀ c, pixelOff D W ty tx r c = (8 * ty + r) * W + (8 * tx + c) := fun c => by
    unfold pixelOff; rw [hD.tileH]; omega
  have hlt : ∀ c, c < 8 → (8 * ty + r) * W + (8 * tx + c) < W * H := fun c hc => rowMajor_lt (by omega) hy
  have hsrc : ∀ c, c < 8 → Memory.read d.mem (src + pixelOff D W ty tx r c) =
      Memory.read d0.mem (src + ((8 * ty + r) * W + (8 * tx + c))) := fun c hc => by
    have := hlt c hc
    rw [hpix]
    exact hd.outside _ fun h => hap (by omega)
  have main := forUpTo_counts
    (f := fun p (d : Datapath) => d.write (dst + planeOff D (tileNumber W ty tx) r p) (d.plane p))
    (s := forUpTo 8 (fun c d => packPixel D.bpp (Memory.read d.mem (src + pixelOff D W ty tx r c)) d)
      (clearPlanes D.bpp d))
    (fun i (u : Datapath) => EncodeSoFar D.bpp src (W * H) dst (needEnc W H D.bpp) d0 u ∧
      (∀ p, p < D.bpp → ∀ c, c < 8 → (u.plane p).getLsbD (7 - c) =
        (Memory.read d0.mem (src + ((8 * ty + r) * W + (8 * tx + c)))).getLsbD p) ∧
      (∀ p, p < i → Encoded D src dst W ty tx r p d0 u) ∧
      (∀ ty' tx' r' p, ty' < H / 8 → tx' < W / 8 → r' < 8 → p < D.bpp → Encoded D src dst W ty' tx' r' p d0 d →
        Encoded D src dst W ty' tx' r' p d0 u) ∧
      (u.range = true ↔ d.range = true ∨ ∃ c, c < 8 ∧
        (Memory.read d0.mem (src + ((8 * ty + r) * W + (8 * tx + c)))).toNat ≥ 2 ^ D.bpp)) D.bpp
    ⟨⟨hm ▸ hd.wf, hm ▸ hd.inSpace, fun h => ?_, hm ▸ hd.outside⟩, fun p hp c hc => ?_,
      fun p hp => absurd hp (Nat.not_lt_zero _), fun ty' tx' r' p _ _ _ _ h => ?_, ?_⟩
    (by
      rintro p hp u ⟨hu, hup, hdone, hkeep, hur⟩
      have hin := planeOff_lt_need hD hW hH hty htx hr hp
      have hmerge : ∀ ty' tx' r' q, ty' < H / 8 → tx' < W / 8 → r' < 8 → q < D.bpp →
          (Encoded D src dst W ty' tx' r' q d0 u ∨ (ty' = ty ∧ tx' = tx ∧ r' = r ∧ q = p)) →
          Encoded D src dst W ty' tx' r' q d0 (u.write (dst + planeOff D (tileNumber W ty tx) r p) (u.plane p)) := by
        intro ty' tx' r' q h1 h2 h3 h4 hor c hc
        rw [Datapath.write_mem, Memory.read_write _ _ _ hu.wf]
        split
        · obtain ⟨ht, rfl, rfl⟩ := hD.off_inj (t := tileNumber W ty' tx') (t' := tileNumber W ty tx)
            h3 h4 hr hp (by omega)
          obtain ⟨rfl, rfl⟩ := tileNumber_inj h2 htx ht
          exact hup _ hp c hc
        · rcases hor with h | ⟨rfl, rfl, rfl, rfl⟩
          · exact h c hc
          · exact absurd rfl ‹_›
      refine ⟨⟨Memory.write_wf _ _ hu.wf, fun hs hm0 => Memory.write_inSpace _ (hu.inSpace hs hm0) (by omega), hu.range,
        fun a ha => ?_⟩, hup, fun q hq => ?_, fun ty' tx' r' q h1 h2 h3 h4 h => ?_, hur⟩
      · rw [Datapath.write_mem, Memory.read_write_ne (by omega)]
        exact hu.outside a ha
      · rcases Nat.lt_succ_iff_lt_or_eq.mp hq with h | rfl
        · exact hmerge _ _ _ _ hty htx hr (by omega) (.inl (hdone q h))
        · exact hmerge _ _ _ _ hty htx hr hp (.inr ⟨rfl, rfl, rfl, rfl⟩)
      · exact hmerge _ _ _ _ h1 h2 h3 h4 (.inl (hkeep _ _ _ _ h1 h2 h3 h4 h)))
  · exact ⟨main.1, main.2.2.1, main.2.2.2.1, fun h => main.2.2.2.2.mpr (.inl h),
      fun c hc h => main.2.2.2.2.mpr (.inr ⟨c, hc, h⟩)⟩
  · rcases hrg.mp h with h | ⟨c, hc, h⟩
    · exact hd.range h
    · exact .inr ⟨_, hlt c hc, by rwa [hsrc c hc] at h⟩
  · rw [hpl p hp c hc, hsrc c hc]
  · unfold Encoded at *; rwa [hm]
  · rw [hrg]
    refine or_congr_right ⟨?_, ?_⟩ <;> rintro ⟨c, hc, h⟩ <;> exact ⟨c, hc, by rwa [hsrc c hc] at *⟩

/-- The encoder's walk: every plane byte is the one R77 gives, nothing outside the stream changes, and RANGE is set exactly
when some pixel is out of range (R78). -/
theorem encodeTiles_spec {D : Descriptor} (hD : D.Fits) {src dst W H : Nat} {d0 : Datapath} (hwf : d0.mem.wf)
    (hW : W % 8 = 0) (hH : H % 8 = 0) (hap : Apart src (W * H) dst (needEnc W H D.bpp)) :
    EncodeSoFar D.bpp src (W * H) dst (needEnc W H D.bpp) d0 (encodeTiles D src dst W H d0) ∧
    (∀ ty tx r p, ty < H / 8 → tx < W / 8 → r < 8 → p < D.bpp →
      Encoded D src dst W ty tx r p d0 (encodeTiles D src dst W H d0)) ∧
    ((encodeTiles D src dst W H d0).range = true ↔ d0.range = true ∨ SomeOutOfRange D.bpp src (W * H) d0.mem) := by
  let P := EncodeSoFar D.bpp src (W * H) dst (needEnc W H D.bpp) d0
  have h0 : P d0 := ⟨hwf, fun _ h => h, .inl, fun _ _ => rfl⟩
  have hrow := fun (ty tx r : Nat) (h1 : ty < H / D.tileH) (h2 : tx < W / 8) (h3 : r < D.tileH) (d : Datapath) (hd : P d) =>
    encodeRow_spec hD hW hH hap (hD.tileH ▸ h1) h2 (hD.tileH ▸ h3) hd
  have hP : ∀ ty tx r, ty < H / D.tileH → tx < W / 8 → r < D.tileH → ∀ d, P d → P (encodeRow D src dst W ty tx r d) :=
    fun ty tx r h1 h2 h3 d hd => (hrow _ _ _ h1 h2 h3 d hd).1
  have hend : P (encodeTiles D src dst W H d0) := tileWalk_keeps P hP h0
  refine ⟨hend, fun ty tx r p hty htx hr hp => ?_, hend.range, ?_⟩
  · exact tileWalk_reaches P _ hP (fun ty' tx' r' h1 h2 h3 d hd h => (hrow _ _ _ h1 h2 h3 d hd).2.2.1 ty tx r p hty htx hr hp h)
      (hD.tileH.symm ▸ hty) htx (hD.tileH.symm ▸ hr)
      (fun d hd => (hrow _ _ _ (hD.tileH.symm ▸ hty) htx (hD.tileH.symm ▸ hr) d hd).2.1 p hp) h0
  · rintro (h | ⟨o, ho, h⟩)
    · exact (tileWalk_keeps (fun d => P d ∧ d.range = true)
        (fun ty tx r h1 h2 h3 d hd => ⟨hP ty tx r h1 h2 h3 d hd.1, (hrow _ _ _ h1 h2 h3 d hd.1).2.2.2.1 hd.2⟩) ⟨h0, h⟩).2
    · have hW0 : 0 < W := by
        rcases Nat.eq_zero_or_pos W with rfl | h
        · simp at ho
        · exact h
      have hx : o % W < W := Nat.mod_lt _ hW0
      have hy : o / W < H := Nat.div_lt_of_lt_mul ho
      refine tileWalk_reaches P (fun d => d.range = true) hP (ty := o / W / 8) (tx := o % W / 8) (r := o / W % 8)
        (fun ty tx r h1 h2 h3 d hd h => (hrow _ _ _ h1 h2 h3 d hd).2.2.2.1 h)
        (by rw [hD.tileH]; omega) (by omega) (by rw [hD.tileH]; omega) (fun d hd => ?_) h0
      refine (hrow _ _ _ (by rw [hD.tileH]; omega) (by omega) (by rw [hD.tileH]; omega) d hd).2.2.2.2 (o % W % 8) (by omega) ?_
      rw [show 8 * (o / W / 8) + o / W % 8 = o / W by omega, show 8 * (o % W / 8) + o % W % 8 = o % W by omega,
        Nat.div_add_mod']
      exact h

end Sys2Proof.Machine
end

