-- ==== Sys2Proof/Laws/Operands.lean ====
section
/-! SUPPORT. What each check and each plan of checks says (R59, R61 to R66, R74, R75, R79). -/

namespace Sys2Proof.Machine

@[simp] theorem failIf_eq_ok {c : Prop} [Decidable c] {e : ErrCode} {u : Unit} : failIf c e = .ok u ↔ ¬ c := by
  unfold failIf; split <;> simp [*]

@[simp] theorem failIf_eq_error {c : Prop} [Decidable c] {e e' : ErrCode} : failIf c e = .error e' ↔ c ∧ e = e' := by
  unfold failIf; split <;> simp [*]

theorem failIf_of {c : Prop} [Decidable c] {e : ErrCode} (h : c) : failIf c e = .error e := if_pos h

theorem failIf_of_not {c : Prop} [Decidable c] {e : ErrCode} (h : ¬ c) : failIf c e = .ok () := if_neg h

theorem except_bind_ok {ε α β : Type} {x : Except ε α} {f : α → Except ε β} {b : β} :
    (x >>= f) = .ok b ↔ ∃ a, x = .ok a ∧ f a = .ok b := by
  cases x with
  | error e => simp [bind, Except.bind]
  | ok a => simp [bind, Except.bind]

theorem except_bind_error {ε α β : Type} {x : Except ε α} {f : α → Except ε β} {e : ε} :
    (x >>= f) = .error e ↔ x = .error e ∨ ∃ a, x = .ok a ∧ f a = .error e := by
  cases x with
  | error e => simp [bind, Except.bind]
  | ok a => simp [bind, Except.bind]

theorem selectWidth_ok {D : Descriptor} {s : State} {W : Nat} :
    selectWidth D s = .ok W ↔ W = chosenWidth D s ∧ W % D.tileW = 0 := by
  unfold selectWidth
  rw [except_bind_ok]
  constructor
  · rintro ⟨_, h, hW⟩
    obtain rfl := Except.ok.inj hW
    exact ⟨rfl, by simpa using h⟩
  · rintro ⟨rfl, h⟩
    exact ⟨(), failIf_of_not (by simpa using h), rfl⟩

theorem deriveHeight_ok {D : Descriptor} {n W H : Nat} :
    deriveHeight D n W = .ok H ↔ H = derivedHeight D n W ∧ H ≠ 0 := by
  unfold deriveHeight
  rw [except_bind_ok]
  constructor
  · rintro ⟨_, h, hH⟩
    obtain rfl := Except.ok.inj hH
    exact ⟨rfl, by simpa using h⟩
  · rintro ⟨rfl, h⟩
    exact ⟨(), failIf_of_not h, rfl⟩

theorem geometryCheck_ok {D : Descriptor} {W H : Nat} {u : Unit} :
    geometryCheck D W H = .ok u ↔ W ≠ 0 ∧ H ≠ 0 ∧ W % D.tileW = 0 ∧ H % D.tileH = 0 ∧ W * H < 2 ^ 32 := by
  unfold geometryCheck
  rw [failIf_eq_ok]
  omega

theorem checkRegions_ok {s : State} {su du : Nat} {u : Unit} :
    checkRegions s su du = .ok u ↔
      (s.srcBase.toNat + s.srcLen.toNat ≤ 2 ^ 32 ∧ s.dstBase.toNat + s.dstLen.toNat ≤ 2 ^ 32) ∧
        Apart s.srcBase.toNat su s.dstBase.toNat du := by
  unfold checkRegions Apart
  rw [except_bind_ok]
  constructor
  · rintro ⟨_, h1, h2⟩
    rw [failIf_eq_ok] at h1 h2
    exact ⟨by omega, h2⟩
  · rintro ⟨h1, h2⟩
    exact ⟨(), failIf_of_not (by omega), failIf_of_not h2⟩

/-- The closed form of R64. -/
theorem derivedHeight_eq {D : Descriptor} (hD : D.Fits) {n W : Nat} :
    derivedHeight D n W = 8 * (n / (W * D.bpp)) := by
  unfold derivedHeight
  rw [hD.tileH, Nat.div_div_eq_div_mul, Nat.mul_div_mul_right _ _ (by decide), Nat.mul_comm D.bpp W, Nat.mul_comm]

theorem needEnc_derivedHeight {D : Descriptor} (hD : D.Fits) {n W : Nat} :
    needEnc W (derivedHeight D n W) D.bpp = W * D.bpp * (n / (W * D.bpp)) := by
  rw [derivedHeight_eq hD]
  unfold needEnc
  rw [show W * (8 * (n / (W * D.bpp))) * D.bpp = 8 * (W * D.bpp * (n / (W * D.bpp))) by ring, Nat.mul_div_cancel_left _ (by decide)]

theorem needEnc_derivedHeight_le {D : Descriptor} (hD : D.Fits) {n W : Nat} :
    needEnc W (derivedHeight D n W) D.bpp ≤ n := by
  rw [needEnc_derivedHeight hD]
  exact Nat.mul_div_le _ _

/-- A tile-aligned image with pixels below 2^32 has fewer than 2^32 encoded bytes (R62). -/
theorem needEnc_lt {D : Descriptor} (hD : D.Fits) {W H : Nat} (h : W * H < 2 ^ 32) : needEnc W H D.bpp < 2 ^ 32 := by
  unfold needEnc
  refine Nat.div_lt_of_lt_mul ?_
  have := Nat.mul_le_mul_left (W * H) hD.bpp_le
  omega

/-! ## Geometry of a plan -/

/-- What the geometry of every accepted plan satisfies. -/
structure Plan.Geometry (D : Descriptor) (p : Plan) : Prop where
  width_pos : 0 < p.width
  height_pos : 0 < p.height
  width_mod : p.width % 8 = 0
  height_mod : p.height % 8 = 0
  pixels : p.width * p.height < 2 ^ 32
  need : p.need = needEnc p.width p.height D.bpp

theorem Plan.Geometry.width_lt {D : Descriptor} {p : Plan} (h : p.Geometry D) : p.width < 2 ^ 32 :=
  Nat.lt_of_le_of_lt (Nat.le_mul_of_pos_right _ h.height_pos) h.pixels

theorem Plan.Geometry.height_lt {D : Descriptor} {p : Plan} (h : p.Geometry D) : p.height < 2 ^ 32 :=
  Nat.lt_of_le_of_lt (Nat.le_mul_of_pos_left _ h.width_pos) h.pixels

theorem Plan.Geometry.need_lt {D : Descriptor} {p : Plan} (h : p.Geometry D) (hD : D.Fits) : p.need < 2 ^ 32 :=
  h.need ▸ needEnc_lt hD h.pixels

theorem Plan.Geometry.need_pos {D : Descriptor} {p : Plan} (h : p.Geometry D) (hD : D.Fits) : 0 < p.need := by
  rw [h.need, needEnc_tiles h.width_mod h.height_mod]
  have h1 := h.width_pos; have h2 := h.width_mod; have h3 := h.height_pos; have h4 := h.height_mod; have h5 := hD.bpp_pos
  exact Nat.mul_pos (Nat.mul_pos (by omega) (by omega)) (by omega)

theorem sizeDecPlan_ok {D : Descriptor} {s : State} {p : Plan} (hD : D.Fits) :
    sizeDecPlan D s = .ok p ↔ chosenWidth D s % 8 = 0 ∧ derivedHeight D s.srcLen.toNat (chosenWidth D s) ≠ 0 ∧
      chosenWidth D s * derivedHeight D s.srcLen.toNat (chosenWidth D s) < 2 ^ 32 ∧
      p = ⟨chosenWidth D s, derivedHeight D s.srcLen.toNat (chosenWidth D s),
        needEnc (chosenWidth D s) (derivedHeight D s.srcLen.toNat (chosenWidth D s)) D.bpp, 0, 0⟩ := by
  unfold sizeDecPlan
  simp only [except_bind_ok, selectWidth_ok, deriveHeight_ok, failIf_eq_ok, hD.tileW]
  constructor
  · rintro ⟨W, ⟨rfl, h1⟩, H, ⟨rfl, h2⟩, -, h3, h4⟩
    exact ⟨h1, h2, by omega, (Except.ok.inj h4).symm⟩
  · rintro ⟨h1, h2, h3, rfl⟩
    exact ⟨_, ⟨rfl, h1⟩, _, ⟨rfl, h2⟩, (), by omega, rfl⟩

theorem sizeEncPlan_ok {D : Descriptor} {s : State} {p : Plan} (hD : D.Fits) :
    sizeEncPlan D s = .ok p ↔ s.width.toNat ≠ 0 ∧ s.height.toNat ≠ 0 ∧ s.width.toNat % 8 = 0 ∧ s.height.toNat % 8 = 0 ∧
      s.width.toNat * s.height.toNat < 2 ^ 32 ∧
      p = ⟨s.width.toNat, s.height.toNat, needEnc s.width.toNat s.height.toNat D.bpp, 0, 0⟩ := by
  unfold sizeEncPlan
  simp only [except_bind_ok, geometryCheck_ok, hD.tileW, hD.tileH]
  constructor
  · rintro ⟨-, ⟨h1, h2, h3, h4, h5⟩, h6⟩
    exact ⟨h1, h2, h3, h4, h5, (Except.ok.inj h6).symm⟩
  · rintro ⟨h1, h2, h3, h4, h5, rfl⟩
    exact ⟨(), ⟨h1, h2, h3, h4, h5⟩, rfl⟩

/-- Every declared buffer ends inside the memory space (R59). -/
abbrev State.BuffersFit (s : State) : Prop :=
  s.srcBase.toNat + s.srcLen.toNat ≤ 2 ^ 32 ∧ s.dstBase.toNat + s.dstLen.toNat ≤ 2 ^ 32

/-- Both buffers are present (R36). -/
abbrev State.BuffersPresent (s : State) : Prop := s.srcLen.toNat ≠ 0 ∧ s.dstLen.toNat ≠ 0

theorem notEmpty_ok {s : State} {u : Unit} : notEmpty s = .ok u ↔ s.BuffersPresent := by
  unfold notEmpty State.BuffersPresent
  rw [failIf_eq_ok]
  omega

theorem decodePlan_ok {D : Descriptor} {s : State} {p : Plan} (hD : D.Fits) :
    decodePlan D s = .ok p ↔ s.BuffersPresent ∧
      (s.width.toNat ≠ 0 ∧ s.height.toNat ≠ 0 ∧ s.width.toNat % 8 = 0 ∧ s.height.toNat % 8 = 0 ∧
        s.width.toNat * s.height.toNat < 2 ^ 32) ∧
      needEnc s.width.toNat s.height.toNat D.bpp ≤ s.srcLen.toNat ∧
      s.width.toNat * s.height.toNat ≤ s.dstLen.toNat ∧ s.BuffersFit ∧
      Apart s.srcBase.toNat (needEnc s.width.toNat s.height.toNat D.bpp) s.dstBase.toNat
        (s.width.toNat * s.height.toNat) ∧
      p = ⟨s.width.toNat, s.height.toNat, needEnc s.width.toNat s.height.toNat D.bpp,
        needEnc s.width.toNat s.height.toNat D.bpp, s.width.toNat * s.height.toNat⟩ := by
  unfold decodePlan
  simp only [except_bind_ok, notEmpty_ok, geometryCheck_ok, failIf_eq_ok, checkRegions_ok, hD.tileW, hD.tileH]
  constructor
  · rintro ⟨-, h0, -, h1, -, h2, -, h3, -, ⟨h4, h5⟩, h6⟩
    exact ⟨h0, h1, by omega, by omega, h4, h5, (Except.ok.inj h6).symm⟩
  · rintro ⟨h0, h1, h2, h3, h4, h5, rfl⟩
    exact ⟨(), h0, (), h1, (), by omega, (), by omega, (), ⟨h4, h5⟩, rfl⟩

theorem decodeAutoPlan_ok {D : Descriptor} {s : State} {p : Plan} (hD : D.Fits) :
    decodeAutoPlan D s = .ok p ↔ s.BuffersPresent ∧ chosenWidth D s % 8 = 0 ∧
      derivedHeight D s.srcLen.toNat (chosenWidth D s) ≠ 0 ∧
      chosenWidth D s * derivedHeight D s.srcLen.toNat (chosenWidth D s) < 2 ^ 32 ∧
      chosenWidth D s * derivedHeight D s.srcLen.toNat (chosenWidth D s) ≤ s.dstLen.toNat ∧ s.BuffersFit ∧
      Apart s.srcBase.toNat (needEnc (chosenWidth D s) (derivedHeight D s.srcLen.toNat (chosenWidth D s)) D.bpp)
        s.dstBase.toNat (chosenWidth D s * derivedHeight D s.srcLen.toNat (chosenWidth D s)) ∧
      p = ⟨chosenWidth D s, derivedHeight D s.srcLen.toNat (chosenWidth D s),
        needEnc (chosenWidth D s) (derivedHeight D s.srcLen.toNat (chosenWidth D s)) D.bpp,
        needEnc (chosenWidth D s) (derivedHeight D s.srcLen.toNat (chosenWidth D s)) D.bpp,
        chosenWidth D s * derivedHeight D s.srcLen.toNat (chosenWidth D s)⟩ := by
  unfold decodeAutoPlan
  simp only [except_bind_ok, notEmpty_ok, selectWidth_ok, deriveHeight_ok, failIf_eq_ok, checkRegions_ok, hD.tileW]
  constructor
  · rintro ⟨-, h0, W, ⟨rfl, h1⟩, H, ⟨rfl, h2⟩, -, h3, -, h4, -, ⟨h5, h6⟩, h7⟩
    exact ⟨h0, h1, h2, by omega, by omega, h5, h6, (Except.ok.inj h7).symm⟩
  · rintro ⟨h0, h1, h2, h3, h4, h5, h6, rfl⟩
    exact ⟨(), h0, _, ⟨rfl, h1⟩, _, ⟨rfl, h2⟩, (), by omega, (), by omega, (), ⟨h5, h6⟩, rfl⟩

theorem encodePlan_ok {D : Descriptor} {s : State} {p : Plan} (hD : D.Fits) :
    encodePlan D s = .ok p ↔ s.BuffersPresent ∧
      (s.width.toNat ≠ 0 ∧ s.height.toNat ≠ 0 ∧ s.width.toNat % 8 = 0 ∧ s.height.toNat % 8 = 0 ∧
        s.width.toNat * s.height.toNat < 2 ^ 32) ∧
      s.width.toNat * s.height.toNat ≤ s.srcLen.toNat ∧
      needEnc s.width.toNat s.height.toNat D.bpp ≤ s.dstLen.toNat ∧ s.BuffersFit ∧
      Apart s.srcBase.toNat (s.width.toNat * s.height.toNat) s.dstBase.toNat
        (needEnc s.width.toNat s.height.toNat D.bpp) ∧
      p = ⟨s.width.toNat, s.height.toNat, needEnc s.width.toNat s.height.toNat D.bpp,
        s.width.toNat * s.height.toNat, needEnc s.width.toNat s.height.toNat D.bpp⟩ := by
  unfold encodePlan
  simp only [except_bind_ok, notEmpty_ok, geometryCheck_ok, failIf_eq_ok, checkRegions_ok, hD.tileW, hD.tileH]
  constructor
  · rintro ⟨-, h0, -, h1, -, h2, -, h3, -, ⟨h4, h5⟩, h6⟩
    exact ⟨h0, h1, by omega, by omega, h4, h5, (Except.ok.inj h6).symm⟩
  · rintro ⟨h0, h1, h2, h3, h4, h5, rfl⟩
    exact ⟨(), h0, (), h1, (), by omega, (), by omega, (), ⟨h4, h5⟩, rfl⟩

/-- What every plan of a memory command gives its walk. -/
structure Plan.Sound (D : Descriptor) (s : State) (p : Plan) : Prop where
  geometry : p.Geometry D
  src_le : p.srcUsed ≤ s.srcLen.toNat
  dst_le : p.dstUsed ≤ s.dstLen.toNat
  fit : s.BuffersFit
  apart : Apart s.srcBase.toNat p.srcUsed s.dstBase.toNat p.dstUsed

theorem Plan.Sound.dst_end {D : Descriptor} {s : State} {p : Plan} (h : p.Sound D s) :
    s.dstBase.toNat + p.dstUsed ≤ 2 ^ 32 := by
  have := h.dst_le; have := h.fit.2; omega

theorem Plan.Sound.src_end {D : Descriptor} {s : State} {p : Plan} (h : p.Sound D s) :
    s.srcBase.toNat + p.srcUsed ≤ 2 ^ 32 := by
  have := h.src_le; have := h.fit.1; omega

theorem chosenWidth_pos {D : Descriptor} (hD : D.Fits) (s : State) : 0 < chosenWidth D s := by
  unfold chosenWidth
  split
  · omega
  · exact hD.widthPos

theorem decodePlan_sound {D : Descriptor} {s : State} {p : Plan} (hD : D.Fits) (h : decodePlan D s = .ok p) :
    p.Sound D s ∧ p.srcUsed = p.need ∧ p.dstUsed = p.width * p.height := by
  obtain ⟨-, ⟨h1, h2, h3, h4, h5⟩, h6, h7, h8, h9, rfl⟩ := (decodePlan_ok hD).mp h
  exact ⟨⟨⟨Nat.pos_of_ne_zero h1, Nat.pos_of_ne_zero h2, h3, h4, h5, rfl⟩, h6, h7, h8, h9⟩, rfl, rfl⟩

theorem decodeAutoPlan_sound {D : Descriptor} {s : State} {p : Plan} (hD : D.Fits) (h : decodeAutoPlan D s = .ok p) :
    p.Sound D s ∧ p.srcUsed = p.need ∧ p.dstUsed = p.width * p.height := by
  obtain ⟨-, h1, h2, h3, h4, h5, h6, rfl⟩ := (decodeAutoPlan_ok hD).mp h
  refine ⟨⟨⟨chosenWidth_pos hD s, Nat.pos_of_ne_zero h2, h1, ?_, h3, rfl⟩, needEnc_derivedHeight_le hD, h4, h5, h6⟩, rfl, rfl⟩
  show derivedHeight D _ _ % 8 = 0
  rw [derivedHeight_eq hD]
  exact Nat.mul_mod_right _ _

theorem encodePlan_sound {D : Descriptor} {s : State} {p : Plan} (hD : D.Fits) (h : encodePlan D s = .ok p) :
    p.Sound D s ∧ p.srcUsed = p.width * p.height ∧ p.dstUsed = p.need := by
  obtain ⟨-, ⟨h1, h2, h3, h4, h5⟩, h6, h7, h8, h9, rfl⟩ := (encodePlan_ok hD).mp h
  exact ⟨⟨⟨Nat.pos_of_ne_zero h1, Nat.pos_of_ne_zero h2, h3, h4, h5, rfl⟩, h6, h7, h8, h9⟩, rfl, rfl⟩

theorem memoryPlan_sound {D : Descriptor} {s : State} {i : Instr} {p : Plan} (hD : D.Fits) (h : memoryPlan D s i = some p) :
    p.Sound D s := by
  have toOk : ∀ {x : Except ErrCode Plan}, x.toOption = some p → x = .ok p := fun {x} h => by
    cases x with
    | error e => exact nomatch h
    | ok q => exact congrArg Except.ok (Option.some.inj h)
  match i, h with
  | .decode _, h => exact (decodePlan_sound hD (toOk h)).1
  | .decodeAuto _, h => exact (decodeAutoPlan_sound hD (toOk h)).1
  | .encode _, h => exact (encodePlan_sound hD (toOk h)).1

end Sys2Proof.Machine
end

