-- ==== Sys2Proof/Laws/State.lean ====
section
/-! SUPPORT. What each named update of State does to each field, true by unfolding the update. -/

namespace Sys2Proof.Machine

/-! ## STATUS -/

@[simp] theorem Status.accepted_busy (st : Status) : (st.accepted).busy = true := rfl
@[simp] theorem Status.accepted_done (st : Status) : (st.accepted).done = false := rfl
@[simp] theorem Status.accepted_range (st : Status) : (st.accepted).range = false := rfl
@[simp] theorem Status.accepted_ovr (st : Status) : (st.accepted).ovr = st.ovr := rfl
@[simp] theorem Status.accepted_err (st : Status) : (st.accepted).err = .ok := rfl

@[simp] theorem Status.ended_busy (st : Status) (e : ErrCode) : (st.ended e).busy = false := rfl
@[simp] theorem Status.ended_done (st : Status) (e : ErrCode) : (st.ended e).done = true := rfl
@[simp] theorem Status.ended_range (st : Status) (e : ErrCode) : (st.ended e).range = st.range := rfl
@[simp] theorem Status.ended_ovr (st : Status) (e : ErrCode) : (st.ended e).ovr = st.ovr := rfl
@[simp] theorem Status.ended_err (st : Status) (e : ErrCode) : (st.ended e).err = e := rfl

@[simp] theorem Status.dropped_busy (st : Status) : (st.dropped).busy = st.busy := rfl
@[simp] theorem Status.dropped_done (st : Status) : (st.dropped).done = st.done := rfl
@[simp] theorem Status.dropped_range (st : Status) : (st.dropped).range = st.range := rfl
@[simp] theorem Status.dropped_ovr (st : Status) : (st.dropped).ovr = true := rfl
@[simp] theorem Status.dropped_err (st : Status) : (st.dropped).err = st.err := rfl

@[simp] theorem Status.hostWrite_busy (st : Status) (v : Word) : (st.hostWrite v).busy = st.busy := rfl
@[simp] theorem Status.hostWrite_done (st : Status) (v : Word) : (st.hostWrite v).done = st.done := rfl
@[simp] theorem Status.hostWrite_range (st : Status) (v : Word) : (st.hostWrite v).range = st.range := rfl
@[simp] theorem Status.hostWrite_ovr (st : Status) (v : Word) : (st.hostWrite v).ovr = (st.ovr && !v.getLsbD 3) := rfl
@[simp] theorem Status.hostWrite_err (st : Status) (v : Word) : (st.hostWrite v).err = st.err := rfl

/-! ## State.setStatus -/

@[simp] theorem State.setStatus_params (s : State) (st : Status) : (State.setStatus s st).params = s.params := rfl
@[simp] theorem State.setStatus_cmd (s : State) (st : Status) : (State.setStatus s st).cmd = s.cmd := rfl
@[simp] theorem State.setStatus_status (s : State) (st : Status) : (State.setStatus s st).status = st := rfl
@[simp] theorem State.setStatus_srcBase (s : State) (st : Status) : (State.setStatus s st).srcBase = s.srcBase := rfl
@[simp] theorem State.setStatus_srcLen (s : State) (st : Status) : (State.setStatus s st).srcLen = s.srcLen := rfl
@[simp] theorem State.setStatus_dstBase (s : State) (st : Status) : (State.setStatus s st).dstBase = s.dstBase := rfl
@[simp] theorem State.setStatus_dstLen (s : State) (st : Status) : (State.setStatus s st).dstLen = s.dstLen := rfl
@[simp] theorem State.setStatus_width (s : State) (st : Status) : (State.setStatus s st).width = s.width := rfl
@[simp] theorem State.setStatus_height (s : State) (st : Status) : (State.setStatus s st).height = s.height := rfl
@[simp] theorem State.setStatus_resWidth (s : State) (st : Status) : (State.setStatus s st).resWidth = s.resWidth := rfl
@[simp] theorem State.setStatus_resHeight (s : State) (st : Status) : (State.setStatus s st).resHeight = s.resHeight := rfl
@[simp] theorem State.setStatus_resBytes (s : State) (st : Status) : (State.setStatus s st).resBytes = s.resBytes := rfl
@[simp] theorem State.setStatus_descW0 (s : State) (st : Status) : (State.setStatus s st).descW0 = s.descW0 := rfl
@[simp] theorem State.setStatus_descW1 (s : State) (st : Status) : (State.setStatus s st).descW1 = s.descW1 := rfl
@[simp] theorem State.setStatus_descW2 (s : State) (st : Status) : (State.setStatus s st).descW2 = s.descW2 := rfl
@[simp] theorem State.setStatus_hidden (s : State) (st : Status) : (State.setStatus s st).hidden = s.hidden := rfl
@[simp] theorem State.setStatus_mem (s : State) (st : Status) : (State.setStatus s st).mem = s.mem := rfl
@[simp] theorem State.setStatus_pending (s : State) (st : Status) : (State.setStatus s st).pending = s.pending := rfl
@[simp] theorem State.setStatus_wait (s : State) (st : Status) : (State.setStatus s st).wait = s.wait := rfl
@[simp] theorem State.setStatus_rangeWait (s : State) (st : Status) : (State.setStatus s st).rangeWait = s.rangeWait := rfl
@[simp] theorem State.setStatus_touched (s : State) (st : Status) : (State.setStatus s st).touched = s.touched := rfl
@[simp] theorem State.setStatus_hostData (s : State) (st : Status) : (State.setStatus s st).hostData = s.hostData := rfl
@[simp] theorem State.setStatus_draws (s : State) (st : Status) : (State.setStatus s st).draws = s.draws := rfl

/-! ## State.setMem -/

@[simp] theorem State.setMem_params (s : State) (m : Memory) : (State.setMem s m).params = s.params := rfl
@[simp] theorem State.setMem_cmd (s : State) (m : Memory) : (State.setMem s m).cmd = s.cmd := rfl
@[simp] theorem State.setMem_status (s : State) (m : Memory) : (State.setMem s m).status = s.status := rfl
@[simp] theorem State.setMem_srcBase (s : State) (m : Memory) : (State.setMem s m).srcBase = s.srcBase := rfl
@[simp] theorem State.setMem_srcLen (s : State) (m : Memory) : (State.setMem s m).srcLen = s.srcLen := rfl
@[simp] theorem State.setMem_dstBase (s : State) (m : Memory) : (State.setMem s m).dstBase = s.dstBase := rfl
@[simp] theorem State.setMem_dstLen (s : State) (m : Memory) : (State.setMem s m).dstLen = s.dstLen := rfl
@[simp] theorem State.setMem_width (s : State) (m : Memory) : (State.setMem s m).width = s.width := rfl
@[simp] theorem State.setMem_height (s : State) (m : Memory) : (State.setMem s m).height = s.height := rfl
@[simp] theorem State.setMem_resWidth (s : State) (m : Memory) : (State.setMem s m).resWidth = s.resWidth := rfl
@[simp] theorem State.setMem_resHeight (s : State) (m : Memory) : (State.setMem s m).resHeight = s.resHeight := rfl
@[simp] theorem State.setMem_resBytes (s : State) (m : Memory) : (State.setMem s m).resBytes = s.resBytes := rfl
@[simp] theorem State.setMem_descW0 (s : State) (m : Memory) : (State.setMem s m).descW0 = s.descW0 := rfl
@[simp] theorem State.setMem_descW1 (s : State) (m : Memory) : (State.setMem s m).descW1 = s.descW1 := rfl
@[simp] theorem State.setMem_descW2 (s : State) (m : Memory) : (State.setMem s m).descW2 = s.descW2 := rfl
@[simp] theorem State.setMem_hidden (s : State) (m : Memory) : (State.setMem s m).hidden = s.hidden := rfl
@[simp] theorem State.setMem_mem (s : State) (m : Memory) : (State.setMem s m).mem = m := rfl
@[simp] theorem State.setMem_pending (s : State) (m : Memory) : (State.setMem s m).pending = s.pending := rfl
@[simp] theorem State.setMem_wait (s : State) (m : Memory) : (State.setMem s m).wait = s.wait := rfl
@[simp] theorem State.setMem_rangeWait (s : State) (m : Memory) : (State.setMem s m).rangeWait = s.rangeWait := rfl
@[simp] theorem State.setMem_touched (s : State) (m : Memory) : (State.setMem s m).touched = s.touched := rfl
@[simp] theorem State.setMem_hostData (s : State) (m : Memory) : (State.setMem s m).hostData = s.hostData := rfl
@[simp] theorem State.setMem_draws (s : State) (m : Memory) : (State.setMem s m).draws = s.draws := rfl

/-! ## State.setRes -/

@[simp] theorem State.setRes_params (s : State) (w h b : Word) : (State.setRes s w h b).params = s.params := rfl
@[simp] theorem State.setRes_cmd (s : State) (w h b : Word) : (State.setRes s w h b).cmd = s.cmd := rfl
@[simp] theorem State.setRes_status (s : State) (w h b : Word) : (State.setRes s w h b).status = s.status := rfl
@[simp] theorem State.setRes_srcBase (s : State) (w h b : Word) : (State.setRes s w h b).srcBase = s.srcBase := rfl
@[simp] theorem State.setRes_srcLen (s : State) (w h b : Word) : (State.setRes s w h b).srcLen = s.srcLen := rfl
@[simp] theorem State.setRes_dstBase (s : State) (w h b : Word) : (State.setRes s w h b).dstBase = s.dstBase := rfl
@[simp] theorem State.setRes_dstLen (s : State) (w h b : Word) : (State.setRes s w h b).dstLen = s.dstLen := rfl
@[simp] theorem State.setRes_width (s : State) (w h b : Word) : (State.setRes s w h b).width = s.width := rfl
@[simp] theorem State.setRes_height (s : State) (w h b : Word) : (State.setRes s w h b).height = s.height := rfl
@[simp] theorem State.setRes_resWidth (s : State) (w h b : Word) : (State.setRes s w h b).resWidth = w := rfl
@[simp] theorem State.setRes_resHeight (s : State) (w h b : Word) : (State.setRes s w h b).resHeight = h := rfl
@[simp] theorem State.setRes_resBytes (s : State) (w h b : Word) : (State.setRes s w h b).resBytes = b := rfl
@[simp] theorem State.setRes_descW0 (s : State) (w h b : Word) : (State.setRes s w h b).descW0 = s.descW0 := rfl
@[simp] theorem State.setRes_descW1 (s : State) (w h b : Word) : (State.setRes s w h b).descW1 = s.descW1 := rfl
@[simp] theorem State.setRes_descW2 (s : State) (w h b : Word) : (State.setRes s w h b).descW2 = s.descW2 := rfl
@[simp] theorem State.setRes_hidden (s : State) (w h b : Word) : (State.setRes s w h b).hidden = s.hidden := rfl
@[simp] theorem State.setRes_mem (s : State) (w h b : Word) : (State.setRes s w h b).mem = s.mem := rfl
@[simp] theorem State.setRes_pending (s : State) (w h b : Word) : (State.setRes s w h b).pending = s.pending := rfl
@[simp] theorem State.setRes_wait (s : State) (w h b : Word) : (State.setRes s w h b).wait = s.wait := rfl
@[simp] theorem State.setRes_rangeWait (s : State) (w h b : Word) : (State.setRes s w h b).rangeWait = s.rangeWait := rfl
@[simp] theorem State.setRes_touched (s : State) (w h b : Word) : (State.setRes s w h b).touched = s.touched := rfl
@[simp] theorem State.setRes_hostData (s : State) (w h b : Word) : (State.setRes s w h b).hostData = s.hostData := rfl
@[simp] theorem State.setRes_draws (s : State) (w h b : Word) : (State.setRes s w h b).draws = s.draws := rfl

/-! ## State.setDesc -/

@[simp] theorem State.setDesc_params (s : State) (w0 w1 w2 : Word) : (State.setDesc s w0 w1 w2).params = s.params := rfl
@[simp] theorem State.setDesc_cmd (s : State) (w0 w1 w2 : Word) : (State.setDesc s w0 w1 w2).cmd = s.cmd := rfl
@[simp] theorem State.setDesc_status (s : State) (w0 w1 w2 : Word) : (State.setDesc s w0 w1 w2).status = s.status := rfl
@[simp] theorem State.setDesc_srcBase (s : State) (w0 w1 w2 : Word) : (State.setDesc s w0 w1 w2).srcBase = s.srcBase := rfl
@[simp] theorem State.setDesc_srcLen (s : State) (w0 w1 w2 : Word) : (State.setDesc s w0 w1 w2).srcLen = s.srcLen := rfl
@[simp] theorem State.setDesc_dstBase (s : State) (w0 w1 w2 : Word) : (State.setDesc s w0 w1 w2).dstBase = s.dstBase := rfl
@[simp] theorem State.setDesc_dstLen (s : State) (w0 w1 w2 : Word) : (State.setDesc s w0 w1 w2).dstLen = s.dstLen := rfl
@[simp] theorem State.setDesc_width (s : State) (w0 w1 w2 : Word) : (State.setDesc s w0 w1 w2).width = s.width := rfl
@[simp] theorem State.setDesc_height (s : State) (w0 w1 w2 : Word) : (State.setDesc s w0 w1 w2).height = s.height := rfl
@[simp] theorem State.setDesc_resWidth (s : State) (w0 w1 w2 : Word) : (State.setDesc s w0 w1 w2).resWidth = s.resWidth := rfl
@[simp] theorem State.setDesc_resHeight (s : State) (w0 w1 w2 : Word) : (State.setDesc s w0 w1 w2).resHeight = s.resHeight := rfl
@[simp] theorem State.setDesc_resBytes (s : State) (w0 w1 w2 : Word) : (State.setDesc s w0 w1 w2).resBytes = s.resBytes := rfl
@[simp] theorem State.setDesc_descW0 (s : State) (w0 w1 w2 : Word) : (State.setDesc s w0 w1 w2).descW0 = w0 := rfl
@[simp] theorem State.setDesc_descW1 (s : State) (w0 w1 w2 : Word) : (State.setDesc s w0 w1 w2).descW1 = w1 := rfl
@[simp] theorem State.setDesc_descW2 (s : State) (w0 w1 w2 : Word) : (State.setDesc s w0 w1 w2).descW2 = w2 := rfl
@[simp] theorem State.setDesc_hidden (s : State) (w0 w1 w2 : Word) : (State.setDesc s w0 w1 w2).hidden = s.hidden := rfl
@[simp] theorem State.setDesc_mem (s : State) (w0 w1 w2 : Word) : (State.setDesc s w0 w1 w2).mem = s.mem := rfl
@[simp] theorem State.setDesc_pending (s : State) (w0 w1 w2 : Word) : (State.setDesc s w0 w1 w2).pending = s.pending := rfl
@[simp] theorem State.setDesc_wait (s : State) (w0 w1 w2 : Word) : (State.setDesc s w0 w1 w2).wait = s.wait := rfl
@[simp] theorem State.setDesc_rangeWait (s : State) (w0 w1 w2 : Word) : (State.setDesc s w0 w1 w2).rangeWait = s.rangeWait := rfl
@[simp] theorem State.setDesc_touched (s : State) (w0 w1 w2 : Word) : (State.setDesc s w0 w1 w2).touched = s.touched := rfl
@[simp] theorem State.setDesc_hostData (s : State) (w0 w1 w2 : Word) : (State.setDesc s w0 w1 w2).hostData = s.hostData := rfl
@[simp] theorem State.setDesc_draws (s : State) (w0 w1 w2 : Word) : (State.setDesc s w0 w1 w2).draws = s.draws := rfl

/-! ## State.drawHidden -/

@[simp] theorem State.drawHidden_params (s : State) : (State.drawHidden s).params = s.params := rfl
@[simp] theorem State.drawHidden_cmd (s : State) : (State.drawHidden s).cmd = s.cmd := rfl
@[simp] theorem State.drawHidden_status (s : State) : (State.drawHidden s).status = s.status := rfl
@[simp] theorem State.drawHidden_srcBase (s : State) : (State.drawHidden s).srcBase = s.srcBase := rfl
@[simp] theorem State.drawHidden_srcLen (s : State) : (State.drawHidden s).srcLen = s.srcLen := rfl
@[simp] theorem State.drawHidden_dstBase (s : State) : (State.drawHidden s).dstBase = s.dstBase := rfl
@[simp] theorem State.drawHidden_dstLen (s : State) : (State.drawHidden s).dstLen = s.dstLen := rfl
@[simp] theorem State.drawHidden_width (s : State) : (State.drawHidden s).width = s.width := rfl
@[simp] theorem State.drawHidden_height (s : State) : (State.drawHidden s).height = s.height := rfl
@[simp] theorem State.drawHidden_resWidth (s : State) : (State.drawHidden s).resWidth = s.resWidth := rfl
@[simp] theorem State.drawHidden_resHeight (s : State) : (State.drawHidden s).resHeight = s.resHeight := rfl
@[simp] theorem State.drawHidden_resBytes (s : State) : (State.drawHidden s).resBytes = s.resBytes := rfl
@[simp] theorem State.drawHidden_descW0 (s : State) : (State.drawHidden s).descW0 = s.descW0 := rfl
@[simp] theorem State.drawHidden_descW1 (s : State) : (State.drawHidden s).descW1 = s.descW1 := rfl
@[simp] theorem State.drawHidden_descW2 (s : State) : (State.drawHidden s).descW2 = s.descW2 := rfl
@[simp] theorem State.drawHidden_hidden (s : State) : (State.drawHidden s).hidden = Config.idleHidden s.draws := rfl
@[simp] theorem State.drawHidden_mem (s : State) : (State.drawHidden s).mem = s.mem := rfl
@[simp] theorem State.drawHidden_pending (s : State) : (State.drawHidden s).pending = s.pending := rfl
@[simp] theorem State.drawHidden_wait (s : State) : (State.drawHidden s).wait = s.wait := rfl
@[simp] theorem State.drawHidden_rangeWait (s : State) : (State.drawHidden s).rangeWait = s.rangeWait := rfl
@[simp] theorem State.drawHidden_touched (s : State) : (State.drawHidden s).touched = s.touched := rfl
@[simp] theorem State.drawHidden_hostData (s : State) : (State.drawHidden s).hostData = s.hostData := rfl
@[simp] theorem State.drawHidden_draws (s : State) : (State.drawHidden s).draws = s.draws + 1 := rfl

/-! ## raiseErr -/

@[simp] theorem raiseErr_params (e : ErrCode) (s : State) : (raiseErr e s).params = s.params := rfl
@[simp] theorem raiseErr_cmd (e : ErrCode) (s : State) : (raiseErr e s).cmd = s.cmd := rfl
@[simp] theorem raiseErr_status (e : ErrCode) (s : State) : (raiseErr e s).status = s.status.ended e := rfl
@[simp] theorem raiseErr_srcBase (e : ErrCode) (s : State) : (raiseErr e s).srcBase = s.srcBase := rfl
@[simp] theorem raiseErr_srcLen (e : ErrCode) (s : State) : (raiseErr e s).srcLen = s.srcLen := rfl
@[simp] theorem raiseErr_dstBase (e : ErrCode) (s : State) : (raiseErr e s).dstBase = s.dstBase := rfl
@[simp] theorem raiseErr_dstLen (e : ErrCode) (s : State) : (raiseErr e s).dstLen = s.dstLen := rfl
@[simp] theorem raiseErr_width (e : ErrCode) (s : State) : (raiseErr e s).width = s.width := rfl
@[simp] theorem raiseErr_height (e : ErrCode) (s : State) : (raiseErr e s).height = s.height := rfl
@[simp] theorem raiseErr_resWidth (e : ErrCode) (s : State) : (raiseErr e s).resWidth = s.resWidth := rfl
@[simp] theorem raiseErr_resHeight (e : ErrCode) (s : State) : (raiseErr e s).resHeight = s.resHeight := rfl
@[simp] theorem raiseErr_resBytes (e : ErrCode) (s : State) : (raiseErr e s).resBytes = s.resBytes := rfl
@[simp] theorem raiseErr_descW0 (e : ErrCode) (s : State) : (raiseErr e s).descW0 = s.descW0 := rfl
@[simp] theorem raiseErr_descW1 (e : ErrCode) (s : State) : (raiseErr e s).descW1 = s.descW1 := rfl
@[simp] theorem raiseErr_descW2 (e : ErrCode) (s : State) : (raiseErr e s).descW2 = s.descW2 := rfl
@[simp] theorem raiseErr_hidden (e : ErrCode) (s : State) : (raiseErr e s).hidden = s.hidden := rfl
@[simp] theorem raiseErr_mem (e : ErrCode) (s : State) : (raiseErr e s).mem = s.mem := rfl
@[simp] theorem raiseErr_pending (e : ErrCode) (s : State) : (raiseErr e s).pending = s.pending := rfl
@[simp] theorem raiseErr_wait (e : ErrCode) (s : State) : (raiseErr e s).wait = s.wait := rfl
@[simp] theorem raiseErr_rangeWait (e : ErrCode) (s : State) : (raiseErr e s).rangeWait = s.rangeWait := rfl
@[simp] theorem raiseErr_touched (e : ErrCode) (s : State) : (raiseErr e s).touched = s.touched := rfl
@[simp] theorem raiseErr_hostData (e : ErrCode) (s : State) : (raiseErr e s).hostData = s.hostData := rfl
@[simp] theorem raiseErr_draws (e : ErrCode) (s : State) : (raiseErr e s).draws = s.draws := rfl

/-! ## finish -/

@[simp] theorem finish_params (s : State) : (finish s).params = s.params := rfl
@[simp] theorem finish_cmd (s : State) : (finish s).cmd = s.cmd := rfl
@[simp] theorem finish_status (s : State) : (finish s).status = s.status.ended .ok := rfl
@[simp] theorem finish_srcBase (s : State) : (finish s).srcBase = s.srcBase := rfl
@[simp] theorem finish_srcLen (s : State) : (finish s).srcLen = s.srcLen := rfl
@[simp] theorem finish_dstBase (s : State) : (finish s).dstBase = s.dstBase := rfl
@[simp] theorem finish_dstLen (s : State) : (finish s).dstLen = s.dstLen := rfl
@[simp] theorem finish_width (s : State) : (finish s).width = s.width := rfl
@[simp] theorem finish_height (s : State) : (finish s).height = s.height := rfl
@[simp] theorem finish_resWidth (s : State) : (finish s).resWidth = s.resWidth := rfl
@[simp] theorem finish_resHeight (s : State) : (finish s).resHeight = s.resHeight := rfl
@[simp] theorem finish_resBytes (s : State) : (finish s).resBytes = s.resBytes := rfl
@[simp] theorem finish_descW0 (s : State) : (finish s).descW0 = s.descW0 := rfl
@[simp] theorem finish_descW1 (s : State) : (finish s).descW1 = s.descW1 := rfl
@[simp] theorem finish_descW2 (s : State) : (finish s).descW2 = s.descW2 := rfl
@[simp] theorem finish_hidden (s : State) : (finish s).hidden = s.hidden := rfl
@[simp] theorem finish_mem (s : State) : (finish s).mem = s.mem := rfl
@[simp] theorem finish_pending (s : State) : (finish s).pending = s.pending := rfl
@[simp] theorem finish_wait (s : State) : (finish s).wait = s.wait := rfl
@[simp] theorem finish_rangeWait (s : State) : (finish s).rangeWait = s.rangeWait := rfl
@[simp] theorem finish_touched (s : State) : (finish s).touched = s.touched := rfl
@[simp] theorem finish_hostData (s : State) : (finish s).hostData = s.hostData := rfl
@[simp] theorem finish_draws (s : State) : (finish s).draws = s.draws := rfl

/-! ## accept -/

@[simp] theorem accept_params (v : Word) (s : State) : (accept v s).params = s.params := rfl
@[simp] theorem accept_cmd (v : Word) (s : State) : (accept v s).cmd = v := rfl
@[simp] theorem accept_status (v : Word) (s : State) : (accept v s).status = s.status.accepted := rfl
@[simp] theorem accept_srcBase (v : Word) (s : State) : (accept v s).srcBase = s.srcBase := rfl
@[simp] theorem accept_srcLen (v : Word) (s : State) : (accept v s).srcLen = s.srcLen := rfl
@[simp] theorem accept_dstBase (v : Word) (s : State) : (accept v s).dstBase = s.dstBase := rfl
@[simp] theorem accept_dstLen (v : Word) (s : State) : (accept v s).dstLen = s.dstLen := rfl
@[simp] theorem accept_width (v : Word) (s : State) : (accept v s).width = s.width := rfl
@[simp] theorem accept_height (v : Word) (s : State) : (accept v s).height = s.height := rfl
@[simp] theorem accept_resWidth (v : Word) (s : State) : (accept v s).resWidth = 0 := rfl
@[simp] theorem accept_resHeight (v : Word) (s : State) : (accept v s).resHeight = 0 := rfl
@[simp] theorem accept_resBytes (v : Word) (s : State) : (accept v s).resBytes = 0 := rfl
@[simp] theorem accept_descW0 (v : Word) (s : State) : (accept v s).descW0 = 0 := rfl
@[simp] theorem accept_descW1 (v : Word) (s : State) : (accept v s).descW1 = 0 := rfl
@[simp] theorem accept_descW2 (v : Word) (s : State) : (accept v s).descW2 = 0 := rfl
@[simp] theorem accept_hidden (v : Word) (s : State) : (accept v s).hidden = s.hidden := rfl
@[simp] theorem accept_mem (v : Word) (s : State) : (accept v s).mem = s.mem := rfl
@[simp] theorem accept_pending (v : Word) (s : State) : (accept v s).pending = s.pending := rfl
@[simp] theorem accept_wait (v : Word) (s : State) : (accept v s).wait = Config.latency s.draws := rfl
@[simp] theorem accept_rangeWait (v : Word) (s : State) : (accept v s).rangeWait = Config.rangeMoment s.draws := rfl
@[simp] theorem accept_touched (v : Word) (s : State) : (accept v s).touched = Touched.nothing := rfl
@[simp] theorem accept_hostData (v : Word) (s : State) : (accept v s).hostData = s.hostData := rfl
@[simp] theorem accept_draws (v : Word) (s : State) : (accept v s).draws = s.draws + 1 := rfl

end Sys2Proof.Machine
end

