-- ==== Sys2Proof/Laws/Commands.lean ====
section
/-! SUPPORT. What each shared operation of a command can do, said once: the prologue, the size commands, the memory commands. -/

namespace Sys2Proof.Machine

/-! ## The prologue (R56) -/

theorem withFormat_unknown {fmt : Nat} {body : Descriptor → State → State} {s : State} (h : rom s.params fmt = none) :
    withFormat fmt body s = raiseErr .unknownFormat s := by
  unfold withFormat; rw [h]

theorem withFormat_known {fmt : Nat} {body : Descriptor → State → State} {s : State} {D : Descriptor}
    (h : rom s.params fmt = some D) : withFormat fmt body s = body D (s.setDesc D.w0 D.w1 D.w2) := by
  unfold withFormat; rw [h]

/-- The body of each command (R56). -/
def bodyOf : Instr → Descriptor → State → State
  | .lookup _ => fun _ s => finish s
  | .sizeDec _ => fun D s => runSizeCommand (sizeDecPlan D s) s
  | .sizeEnc _ => fun D s => runSizeCommand (sizeEncPlan D s) s
  | .decode _ => fun D s => runMemoryCommand false (decodePlan D s)
      (fun p => decodeTiles D s.srcBase.toNat s.dstBase.toNat p.width p.height) s
  | .decodeAuto _ => fun D s => runMemoryCommand false (decodeAutoPlan D s)
      (fun p => decodeTiles D s.srcBase.toNat s.dstBase.toNat p.width p.height) s
  | .encode _ => fun D s => runMemoryCommand true (encodePlan D s)
      (fun p => encodeTiles D s.srcBase.toNat s.dstBase.toNat p.width p.height) s

/-- Every command is the prologue and then its body; the machine never stops. -/
theorem exec_eq (i : Instr) (s : State) : exec i s = .next (withFormat i.fmt (bodyOf i) s) := by
  cases i <;> rfl

theorem exec_unknown {i : Instr} {s : State} (h : rom s.params i.fmt = none) :
    exec i s = .next (raiseErr .unknownFormat s) := by
  rw [exec_eq, withFormat_unknown h]

theorem exec_known {i : Instr} {s : State} {D : Descriptor} (h : rom s.params i.fmt = some D) :
    exec i s = .next (bodyOf i D (s.setDesc D.w0 D.w1 D.w2)) := by
  rw [exec_eq, withFormat_known h]

/-! ## Size commands -/

theorem runSizeCommand_error {e : ErrCode} {s : State} {x : Except ErrCode Plan} (h : x = .error e) :
    runSizeCommand x s = raiseErr e s := by
  rw [h]; rfl

theorem runSizeCommand_ok {p : Plan} {s : State} {x : Except ErrCode Plan} (h : x = .ok p) :
    runSizeCommand x s = finish (s.setRes (wordOf p.width) (wordOf p.height) (wordOf p.need)) := by
  rw [h]; rfl

/-! ## Memory commands -/

theorem busErrorHits_of_not {s : State} (h : s.params.busErrors = false) : busErrorHits s = false := by
  unfold busErrorHits; rw [h]; rfl

theorem runMemoryCommand_error {e : ErrCode} {s : State} {isEncode : Bool} {x : Except ErrCode Plan}
    {walk : Plan → Datapath → Datapath} (h : x = .error e) : runMemoryCommand isEncode x walk s = raiseErr e s := by
  rw [h]; rfl

theorem runMemoryCommand_busError {p : Plan} {s : State} {isEncode : Bool} {x : Except ErrCode Plan}
    {walk : Plan → Datapath → Datapath} (h : x = .ok p) (hb : busErrorHits s = true) :
    runMemoryCommand isEncode x walk s = raiseErr .busError (spoilForBusError isEncode p s) := by
  rw [h]; exact if_pos hb

theorem runMemoryCommand_ok {p : Plan} {s : State} {isEncode : Bool} {x : Except ErrCode Plan}
    {walk : Plan → Datapath → Datapath} (h : x = .ok p) (hb : busErrorHits s = false) :
    runMemoryCommand isEncode x walk s =
      finish ((afterWalk isEncode p (walk p (Datapath.start s)) s).setRes
        (wordOf p.width) (wordOf p.height) (wordOf p.need)) := by
  rw [h]; exact if_neg (by simp [hb])

/-- A memory command ends in one of three ways. -/
theorem runMemoryCommand_cases (isEncode : Bool) (x : Except ErrCode Plan) (walk : Plan → Datapath → Datapath) (s : State) :
    (∃ e, x = .error e ∧ runMemoryCommand isEncode x walk s = raiseErr e s) ∨
    (∃ p, x = .ok p ∧ busErrorHits s = true ∧
      runMemoryCommand isEncode x walk s = raiseErr .busError (spoilForBusError isEncode p s)) ∨
    (∃ p, x = .ok p ∧ busErrorHits s = false ∧ runMemoryCommand isEncode x walk s =
      finish ((afterWalk isEncode p (walk p (Datapath.start s)) s).setRes (wordOf p.width) (wordOf p.height) (wordOf p.need))) := by
  cases x with
  | error e => exact .inl ⟨e, rfl, rfl⟩
  | ok p =>
    cases hb : busErrorHits s with
    | true => exact .inr (.inl ⟨p, rfl, rfl, runMemoryCommand_busError rfl hb⟩)
    | false => exact .inr (.inr ⟨p, rfl, rfl, runMemoryCommand_ok rfl hb⟩)

/-! ## The host's writes during a command (R39 item 3) -/

/-- One byte the host wrote stays or not. -/
def settleByte (s : State) (m : Memory) (a : Nat) : Memory :=
  if Config.hostByteStays s.draws a then Memory.write m a (Memory.read s.mem a) else m

theorem settleHost_eq (p : Plan) (s : State) (m : Memory) :
    settleHost p s m = s.touched.dest.foldl (settleByte s)
      (if sourceUnknown p s then Memory.spoil s.draws s.dstBase.toNat p.dstUsed m else m) := rfl

@[simp] theorem deviceEffects_ordinary {p : Plan} {s : State} {m : Memory} (h : p.ordinary s = true) : deviceEffects p s m = m :=
  if_pos h

theorem deviceEffects_wf {p : Plan} {s : State} {m : Memory} (hm : m.wf) : (deviceEffects p s m).wf := by
  unfold deviceEffects; split
  · exact hm
  · exact Memory.sideEffects_wf hm

theorem deviceEffects_inSpace {p : Plan} {s : State} {m : Memory} (hm : m.inSpace) : (deviceEffects p s m).inSpace := by
  unfold deviceEffects; split
  · exact hm
  · exact Memory.sideEffects_inSpace hm

/-- What the walk read is known where the host kept R100 for the source and R33. -/
theorem sourceUnknown_of {p : Plan} {s : State} (hs : s.touched.source = false) (h : p.ordinary s = true) :
    sourceUnknown p s = false := by
  unfold sourceUnknown; rw [hs, h]; rfl

@[simp] theorem settleMem_nothing {p : Plan} {s : State} {m : Memory} (h : s.touched = Touched.nothing) (ho : p.ordinary s = true) :
    settleMem p s m = m := by
  unfold settleMem
  rw [deviceEffects_ordinary ho, settleHost_eq, sourceUnknown_of (by rw [h]; rfl) ho, h]; rfl

@[simp] theorem settleRange_nothing {b r : Bool} {p : Plan} {s : State} (h : s.touched = Touched.nothing) (ho : p.ordinary s = true) :
    settleRange b p s r = r := by
  unfold settleRange; rw [sourceUnknown_of (by rw [h]; rfl) ho]; cases b <;> rfl

/-- A RANGE that is 1 stays 1. -/
theorem settleRange_stays {b r : Bool} {p : Plan} {s : State} (h : s.status.range = true) (hr : r = true) : settleRange b p s r = true := by
  unfold settleRange; split
  · rw [h]; rfl
  · exact hr

/-- DECODE and DECODE_AUTO never write RANGE at their end. -/
@[simp] theorem settleRange_decode {r : Bool} {p : Plan} {s : State} : settleRange false p s r = r := rfl

theorem settleByte_wf {s : State} {m : Memory} {a : Nat} (hm : m.wf) : (settleByte s m a).wf := by
  unfold settleByte; split
  · exact Memory.write_wf _ _ hm
  · exact hm

theorem settleByte_inSpace {s : State} {m : Memory} {a : Nat} (hm : m.inSpace) (ha : a < 2 ^ 32) : (settleByte s m a).inSpace := by
  unfold settleByte; split
  · exact Memory.write_inSpace _ hm ha
  · exact hm

/-- A settled byte is the engine's or the host's. -/
theorem read_settleByte {s : State} {m : Memory} (a b : Nat) (hm : m.wf) :
    Memory.read (settleByte s m a) b = Memory.read m b ∨
      (b = a ∧ Memory.read (settleByte s m a) b = Memory.read s.mem b) := by
  unfold settleByte; split
  · rw [Memory.read_write _ _ _ hm]
    split
    · exact .inr ⟨‹_›, by rw [‹b = a›]⟩
    · exact .inl rfl
  · exact .inl rfl

theorem settleAll_wf {s : State} {m : Memory} (l : List Nat) (hm : m.wf) : (l.foldl (settleByte s) m).wf := by
  induction l generalizing m with
  | nil => exact hm
  | cons a l ih => exact ih (settleByte_wf hm)

theorem settleAll_inSpace {s : State} {m : Memory} (l : List Nat) (hm : m.inSpace) (hl : ∀ a ∈ l, a < 2 ^ 32) :
    (l.foldl (settleByte s) m).inSpace := by
  induction l generalizing m with
  | nil => exact hm
  | cons a l ih => exact ih (settleByte_inSpace hm (hl a (by simp))) fun b hb => hl b (by simp [hb])

theorem read_settleAll {s : State} {m : Memory} (l : List Nat) (b : Nat) (hm : m.wf) :
    Memory.read (l.foldl (settleByte s) m) b = Memory.read m b ∨
      (b ∈ l ∧ Memory.read (l.foldl (settleByte s) m) b = Memory.read s.mem b) := by
  induction l generalizing m with
  | nil => exact .inl rfl
  | cons a l ih =>
    rcases ih (settleByte_wf (a := a) (s := s) hm) with h | ⟨h, h'⟩
    · rcases read_settleByte (s := s) a b hm with h1 | ⟨rfl, h1⟩
      · exact .inl (h.trans h1)
      · exact .inr ⟨by simp, h.trans h1⟩
    · exact .inr ⟨by simp [h], h'⟩

theorem settleMem_wf {p : Plan} {s : State} {m : Memory} (hm : m.wf) : (settleMem p s m).wf := by
  unfold settleMem
  rw [settleHost_eq]
  refine deviceEffects_wf (settleAll_wf _ ?_)
  split
  · exact Memory.spoil_wf hm
  · exact hm

theorem settleMem_inSpace {p : Plan} {s : State} {m : Memory} (hm : m.inSpace) (hd : s.dstBase.toNat + p.dstUsed ≤ 2 ^ 32)
    (ht : ∀ a ∈ s.touched.dest, a < 2 ^ 32) : (settleMem p s m).inSpace := by
  unfold settleMem
  rw [settleHost_eq]
  refine deviceEffects_inSpace (settleAll_inSpace _ ?_ ht)
  split
  · exact Memory.spoil_inSpace hm hd
  · exact hm

/-- Outside the destination used extent the host's writes do not change what the command leaves. -/
theorem read_settleMem_outside {p : Plan} {s : State} {m : Memory} {a : Nat} (ho : p.ordinary s = true) (hm : m.wf) (ha : ¬ p.inDst s a)
    (h : Memory.read m a = Memory.read s.mem a) : Memory.read (settleMem p s m) a = Memory.read s.mem a := by
  unfold settleMem
  rw [deviceEffects_ordinary ho, settleHost_eq]
  have key : ∀ {m' : Memory}, m'.wf → Memory.read m' a = Memory.read s.mem a →
      Memory.read (s.touched.dest.foldl (settleByte s) m') a = Memory.read s.mem a := fun {m'} hw hr => by
    rcases read_settleAll (s := s) s.touched.dest a hw with h1 | ⟨-, h1⟩
    · exact h1.trans hr
    · exact h1
  split
  · exact key (Memory.spoil_wf hm) ((Memory.read_spoil_outside ha).trans h)
  · exact key hm h

/-- Where the source extent was left alone, a byte is the engine's, or one that the host wrote. -/
theorem read_settleMem {p : Plan} {s : State} {m : Memory} (a : Nat) (ho : p.ordinary s = true) (hm : m.wf)
    (hs : s.touched.source = false) : Memory.read (settleMem p s m) a = Memory.read m a ∨
      (a ∈ s.touched.dest ∧ Memory.read (settleMem p s m) a = Memory.read s.mem a) := by
  unfold settleMem
  rw [deviceEffects_ordinary ho, settleHost_eq, sourceUnknown_of hs ho]
  exact read_settleAll _ a hm

end Sys2Proof.Machine
end

