-- ==== Sys2Proof/Laws/HostPort.lean ====
section
/-! SUPPORT. What each action of the host can do, said once: bus accesses, and loads and stores of memory. -/

namespace Sys2Proof.Machine

/-! ## The register block (R15, R28) -/

/-- An aligned 32-bit access inside the block meets the register at its offset. -/
theorem busTarget_offset (p : Params) {k : Nat} (hk : k < 64) (h4 : k % 4 = 0) :
    busTarget p (p.engineBase + k) .word = .reg (.ofWordIndex (k / 4)) := by
  unfold busTarget
  rw [if_neg (by omega), if_pos ⟨rfl, by omega⟩]
  congr 3; omega

/-- A bus write does nothing, or what a write to the register it meets does. -/
theorem busWrite_cases (addr : Nat) (width : AccessWidth) (v : Word) (s : State) :
    busWrite addr width v s = s ∨ ∃ r, busTarget s.params addr width = .reg r ∧ busWrite addr width v s = hostWriteReg r v s := by
  unfold busWrite
  split
  · exact .inl rfl
  · exact .inl rfl
  · exact .inr ⟨_, ‹_›, rfl⟩

/-- The five things a register write can do: nothing, write STATUS, be dropped, start a command, write an argument register. -/
theorem hostWriteReg_cases (r : RegName) (v : Word) (s : State) :
    hostWriteReg r v s = s ∨
    (r = .status ∧ hostWriteReg r v s = s.setStatus (s.status.hostWrite v)) ∨
    (s.status.busy = true ∧ hostWriteReg r v s = s.setStatus s.status.dropped) ∨
    (s.status.busy = false ∧ r = .cmd ∧ hostWriteReg r v s = accept v s) ∨
    (s.status.busy = false ∧ ∃ a b c d e f, hostWriteReg r v s =
      { s with srcBase := a, srcLen := b, dstBase := c, dstLen := d, width := e, height := f }) := by
  cases r <;> cases hb : s.status.busy <;> simp [hostWriteReg, unlessBusy, hb]

/-! ## RANGE during the walk (R77, R79) -/

/-- Only an ENCODE that passed its checks writes RANGE. -/
theorem runningSetsRange_encode {s : State} (h : runningSetsRange s = true) : ∃ (f : Nat) (D : Descriptor) (p : Plan),
    decodeWord s.cmd = .ok (.encode f) ∧ rom s.params f = some D ∧ encodePlan D s = .ok p ∧
    settleRange true p s (encodeTiles D s.srcBase.toNat s.dstBase.toNat p.width p.height (Datapath.start s)).range = true := by
  unfold runningSetsRange at h
  split at h
  · cases h
  · rename_i i hi
    split at h
    · cases h
    · rename_i D hr
      cases i with
      | encode f =>
        simp only [walkSetsRange] at h
        split at h
        · cases h
        · exact ⟨f, D, _, hi, hr, ‹_›, h⟩
      | lookup f => cases h
      | sizeDec f => cases h
      | sizeEnc f => cases h
      | decode f => cases h
      | decodeAuto f => cases h

@[simp] theorem writeRange_idle {s : State} (h : s.status.busy = false) : writeRange s = s := by
  unfold writeRange; rw [h]; rfl

/-- Nothing is written, or RANGE is set by the running command. -/
theorem writeRange_cases (s : State) :
    writeRange s = s ∨
    (writeRange s = s.setStatus { s.status with range := true } ∧ s.status.busy = true ∧ runningSetsRange s = true) := by
  unfold writeRange
  split
  · rename_i h
    simp only [Bool.and_eq_true] at h
    exact .inr ⟨rfl, h.1.1, h.2⟩
  · exact .inl rfl

/-- Only the field RANGE may change. -/
theorem writeRange_eq (s : State) :
    writeRange s = s.setStatus { s.status with range := (writeRange s).status.range } := by
  rcases writeRange_cases s with h | ⟨h, -⟩ <;> rw [h] <;> rfl

/-! ## The running command's plan -/

/-- The plan depends on CMD, the argument registers and the parameters alone. -/
theorem runningPlan_congr {s t : State} (h1 : t.cmd = s.cmd) (h2 : t.params = s.params) (h3 : t.srcBase = s.srcBase)
    (h4 : t.srcLen = s.srcLen) (h5 : t.dstBase = s.dstBase) (h6 : t.dstLen = s.dstLen) (h7 : t.width = s.width)
    (h8 : t.height = s.height) : runningPlan t = runningPlan s := by
  unfold runningPlan
  rw [h1]; split
  · rfl
  · rw [h2]; split
    · rfl
    · unfold memoryPlan decodePlan decodeAutoPlan encodePlan selectWidth chosenWidth checkRegions notEmpty
      rw [h3, h4, h5, h6, h7, h8]

/-! ## Loads and stores (R33, R34, R39 item 3) -/

/-- A store writes its byte and may add to the record. -/
theorem hostStore_eq (a : Word) (v : Byte) (s : State) :
    hostStore a v s = { s with mem := Memory.write s.mem a.toNat v, touched := (hostStore a v s).touched } := by
  unfold hostStore
  split
  · split <;> rfl
  · rfl

theorem hostStore_touched_idle {a : Word} {v : Byte} {s : State} (h : s.status.busy = false ∨ runningPlan s = none) :
    (hostStore a v s).touched = s.touched := by
  unfold hostStore
  split
  · rename_i hb
    rcases h with h | h
    · rw [h] at hb; cases hb
    · rw [h]; rfl
  · rfl

theorem hostStore_touched {a : Word} {v : Byte} {s : State} {p : Plan} (hb : s.status.busy = true) (hp : runningPlan s = some p) :
    (hostStore a v s).touched = touch p a.toNat s := by
  unfold hostStore; rw [if_pos hb, hp]

theorem runningPlan_hostStore (a : Word) (v : Byte) (s : State) : runningPlan (hostStore a v s) = runningPlan s := by
  rw [hostStore_eq]; exact runningPlan_congr rfl rfl rfl rfl rfl rfl rfl rfl

/-- What every single store keeps, the side effects of a device access keep. -/
theorem hostSideEffects_keeps (P : State → Prop) {s : State} (h0 : P s)
    (h : ∀ (a : Word) (v : Byte) (t : State), P t → P (hostStore a v t)) : P (hostSideEffects s) := by
  unfold hostSideEffects
  generalize Config.sideEffects s.draws = l
  suffices ∀ t, P t → P (l.foldl (fun s c => hostStore c.1 c.2 s) t) from this s h0
  induction l with
  | nil => exact fun _ ht => ht
  | cons c l ih => exact fun t ht => ih _ (h _ _ _ ht)

/-- The side effects of a device access change memory and the record, and nothing else. -/
theorem hostSideEffects_eq (s : State) :
    hostSideEffects s = { s with mem := (hostSideEffects s).mem, touched := (hostSideEffects s).touched } := by
  refine hostSideEffects_keeps (fun t => t = { s with mem := t.mem, touched := t.touched }) rfl fun a v t ht => ?_
  rw [hostStore_eq a v t, ht]

theorem hostSideEffects_wf {s : State} (hm : s.mem.wf) : (hostSideEffects s).mem.wf :=
  hostSideEffects_keeps (fun t => t.mem.wf) hm fun a v t ht => by rw [hostStore_eq a v t]; exact Memory.write_wf _ _ ht

theorem hostSideEffects_inSpace {s : State} (hm : s.mem.inSpace) : (hostSideEffects s).mem.inSpace :=
  hostSideEffects_keeps (fun t => t.mem.inSpace) hm fun a v t ht => by
    rw [hostStore_eq a v t]; exact Memory.write_inSpace _ ht a.isLt

/-- Where nothing is recorded for a store, nothing is recorded for a device access. -/
theorem hostSideEffects_touched_idle {s : State} (h : s.status.busy = false ∨ runningPlan s = none) :
    (hostSideEffects s).touched = s.touched := by
  refine (hostSideEffects_keeps (fun t => (t.status.busy = false ∨ runningPlan t = none) ∧ t.touched = s.touched) ⟨h, rfl⟩ ?_).2
  rintro a v t ⟨ht, he⟩
  rw [runningPlan_hostStore]
  refine ⟨?_, (hostStore_touched_idle ht).trans he⟩
  rw [hostStore_eq]; exact ht

end Sys2Proof.Machine
end

