-- ==== Sys2Proof/Laws/PerInstr.lean ====
section
/-! SUPPORT. What holds of every command as syntax, one lemma per constructor. -/

namespace Sys2Proof.Laws.WordFields

/-- The word of a well-formed command has the command's own OP and FMT, and zeros in the reserved fields (R45). -/
def Statement (i : Instr) : Prop :=
  WellFormed i → opField (encode i) = opcodeOf i ∧ fmtField (encode i) = i.fmt ∧
    rsv0Field (encode i) = 0 ∧ rsv1Field (encode i) = 0

/-- The fields of a word put together from OP and FMT. -/
theorem fields_of_parts {op fmt : Nat} (hop : op < 16) (hf : fmt < 256) :
    opField (wordOf (2 ^ 8 * fmt + op)) = op ∧ fmtField (wordOf (2 ^ 8 * fmt + op)) = fmt ∧
      rsv0Field (wordOf (2 ^ 8 * fmt + op)) = 0 ∧ rsv1Field (wordOf (2 ^ 8 * fmt + op)) = 0 := by
  simp only [opField, fmtField, rsv0Field, rsv1Field, bitField, wordOf, BitVec.toNat_ofNat]
  omega

theorem lookup (fmt : Nat) : Statement (.lookup fmt) := fun h => fields_of_parts (op := 1) (by decide) h
theorem sizeDec (fmt : Nat) : Statement (.sizeDec fmt) := fun h => fields_of_parts (op := 2) (by decide) h
theorem sizeEnc (fmt : Nat) : Statement (.sizeEnc fmt) := fun h => fields_of_parts (op := 3) (by decide) h
theorem decode (fmt : Nat) : Statement (.decode fmt) := fun h => fields_of_parts (op := 4) (by decide) h
theorem decodeAuto (fmt : Nat) : Statement (.decodeAuto fmt) := fun h => fields_of_parts (op := 5) (by decide) h
theorem encode (fmt : Nat) : Statement (.encode fmt) := fun h => fields_of_parts (op := 6) (by decide) h

end Sys2Proof.Laws.WordFields
end

