-- ==== Sys2Proof/Tests/Slice0.lean ====
section
/-! SUPPORT. Small tests with results from spec/95_test_vectors.md, and for every statement with hypotheses a concrete state and
operands that meet them. -/

namespace Sys2Proof.Tests
open Sys2Proof Sys2Proof.Machine Sys2Proof.Claims

/-! ## Small states -/

/-- The example binding of 95_test_vectors.md: both default widths 128 pixels; the block at address 0, no bus errors. -/
def binding : Params := ⟨15, 15, 0, false, []⟩

/-- A platform whose memory can answer with errors. -/
def errorBinding : Params := ⟨15, 15, 0, true, []⟩

/-- A platform with a device at 0x8000 to 0x800F. -/
def deviceBinding : Params := ⟨15, 15, 0, false, [⟨0x8000, 16⟩]⟩

/-- An idle engine whose argument registers hold these values. -/
def idle (sb sl db dl w h : Nat) (m : Memory) : State :=
  { State.reset with
    params := binding, hidden := ⟨Vector.replicate 8 0, 0, 0, 0, 0⟩, mem := m
    srcBase := wordOf sb, srcLen := wordOf sl, dstBase := wordOf db, dstLen := wordOf dl, width := wordOf w, height := wordOf h }

/-- The same engine right after it accepted the word `c`; its step is the next one. -/
def accepted (c sb sl db dl w h : Nat) (m : Memory) : State :=
  { idle sb sl db dl w h m with cmd := wordOf c, status := ⟨true, false, false, false, .ok⟩ }

/-- The state after one step. -/
def after (s : State) : State :=
  match step s with
  | .next t => t
  | .fault _ => s
  | .refused _ => s

/-- STATUS and RES_WIDTH, RES_HEIGHT, RES_BYTES after one step. -/
def outcome (s : State) : Word × Nat × Nat × Nat :=
  ((after s).status.word, (after s).resWidth.toNat, (after s).resHeight.toNat, (after s).resBytes.toNat)

/-- `n` bytes of memory at `a`. -/
def bytes (s : State) (a n : Nat) : List Nat := (List.range n).map fun i => (Memory.read s.mem (a + i)).toNat

/-! ## Well-formedness and decoding (R45 to R50) -/

theorem test_wellFormed_refuses_wide_format : ¬ WellFormed (.lookup 256) ∧ ¬ WellFormed (.encode 256) ∧ WellFormed (.encode 255) := by
  decide

theorem test_decode_lookup : decodeTableWord 32 0b00000000000000000000000000000001 = some (.lookup 0) := by decide
theorem test_decode_sizeDec : decodeTableWord 32 0b00000000000000000000000100000010 = some (.sizeDec 1) := by decide
theorem test_decode_sizeEnc : decodeTableWord 32 0b00000000000000000000000000000011 = some (.sizeEnc 0) := by decide
theorem test_decode_decode : decodeTableWord 32 0b00000000000000000000000100000100 = some (.decode 1) := by decide
theorem test_decode_decodeAuto : decodeTableWord 32 0b00000000000000001000000000000101 = some (.decodeAuto 128) := by decide
theorem test_decode_encode : decodeTableWord 32 0b00000000000000000000000100000110 = some (.encode 1) := by decide

/-- V14 to V18: the illegal words. -/
theorem test_illegal_words :
    [0x00000000, 0x00000007, 0x00000011, 0x00010001, 0x00000207].map (decodeTableWord 32) = [none, none, none, none, none] := by decide

/-! ## Commands, against the vectors -/

/-- V10 and V11. -/
theorem test_lookup_descriptors :
    ((after (accepted 0x001 0 0 0 0 0 0 [])).descW0, (after (accepted 0x001 0 0 0 0 0 0 [])).descW1,
      (after (accepted 0x101 0 0 0 0 0 0 [])).descW1, (after (accepted 0x101 0 0 0 0 0 0 [])).descW2) =
    (0x08080080#32, 0x06020011#32, 0x06101024#32, 0x00000020#32) := by decide

/-- V13 and V18. -/
theorem test_lookup_errors :
    (after (accepted 0xFF01 0 0 0 0 0 0 [])).status.word = 0x00000102#32 ∧
    (after (accepted 0x0207 0 0 0 0 0 0 [])).status.word = 0x00000602#32 := by decide

/-- V21, V22 and V32. -/
theorem test_sizeDec_values :
    outcome (accepted 0x002 0 1000 0 0 128 0 []) = (0x002#32, 128, 56, 896) ∧
    outcome (accepted 0x102 0 100 0 0 8 0 []) = (0x002#32, 8, 24, 96) ∧
    outcome (accepted 0x002 0 1024 0 0 0 0 []) = (0x002#32, 128, 64, 1024) := by decide

/-- V27, V30 and V31. -/
theorem test_sizeDec_errors :
    outcome (accepted 0x002 0 64 0 0 128 0 []) = (0x302#32, 0, 0, 0) ∧
    outcome (accepted 0x002 0 4294967295 0 0 8 0 []) = (0x702#32, 0, 0, 0) ∧
    outcome (accepted 0x002 0 1024 0 0 12 0 []) = (0x702#32, 0, 0, 0) := by decide

/-- V36 and V42. -/
theorem test_sizeEnc_values :
    outcome (accepted 0x103 0 0 0 0 16 8 []) = (0x002#32, 16, 8, 64) ∧
    outcome (accepted 0x003 0 0 0 0 65528 65536 []) = (0x002#32, 65528, 65536, 536805376) := by decide

/-- V39 and V41. -/
theorem test_sizeEnc_errors :
    outcome (accepted 0x003 0 0 0 0 12 8 []) = (0x702#32, 0, 0, 0) ∧
    outcome (accepted 0x003 0 0 0 0 65536 65536 []) = (0x702#32, 0, 0, 0) := by decide

/-- V1, and V47 with row 3. -/
theorem test_decode_pixels :
    bytes (after (accepted 0x004 0x1000 8 0x2000 64 8 8 [(0x1000, 0xB2)])) 0x2000 9 = [1, 0, 1, 1, 0, 0, 1, 0, 0] ∧
    bytes (after (accepted 0x104 0x1000 32 0x2000 64 8 8 [(0x1006, 0x80), (0x1007, 0x80), (0x1016, 0x80), (0x1017, 0x01)])) 0x2018 8 =
      [7, 0, 0, 0, 0, 0, 0, 8] := by decide +kernel

/-- V51, V52, V53, V54 and V56. -/
theorem test_decode_errors :
    (outcome (accepted 0x104 0x1000 32 0x2000 63 8 8 [])).1 = 0x402#32 ∧ (outcome (accepted 0x104 0x1000 0 0x2000 63 12 8 [])).1 = 0x202#32 ∧
    (outcome (accepted 0x104 0x1000 10 0x2000 63 12 8 [])).1 = 0x702#32 ∧ (outcome (accepted 0x004 0x1000 8 0x1004 64 8 8 [])).1 = 0x802#32 ∧
    (outcome (accepted 0x004 0xFFFFFFF8 9 0x1000 64 8 8 [])).1 = 0x802#32 := by decide +kernel

/-- V60. -/
theorem test_decodeAuto_geometry : outcome (accepted 0x105 0x4000 70 0x5000 128 16 0 [(0x4000, 0x01)]) = (0x002#32, 16, 8, 64) := by
  decide +kernel

/-- V63 and V64. -/
theorem test_decodeAuto_errors :
    (outcome (accepted 0x005 0x4000 64 0x5000 63 0 0 [])).1 = 0x302#32 ∧ (outcome (accepted 0x105 0x4000 100 0x5000 191 8 0 [])).1 = 0x402#32 := by
  decide +kernel

/-- V71: RANGE is set, and the stray bits of 0x13 are dropped. -/
theorem test_encode_truncates :
    (after (accepted 0x106 0x1000 64 0x2000 32 8 8 [(0x1000, 0x13), (0x1001, 0x0F)])).status.word = 0x006#32 ∧
    bytes (after (accepted 0x106 0x1000 64 0x2000 32 8 8 [(0x1000, 0x13), (0x1001, 0x0F)])) 0x2000 18 =
      [0xC0, 0xC0, 0, 0, 0, 0, 0, 0, 0, 0, 0, 0, 0, 0, 0, 0, 0x40, 0x40] := by decide +kernel

/-- V72, and that the last row of the tile goes to the last byte. -/
theorem test_encode_bytes :
    bytes (after (accepted 0x006 0x1000 64 0x2000 8 8 8 [(0x1000, 1), (0x1002, 1), (0x1003, 1), (0x1006, 1), (0x103F, 1)])) 0x2000 8 =
      [0xB2, 0, 0, 0, 0, 0, 0, 1] := by decide +kernel

/-- V82 to V85. -/
theorem test_register_accesses :
    (hostWrite 0x18 (wordOf 9) (accepted 0x001 0 0 0 0 8 8 [])).width = wordOf 8 ∧
    (hostWrite 0x18 (wordOf 9) (accepted 0x001 0 0 0 0 8 8 [])).status.ovr = true ∧
    (hostWrite 0x04 (wordOf 8) (hostWrite 0x18 (wordOf 9) (accepted 0x001 0 0 0 0 8 8 []))).status.ovr = false ∧
    (hostAct (.busWrite 0x0C .byte (wordOf 9)) (idle 0 5 0 0 8 8 [])).srcLen = wordOf 5 ∧
    (hostRead 0x38 (idle 0 5 0 0 8 8 [])).hostData = 0 := by decide

/-- R33: the first and the last byte of a window are not ordinary RAM, nor is an extent that reaches into it; its neighbours are. -/
theorem test_ordinary_boundaries :
    [(0x7FFF, 1), (0x8000, 1), (0x800F, 1), (0x8010, 1), (0x7FF0, 16), (0x7FF0, 17), (0x7000, 0x2000)].map
      (fun e => deviceBinding.ordinary e.1 e.2) = [true, false, false, true, true, false, false] := by decide

/-! ## Witnesses: each statement's hypotheses are met together, each clause at a boundary -/

/-- DECODE of one NES_1BPP tile at 0x1000 to 0x2000, just accepted. -/
def decoding : State := accepted 0x004 0x1000 8 0x2000 64 8 8 [(0x1000, 0xB2)]

/-- DECODE_AUTO of one SNES_4BPP tile with bytes left over, just accepted. -/
def decodingAuto : State := accepted 0x105 0x1000 33 0x2000 64 8 0 [(0x1000, 0xB2)]

/-- ENCODE of one NES_1BPP tile at 0x2000 to 0x3000, just accepted. -/
def encoding : State := accepted 0x006 0x2000 64 0x3000 8 8 8 [(0x2000, 0x01), (0x203F, 0x02)]

/-- DECODE, its host still to write `a`. -/
def interrupted (a : HostAction) : State := { decoding with pending := [a], wait := 1 }

/-- The engine's step of a command, taken on its own. -/
def ran (i : Instr) (s : State) : State :=
  match exec i s with
  | .next t => t
  | .fault _ => s
  | .refused _ => s

theorem exec_ran (i : Instr) (s : State) : exec i s = .next (ran i s) := by
  unfold ran; rw [exec_eq]

/-- R33, log entry 6: DECODE from a device ends as from RAM, but what it read is unknown. -/
theorem test_device_buffer :
    (let s : State := { accepted 0x004 0x8000 8 0x2000 64 8 8 [] with params := deviceBinding }
     (ran (.decode 0) s).status.word = 0x002#32 ∧ (ran (.decode 0) s).resBytes = 8 ∧ sourceUnknown ⟨8, 8, 8, 8, 64⟩ s = true) := by
  decide +kernel

theorem step_after (s : State) : step s = .next (after s) := by
  unfold after step runCommand
  split
  · cases decodeWord s.cmd with
    | ok i => simp only [exec_eq]
    | error _ => rfl
  · rfl

/-- The plan of `decoding`. -/
def decodingPlan : Plan := ⟨8, 8, 8, 8, 64⟩

theorem decoding_accepted : decoding.Accepted :=
  ⟨by decide, by decide, by decide, by decide, by decide, by decide, by decide⟩

theorem encoding_accepted : encoding.Accepted :=
  ⟨by decide, by decide, by decide, by decide, by decide, by decide, by decide⟩

/-- Where everything is RAM, so are the used extents. -/
theorem ram_everywhere {i : Instr} {s : State} (h : s.params.notRam = []) : InOrdinaryMemory i s := fun _ _ _ _ => by
  simp [Plan.ordinary, Params.ordinary, h]

theorem decoding_undisturbed : Undisturbed (.decode 0) decoding := ⟨by decide, rfl, ram_everywhere rfl⟩

theorem encoding_undisturbed : Undisturbed (.encode 0) encoding := ⟨by decide, rfl, ram_everywhere rfl⟩

theorem decodingAuto_undisturbed : Undisturbed (.decodeAuto 1) decodingAuto := ⟨by decide, rfl, ram_everywhere rfl⟩

theorem decoding_ok : (ran (.decode 0) decoding).status.err = .ok := by decide +kernel

theorem encoding_ok : (ran (.encode 0) encoding).status.err = .ok := by decide +kernel

theorem decodingAuto_ok : (ran (.decodeAuto 1) decodingAuto).status.err = .ok := by decide +kernel

theorem decoding_plan : runningPlan decoding = some decodingPlan := by decide

theorem witness_DecodeOfEncodeIsIdentity : WellFormed (.encode 255) ∧ WellFormed (.lookup 0) := by decide

theorem witness_EncodeOfDecodeIsIdentity : decodeWord 0x0000FF06#32 = .ok (.encode 255) := by decide

theorem witness_TwelveWordsHaveRegisteredFormats :
    decodeWord 0x00000106#32 = .ok (.encode 1) ∧ (Instr.encode 1).fmt < 2 ∧ ¬ (Instr.encode 2).fmt < 2 := by decide

/-- Reserved OP values at both ends of their range, each reserved field at 1; an illegal and a legal word in CMD. -/
theorem witness_IllegalWordsEndWithIllegalCommand :
    IllegalWordBits 0x00000007#32 ∧ IllegalWordBits 0x0000000F#32 ∧ IllegalWordBits 0x00000011#32 ∧ IllegalWordBits 0x00010001#32 ∧
    ¬ IllegalWordBits 0x0000FF06#32 ∧ (idle 0 0 0 0 0 0 []).status.busy = false ∧
    (accepted 0x0 0 0 0 0 0 0 []).Accepted ∧ IllegalWordBits (accepted 0x0 0 0 0 0 0 0 []).cmd ∧
    ¬ IllegalWordBits (accepted 0xFF06 0 0 0 0 0 0 []).cmd ∧
    runCommand (accepted 0xFF06 0 0 0 0 0 0 []) = .next (after (accepted 0xFF06 0 0 0 0 0 0 [])) := by
  refine ⟨?_, ?_, ?_, ?_, ?_, by decide, ⟨by decide, by decide, by decide, by decide, by decide, by decide, by decide⟩, ?_, ?_,
    step_after (accepted 0xFF06 0 0 0 0 0 0 [])⟩ <;>
    unfold IllegalWordBits <;> decide

theorem witness_StepRunsTheDecodedCommand :
    (decoding.status.busy = true ∧ decoding.wait = 0 ∧ decodeWord decoding.cmd = .ok (.decode 0)) ∧
    ({ decoding with wait := 3 }.status.busy = true ∧ { decoding with wait := 3 }.pending = []) ∧ WellFormed (.decode 255) := by decide

theorem witness_HostActsInEveryOtherStep :
    ((interrupted .reset).pending = [.reset] ∧ (interrupted .reset).wait ≠ 0) ∧
    ({ idle 0 0 0 0 0 0 [] with pending := [.idle] }.pending = [.idle] ∧ (idle 0 0 0 0 0 0 []).status.busy = false) ∧
    (idle 0 0 0 0 0 0 []).pending = [] := by decide

theorem decoding_inv : decoding.Inv where
  status := by unfold Status.Legal; decide
  range := fun _ h => nomatch h
  results := by unfold State.ResultsLegal; decide
  desc := by unfold State.DescLegal; rw [if_neg (by decide)]; decide
  mem := by unfold State.MemLegal; decide
  touched := fun _ a h => by exact absurd h (by decide +revert)

theorem witness_StepKeepsTheInvariant : decoding.Inv ∧ step decoding = .next (after decoding) :=
  ⟨decoding_inv, step_after _⟩

theorem witness_AcceptedCommandEnds : (interrupted .idle).status.busy = true ∧ (interrupted .idle).wait = 1 := by decide

theorem witness_RomIsConstant :
    step decoding = .next (after decoding) ∧ exec (.encode 1) encoding = .next (ran (.encode 1) encoding) :=
  ⟨step_after _, exec_ran _ _⟩

theorem witness_RomContents : 2 ≤ 255 ∧ (0 : Nat) < (romNes1bpp binding).bpp := by decide

/-- Both registered formats; also for DescriptorWordLayout, PlaneByteOffsets and PlaneBytesTileTheStream. -/
theorem witness_RomEntriesAreSound :
    rom binding 0 = some (romNes1bpp binding) ∧ rom binding 1 = some (romSnes4bpp binding) ∧ rom binding 2 = none := by decide

theorem witness_DescriptorWordLayout : rom errorBinding 1 = some (romSnes4bpp errorBinding) := by decide

theorem witness_CommandAcceptance :
    (idle 0 0 0 0 0 0 []).status.busy = false ∧ (idle 0 0 0 0 0 0 []).pending = [] ∧ decoding.status.busy = true ∧
    engineTurn decoding = true ∧ step (interrupted .idle) = .next (after (interrupted .idle)) ∧
    (after (interrupted .idle)).status.busy = true := ⟨by decide, by decide, by decide, by decide, step_after _, by decide⟩

theorem witness_ArgumentRegistersHoldWhatTheHostWrites :
    argumentRegisters.length = 6 ∧ (idle 0 0 0 0 0 0 []).status.busy = false ∧ decoding.status.busy = true ∧
    runCommand decoding = .next (after decoding) := ⟨by decide, by decide, by decide, step_after decoding⟩

/-- A STATUS write with bit 3 = 1 clears OVR; a write to a reserved word finds it set. -/
theorem witness_DroppedWritesSetOvr :
    decoding.status.busy = true ∧
    (let s := { hostWrite 0x18 0 (interrupted (.busWrite 4 .word 8)) with draws := 5 }
     step s = .next (after s) ∧ s.status.ovr = true ∧ (after s).status.ovr = false) ∧
    (hostWrite 0x38 0 (hostWrite 0x00 0 decoding)).status.ovr = true :=
  ⟨by decide, ⟨step_after _, by decide, by decide⟩, by decide⟩

/-- ENCODE with a pixel out of range, the host about to read STATUS twice; its write of RANGE comes with `k` host actions left. -/
def watched (k : Nat) : State := { encoding with pending := List.replicate 2 (.busRead 0x04 .word), wait := 2, rangeWait := k }

/-- R77, R79: the two reads show RANGE from the moment of the command on. -/
theorem test_range_shows_while_busy :
    [0, 1, 2].map (fun k => ((after (watched k)).hostData, (after (after (watched k))).hostData)) =
      [(0x001#32, 0x001#32), (0x001#32, 0x005#32), (0x005#32, 0x005#32)] := by decide +kernel

theorem witness_StatusReadsWhileBusy :
    (watched 2).status.busy = true ∧ (watched 2).status.range = false ∧ (watched 2).mem.wf ∧ engineTurn (watched 2) = false ∧
    (watched 2).pending = .busRead ((watched 2).params.engineBase + 0x04) .word :: [.busRead 0x04 .word] ∧
    step (watched 2) = .next (after (watched 2)) ∧ (after (watched 2)).status.range = true ∧
    OutOfRangePixel (romNes1bpp binding) 64 (watched 2) :=
  ⟨by decide, by decide, by decide, by decide, by decide, step_after _, by decide +kernel, 63, by decide, by decide⟩

/-- RANGE is set by the walk in the first step, and is 1 when the host has its next turn. -/
theorem witness_RangeStaysUntilAcceptance :
    ((watched 2).mem.wf ∧ step (watched 2) = .next (after (watched 2)) ∧ (watched 2).status.range = false ∧
      (after (watched 2)).status.range = true) ∧
    step (after (watched 2)) = .next (after (after (watched 2))) :=
  ⟨⟨by decide, step_after _, by decide, by decide +kernel⟩, step_after _⟩

theorem witness_AccessesWithoutEffect :
    (binding.engineBase ≤ 63 ∧ 63 < binding.engineBase + 64 ∧ AccessWidth.byte ≠ .word) ∧
    (binding.engineBase ≤ 2 ∧ 2 < binding.engineBase + 64 ∧ (2 - binding.engineBase) % 4 ≠ 0) := by decide

theorem witness_ReadsReturnResults : resultRegisters.length = 6 ∧ (idle 0 0 0 0 0 0 []).status.busy = false := by decide

theorem witness_ResetValues : (idle 1 2 3 4 5 6 [(0, 1)]).status.busy = false := by decide

/-- The last byte of the extent and the first one after it; a command without an extent; a host that resets. -/
theorem witness_ResetAbortsTheCommand :
    (decoding.status.busy = true ∧ runningPlan decoding = some decodingPlan ∧ decodingPlan.ordinary decoding = true ∧
      decodingPlan.inDst decoding 0x203F ∧ ¬ decodingPlan.inDst decoding 0x2040 ∧ decoding.mem.wf) ∧
    ((accepted 0x001 0 0 0 0 0 0 []).status.busy = true ∧ runningPlan (accepted 0x001 0 0 0 0 0 0 []) = none) ∧
    ((interrupted .reset).status.busy = true ∧ engineTurn (interrupted .reset) = false ∧
      step (interrupted .reset) = .next (after (interrupted .reset)) ∧ (after (interrupted .reset)).status.busy = false) :=
  ⟨by decide, by decide, by decide, by decide, step_after _, by decide⟩

theorem witness_LookupShowsTheDescriptor :
    rom (accepted 0x101 0 0 0 0 0 0 []).params 1 = some (romSnes4bpp binding) ∧ 2 ≤ 2 := by decide

theorem witness_LookupIsIdempotent :
    decoding.Accepted ∧ exec (.lookup 0) decoding = .next (ran (.lookup 0) decoding) ∧
    exec (.lookup 0) (accept 1 (ran (.lookup 0) decoding)) = .next (ran (.lookup 0) (accept 1 (ran (.lookup 0) decoding))) :=
  ⟨decoding_accepted, exec_ran _ _, exec_ran _ _⟩

/-- WIDTH 0 and a WIDTH the host chose. -/
theorem witness_SizeDecGivesTheGeometry :
    rom binding 0 = some (romNes1bpp binding) ∧
    GoodGeometry (usedWidth (romNes1bpp binding) (idle 0 1024 0 0 0 0 [])) (usedHeight (romNes1bpp binding) (idle 0 1024 0 0 0 0 [])) ∧
    GoodGeometry (usedWidth (romNes1bpp binding) (idle 0 8 0 0 8 0 [])) (usedHeight (romNes1bpp binding) (idle 0 8 0 0 8 0 [])) := by
  decide

theorem witness_SizeEncGivesTheByteCount :
    rom binding 1 = some (romSnes4bpp binding) ∧
    GoodGeometry (idle 0 0 0 0 65528 65536 []).width.toNat (idle 0 0 0 0 65528 65536 []).height.toNat := by decide

theorem decoding_ready : DecodeReady (romNes1bpp binding) decoding := by unfold DecodeReady; decide

theorem encoding_ready : EncodeReady (romNes1bpp binding) encoding := by unfold EncodeReady; decide

theorem decodingAuto_ready : DecodeAutoReady (romSnes4bpp binding) decodingAuto := by unfold DecodeAutoReady; decide

theorem witness_DecodeWritesTheBitmap :
    rom decoding.params 0 = some (romNes1bpp binding) ∧ DecodeReady (romNes1bpp binding) decoding ∧ Undisturbed (.decode 0) decoding ∧
    decoding.params.busErrors = false ∧ exec (.decode 0) decoding = .next (ran (.decode 0) decoding) ∧
    (ran (.decode 0) decoding).status.err = .ok :=
  ⟨by decide, decoding_ready, decoding_undisturbed, rfl, exec_ran _ _, decoding_ok⟩

theorem witness_DecodeAutoWritesTheBitmap :
    rom decodingAuto.params 1 = some (romSnes4bpp binding) ∧ DecodeAutoReady (romSnes4bpp binding) decodingAuto ∧
    Undisturbed (.decodeAuto 1) decodingAuto ∧ decodingAuto.params.busErrors = false ∧
    exec (.decodeAuto 1) decodingAuto = .next (ran (.decodeAuto 1) decodingAuto) ∧
    (ran (.decodeAuto 1) decodingAuto).status.err = .ok :=
  ⟨by decide, decodingAuto_ready, decodingAuto_undisturbed, rfl, exec_ran _ _, decodingAuto_ok⟩

theorem witness_EncodeWritesTheStream :
    rom encoding.params 0 = some (romNes1bpp binding) ∧ EncodeReady (romNes1bpp binding) encoding ∧ Undisturbed (.encode 0) encoding ∧
    encoding.params.busErrors = false ∧ exec (.encode 0) encoding = .next (ran (.encode 0) encoding) ∧
    (ran (.encode 0) encoding).status.err = .ok :=
  ⟨by decide, encoding_ready, encoding_undisturbed, rfl, exec_ran _ _, encoding_ok⟩

/-- Each check as the first that fails, and none. -/
theorem witness_ErrorsComeInOrder :
    IllegalWordBits (accepted 0x207 0 0 0 0 0 0 []).cmd ∧ rom binding (Instr.decode 2).fmt = none ∧
    (let D := romNes1bpp binding
     [firstFailing (checksInOrder D (idle 0 0 0 63 12 0 []) (.decode 0)), firstFailing (checksInOrder D (idle 0 1 0 1 12 0 []) (.decode 0)),
      firstFailing (checksInOrder D (idle 0 7 0 1 8 8 []) (.decode 0)), firstFailing (checksInOrder D (idle 0 8 7 63 8 8 []) (.decode 0)),
      firstFailing (checksInOrder D (idle 0 8 7 64 8 8 []) (.decode 0)), firstFailing (checksInOrder D (idle 0 8 8 64 8 8 []) (.decode 0)),
      firstFailing (checksInOrder D (idle 0 7 0 0 8 0 []) (.sizeDec 0)), firstFailing (checksInOrder D (idle 0 0 0 0 8 0 []) (.sizeEnc 0)),
      firstFailing (checksInOrder D (idle 0 7 0 1 8 0 []) (.decodeAuto 0)), firstFailing (checksInOrder D (idle 0 64 0 8 8 8 []) (.encode 0))] =
     [some .nullOrEmptyInput, some .geometryError, some .insufficientData, some .insufficientOutputCapacity, some .regionError, none,
      some .insufficientData, some .geometryError, some .insufficientData, some .regionError]) := by
  refine ⟨by unfold IllegalWordBits; decide, by decide, by decide⟩

/-- A DECODE with a destination that is one byte too small. -/
def tooSmall : State := accepted 0x004 0x1000 8 0x2000 63 8 8 [(0x1000, 0xB2)]

theorem witness_DetectedErrorsLeaveMemory :
    exec (.decode 0) tooSmall = .next (ran (.decode 0) tooSmall) ∧ (ran (.decode 0) tooSmall).status.err ≠ .ok ∧
    (ran (.decode 0) tooSmall).status.err ≠ .busError ∧ runCommand tooSmall = .next (ran (.decode 0) tooSmall) :=
  ⟨exec_ran _ _, by decide, by decide, exec_ran (.decode 0) tooSmall⟩

/-- The same command on another platform, one with bus errors, and on other memory. -/
def tooSmallElsewhere : State := { tooSmall with params := errorBinding, mem := [] }

theorem witness_ErrorsAreRepeatable :
    tooSmall.Accepted ∧ tooSmallElsewhere.Accepted ∧ (∀ f, rom tooSmallElsewhere.params f = rom tooSmall.params f) ∧
    tooSmallElsewhere.cmd = tooSmall.cmd ∧ (∀ r ∈ argumentRegisters, r.2 tooSmallElsewhere = r.2 tooSmall) ∧
    runCommand tooSmall = .next (after tooSmall) ∧ (after tooSmall).status.err ≠ .ok ∧ (after tooSmall).status.err ≠ .busError := by
  refine ⟨⟨?_, ?_, ?_, ?_, ?_, ?_, ?_⟩, ⟨?_, ?_, ?_, ?_, ?_, ?_, ?_⟩, fun _ => rfl, ?_, ?_, step_after tooSmall, ?_, ?_⟩ <;> decide

/-- A platform with bus errors. -/
theorem witness_BusErrorSpoilsOnlyTheDestination :
    rom { decoding with params := errorBinding }.params (Instr.decode 0).fmt = some (romNes1bpp errorBinding) ∧
    memoryPlan (romNes1bpp errorBinding) { decoding with params := errorBinding } (.decode 0) = some decodingPlan ∧
    { decoding with params := errorBinding }.mem.wf ∧
    decodingPlan.ordinary { decoding with params := errorBinding } = true ∧ ¬ decodingPlan.inDst { decoding with params := errorBinding } 0x1FFF := by decide

theorem witness_EveryCommandEndsAndKeepsItsOperands :
    (ran (.decode 0) tooSmall).status.err ≠ .ok ∧ accessesMemory (.sizeEnc 1) = false := by decide

theorem witness_CommandsWriteOnlyTheirDestination :
    decoding.mem.wf ∧ rom decoding.params (Instr.decode 0).fmt = some (romNes1bpp binding) ∧
    memoryPlan (romNes1bpp binding) decoding (.decode 0) = some decodingPlan ∧ decodingPlan.ordinary decoding = true ∧
    exec (.decode 0) decoding = .next (ran (.decode 0) decoding) ∧ ¬ decodingPlan.inDst decoding 0x2040 :=
  ⟨by decide, by decide, by decide, by decide, exec_ran _ _, by decide⟩

/-- A command that is no ENCODE; an ENCODE that fails; an ENCODE with a pixel out of range that succeeds. -/
theorem witness_RangeMarksTruncatedPixels :
    isEncode (.decode 0) = false ∧ (ran (.encode 2) encoding).status.err = .unknownFormat ∧ encoding.Accepted ∧ encoding.mem.wf ∧
    rom encoding.params 0 = some (romNes1bpp binding) ∧ InOrdinaryMemory (.encode 0) encoding ∧
    exec (.encode 0) encoding = .next (ran (.encode 0) encoding) ∧
    (ran (.encode 0) encoding).status.err = .ok ∧ (ran (.encode 0) encoding).status.range = true :=
  ⟨by decide, by decide, encoding_accepted, by decide, by decide, ram_everywhere rfl, exec_ran _ _, encoding_ok, by decide +kernel⟩

/-- Two states that differ in registers that SIZE_ENC does not read. -/
theorem witness_CommandsReadOnlyTheirArguments :
    decoding.Accepted ∧ encoding.Accepted ∧ encoding.params = decoding.params ∧ decoding.params.busErrors = false ∧
    SameArguments decoding encoding (.sizeEnc 0) ∧ SameArguments decoding decoding (.decode 0) ∧ InOrdinaryMemory (.decode 0) decoding ∧
    exec (.decode 0) decoding = .next (ran (.decode 0) decoding) :=
  ⟨decoding_accepted, encoding_accepted, by decide, by decide, by unfold SameArguments; decide, by unfold SameArguments; decide,
    ram_everywhere rfl, exec_ran _ _⟩

theorem witness_HiddenStateIsNeverRead : exec (.encode 0) encoding = .next (ran (.encode 0) encoding) := exec_ran _ _

/-- A derived height of 8, and the last `n` with height 0. -/
theorem witness_DerivedHeightClosedForm :
    rom binding 0 = some (romNes1bpp binding) ∧ (0 < 8 ∧ 8 % 8 = 0) ∧ 8 / (8 * (romNes1bpp binding).bpp) ≠ 0 ∧
    7 / (8 * (romNes1bpp binding).bpp) = 0 := by decide

theorem witness_WidthSelection :
    rom decoding.params 0 = some (romNes1bpp binding) ∧
    (decoding.width ≠ 0 ∧ decoding.width.toNat % (romNes1bpp binding).tileW = 0) ∧
    ((idle 0 0 0 0 12 0 []).width ≠ 0 ∧ (idle 0 0 0 0 12 0 []).width.toNat % (romNes1bpp binding).tileW ≠ 0) ∧
    (idle 0 0 0 0 0 0 []).width = 0 := by decide

/-- 2^32 pixels fail, one row of tiles fewer pass. -/
theorem witness_GeometryCheck :
    rom binding 0 = some (romNes1bpp binding) ∧
    (let bad := fun W H => W = 0 ∨ H = 0 ∨ W % (romNes1bpp binding).tileW ≠ 0 ∨ H % (romNes1bpp binding).tileH ≠ 0 ∨ 2 ^ 32 ≤ W * H
     bad 65536 65536 ∧ bad 0 8 ∧ ¬ bad 65528 65536 ∧ ¬ bad 8 8) := by decide

theorem witness_SizeCommandsAgree :
    rom binding 1 = some (romSnes4bpp binding) ∧ (ran (.sizeDec 1) (idle 0 100 0 0 8 0 [])).status.err = .ok ∧
    (ran (.sizeEnc 1) (idle 0 0 0 0 8 24 [])).status.err = .ok ∧
    exec (.sizeDec 1) (idle 0 100 0 0 8 0 []) = .next (ran (.sizeDec 1) (idle 0 100 0 0 8 0 [])) ∧
    exec (.sizeEnc 1) (idle 0 0 0 0 8 24 []) = .next (ran (.sizeEnc 1) (idle 0 0 0 0 8 24 [])) :=
  ⟨by decide, by decide, by decide, exec_ran _ _, exec_ran _ _⟩

theorem witness_PlaneByteOffsets : rom binding 1 = some (romSnes4bpp binding) ∧ rom binding 0 = some (romNes1bpp binding) := by decide

/-- The last plane byte of a 16 by 8 image is the last byte of its stream. -/
theorem witness_PlaneBytesTileTheStream :
    rom binding 1 = some (romSnes4bpp binding) ∧ 16 % 8 = 0 ∧ 8 % 8 = 0 ∧ 0 < 8 / 8 ∧ 1 < 16 / 8 ∧ 7 < 8 ∧ 3 < (romSnes4bpp binding).bpp ∧
    planeOff (romSnes4bpp binding) (0 * (16 / 8) + 1) 7 3 = 63 ∧ 63 < need (romSnes4bpp binding) 16 8 := by decide

/-- Adjacent extents pass, and extents that share one byte do not. -/
theorem witness_RegionsAreCheckedAndInSpace :
    GoodRegions (idle 0x1000 8 0x1008 64 8 8 []) 8 64 ∧ ¬ GoodRegions (idle 0x1000 8 0x1007 64 8 8 []) 8 64 ∧
    ¬ GoodRegions (idle 0xFFFFFFF8 9 0x1000 64 8 8 []) 8 64 ∧ GoodRegions (idle 0xFFFFFFF8 8 0x1000 64 8 8 []) 8 64 ∧
    memoryPlan (romNes1bpp binding) decoding (.decode 0) = some decodingPlan ∧ decodingPlan.inSrc decoding 0x1007 ∧
    decodingPlan.inDst decoding 0x2000 := by decide

theorem witness_DecodedPixelsAreInThePalette :
    (DecodeReady (romNes1bpp binding) decoding ∧ Undisturbed (.decode 0) decoding ∧
      exec (.decode 0) decoding = .next (ran (.decode 0) decoding) ∧ (ran (.decode 0) decoding).status.err = .ok ∧
      63 < decoding.width.toNat * decoding.height.toNat) ∧
    (DecodeAutoReady (romSnes4bpp binding) decodingAuto ∧ Undisturbed (.decodeAuto 1) decodingAuto ∧
      exec (.decodeAuto 1) decodingAuto = .next (ran (.decodeAuto 1) decodingAuto) ∧
      (ran (.decodeAuto 1) decodingAuto).status.err = .ok ∧
      63 < usedWidth (romSnes4bpp binding) decodingAuto * usedHeight (romSnes4bpp binding) decodingAuto) :=
  ⟨⟨decoding_ready, decoding_undisturbed, exec_ran _ _, decoding_ok, by decide⟩,
    ⟨decodingAuto_ready, decodingAuto_undisturbed, exec_ran _ _, decodingAuto_ok, by decide⟩⟩

/-- A bitmap whose pixels are all in the palette. -/
def goodBitmap : State := accepted 0x006 0x2000 64 0x3000 8 8 8 [(0x2000, 0x01), (0x203F, 0x01)]

/-- What the host sets up after the first half of a round trip, with `m` left in memory. -/
def reDecoding (m : Memory) : State := accepted 0x004 0x3000 8 0x4000 64 8 8 m

/-- The other way round. -/
def reEncoding (m : Memory) : State := accepted 0x006 0x2000 64 0x4000 8 8 8 m

theorem ran_mem_wf_goodBitmap : (ran (.encode 0) goodBitmap).mem.wf := by decide +kernel

theorem ran_mem_wf_decoding : (ran (.decode 0) decoding).mem.wf := by decide +kernel

theorem goodBitmap_ok : (ran (.encode 0) goodBitmap).status.err = .ok := by decide +kernel

theorem reDecoding_ok : (ran (.decode 0) (reDecoding (ran (.encode 0) goodBitmap).mem)).status.err = .ok := by decide +kernel

theorem reEncoding_ok : (ran (.encode 0) (reEncoding (ran (.decode 0) decoding).mem)).status.err = .ok := by decide +kernel

theorem witness_DecodeInvertsEncode :
    rom goodBitmap.params 0 = some (romNes1bpp binding) ∧ Undisturbed (.encode 0) goodBitmap ∧
    EncodeReady (romNes1bpp binding) goodBitmap ∧ goodBitmap.status.range = false ∧
    exec (.encode 0) goodBitmap = .next (ran (.encode 0) goodBitmap) ∧ (ran (.encode 0) goodBitmap).status.err = .ok ∧
    (∀ o, o < 64 → (Memory.read goodBitmap.mem (goodBitmap.srcBase.toNat + o)).toNat < (romNes1bpp binding).palSize) ∧
    (let s' := reDecoding (ran (.encode 0) goodBitmap).mem
     s'.params = goodBitmap.params ∧ s'.mem = (ran (.encode 0) goodBitmap).mem ∧ s'.srcBase = goodBitmap.dstBase ∧
     s'.width = goodBitmap.width ∧ s'.height = goodBitmap.height ∧ Undisturbed (.decode 0) s' ∧ DecodeReady (romNes1bpp binding) s' ∧
     exec (.decode 0) s' = .next (ran (.decode 0) s') ∧ (ran (.decode 0) s').status.err = .ok) :=
  ⟨by decide, ⟨by decide, rfl, ram_everywhere rfl⟩, by unfold EncodeReady; decide, by decide, exec_ran _ _, goodBitmap_ok,
    by decide +kernel, by decide, rfl, by decide, by decide, by decide, ⟨ran_mem_wf_goodBitmap, rfl, ram_everywhere rfl⟩,
    by unfold DecodeReady; decide, exec_ran _ _, reDecoding_ok⟩

theorem witness_EncodeInvertsDecode :
    rom decoding.params 0 = some (romNes1bpp binding) ∧ Undisturbed (.decode 0) decoding ∧ DecodeReady (romNes1bpp binding) decoding ∧
    exec (.decode 0) decoding = .next (ran (.decode 0) decoding) ∧ (ran (.decode 0) decoding).status.err = .ok ∧
    (let s' := reEncoding (ran (.decode 0) decoding).mem
     s'.params = decoding.params ∧ s'.mem = (ran (.decode 0) decoding).mem ∧ s'.srcBase = decoding.dstBase ∧ s'.width = decoding.width ∧
     s'.height = decoding.height ∧ s'.status.range = false ∧ Undisturbed (.encode 0) s' ∧ EncodeReady (romNes1bpp binding) s' ∧
     exec (.encode 0) s' = .next (ran (.encode 0) s') ∧ (ran (.encode 0) s').status.err = .ok) :=
  ⟨by decide, decoding_undisturbed, decoding_ready, exec_ran _ _, decoding_ok, by decide, rfl, by decide, by decide, by decide, by decide,
    ⟨ran_mem_wf_decoding, rfl, ram_everywhere rfl⟩, by unfold EncodeReady; decide, exec_ran _ _, reEncoding_ok⟩

/-- A store one byte past the destination extent, and a STATUS write. -/
theorem witness_QuietHostDoesNotDisturb :
    decoding.status.busy = true ∧ decoding.params.busErrors = false ∧ decoding.mem.wf ∧ decoding.touched = Touched.nothing ∧
    (∀ p, runningPlan decoding = some p → p.ordinary decoding = true) ∧ (HostAction.memWrite 0x2040 1).quiet decoding ∧
    (HostAction.busWrite 0x04 .word 8).quiet decoding ∧ ¬ (HostAction.busWrite 0x18 .word 8).quiet decoding ∧
    runCommand decoding = .next (after decoding) ∧
    runCommand (hostAct (.memWrite 0x2040 1) (writeRange decoding)) = .next (after (hostAct (.memWrite 0x2040 1) (writeRange decoding))) := by
  refine ⟨by decide, by decide, by decide, rfl, fun p hp => ?_, ⟨by decide, fun p hp => ?_⟩, ?_, ?_, step_after decoding,
    step_after (hostAct (.memWrite 0x2040 1) (writeRange decoding))⟩
  · obtain rfl := Option.some.inj (decoding_plan.symm.trans hp)
    decide
  · obtain rfl := Option.some.inj (decoding_plan.symm.trans hp)
    decide
  · show BusTarget.quietWrite _ = true
    decide
  · show ¬ BusTarget.quietWrite _ = true
    decide

/-- The host wrote the last destination byte during DECODE. -/
theorem witness_HostWriteRacesWithTheEngine :
    (let s := hostAct (.memWrite 0x203F 7) decoding
     s.params.busErrors = false ∧ s.mem.wf ∧ s.touched.source = false ∧ 0x203F ∈ s.touched.dest ∧ InOrdinaryMemory (.decode 0) s ∧
     exec (.decode 0) s = .next (ran (.decode 0) s) ∧
     exec (.decode 0) { s with touched := Touched.nothing } = .next (ran (.decode 0) { s with touched := Touched.nothing })) :=
  ⟨by decide, by decide, by decide, by decide, ram_everywhere (by decide), exec_ran _ _, exec_ran _ _⟩

/-- The edges of both extents; an idle engine, and a command without used extents. -/
theorem witness_HostStoresAreRecorded :
    (decoding.mem.wf ∧ decoding.params.ordinary 0x2040 1 = true ∧ decoding.status.busy = true ∧ runningPlan decoding = some decodingPlan) ∧
    (hostAct (.memWrite 0x1007 7) decoding).touched = ⟨true, []⟩ ∧ (hostAct (.memWrite 0x2000 7) decoding).touched = ⟨false, [0x2000]⟩ ∧
    (hostAct (.memWrite 0x2040 7) decoding).touched = Touched.nothing ∧
    (idle 0 0 0 0 0 0 []).status.busy = false ∧ runningPlan (accepted 0x001 0 0 0 0 0 0 []) = none := by decide

theorem witness_HostLoadsSeeOldOrNewBytes :
    (idle 0 0 0 0 0 0 []).params.ordinary 0x2000 1 = true ∧ (idle 0 0 0 0 0 0 []).status.busy = false ∧
    decoding.params.ordinary 0x2000 1 = true ∧ decoding.status.busy = true ∧ runCommand decoding = .next (after decoding) :=
  ⟨by decide, by decide, by decide, by decide, step_after decoding⟩

/-- The device's last byte, on memory with a byte listed. -/
theorem witness_AccessesOutsideRamLeaveTheRegisters :
    (let s : State := { decoding with params := deviceBinding }
     s.params.ordinary 0x800F 1 = false ∧ s.MemLegal) := by
  refine ⟨by decide, ?_⟩
  unfold State.MemLegal; decide

end Sys2Proof.Tests
end

section
/-! Proofs for 10_state.md, part 1: how a command can end, and what it keeps. -/

namespace Sys2Proof.Machine
open Sys2Proof.Claims

/-! ## The codes that checks raise -/

/-- A code that a check of R85 raises once the format is known. -/
def ErrCode.FromCheck (e : ErrCode) : Prop :=
  e = .nullOrEmptyInput ∨ e = .insufficientData ∨ e = .insufficientOutputCapacity ∨ e = .geometryError ∨ e = .regionError

/-- Every error `x` can raise comes from a check. -/
def ChecksOnly {α : Type} (x : Except ErrCode α) : Prop := ∀ e, x = .error e → e.FromCheck

theorem ChecksOnly.pure {α : Type} (a : α) : ChecksOnly (Pure.pure a : Except ErrCode α) := fun _ h => nomatch h

theorem ChecksOnly.bind {α β : Type} {x : Except ErrCode α} {f : α → Except ErrCode β} (hx : ChecksOnly x)
    (hf : ∀ a, ChecksOnly (f a)) : ChecksOnly (x >>= f) := fun e h => by
  rcases except_bind_error.mp h with h | ⟨a, -, h⟩
  · exact hx e h
  · exact hf a e h

theorem ChecksOnly.failIf {c : Prop} [Decidable c] {e : ErrCode} (he : e.FromCheck := by simp [ErrCode.FromCheck]) :
    ChecksOnly (failIf c e) :=
  fun _ h => (failIf_eq_error.mp h).2 ▸ he

theorem notEmpty_checksOnly (s : State) : ChecksOnly (notEmpty s) := .failIf

theorem geometryCheck_checksOnly (D : Descriptor) (W H : Nat) : ChecksOnly (geometryCheck D W H) :=
  .failIf

theorem selectWidth_checksOnly (D : Descriptor) (s : State) : ChecksOnly (selectWidth D s) :=
  .bind .failIf fun _ => .pure _

theorem deriveHeight_checksOnly (D : Descriptor) (n W : Nat) : ChecksOnly (deriveHeight D n W) :=
  .bind .failIf fun _ => .pure _

theorem checkRegions_checksOnly (s : State) (su du : Nat) : ChecksOnly (checkRegions s su du) :=
  .bind .failIf fun _ => .failIf

theorem sizeDecPlan_checksOnly (D : Descriptor) (s : State) : ChecksOnly (sizeDecPlan D s) :=
  .bind (selectWidth_checksOnly _ _) fun _ => .bind (deriveHeight_checksOnly _ _ _) fun _ =>
    .bind .failIf fun _ => .pure _

theorem sizeEncPlan_checksOnly (D : Descriptor) (s : State) : ChecksOnly (sizeEncPlan D s) :=
  .bind (geometryCheck_checksOnly _ _ _) fun _ => .pure _

theorem decodePlan_checksOnly (D : Descriptor) (s : State) : ChecksOnly (decodePlan D s) :=
  .bind (notEmpty_checksOnly _) fun _ => .bind (geometryCheck_checksOnly _ _ _) fun _ =>
    .bind .failIf fun _ => .bind .failIf fun _ =>
      .bind (checkRegions_checksOnly _ _ _) fun _ => .pure _

theorem decodeAutoPlan_checksOnly (D : Descriptor) (s : State) : ChecksOnly (decodeAutoPlan D s) :=
  .bind (notEmpty_checksOnly _) fun _ => .bind (selectWidth_checksOnly _ _) fun _ =>
    .bind (deriveHeight_checksOnly _ _ _) fun _ => .bind .failIf fun _ =>
      .bind .failIf fun _ => .bind (checkRegions_checksOnly _ _ _) fun _ => .pure _

theorem encodePlan_checksOnly (D : Descriptor) (s : State) : ChecksOnly (encodePlan D s) :=
  .bind (notEmpty_checksOnly _) fun _ => .bind (geometryCheck_checksOnly _ _ _) fun _ =>
    .bind .failIf fun _ => .bind .failIf fun _ =>
      .bind (checkRegions_checksOnly _ _ _) fun _ => .pure _

/-! ## One shape for the three memory commands, one for the two size commands -/

/-- The checks of a command after the format check; LOOKUP has none and computes no geometry. -/
def planOf (D : Descriptor) (s : State) : Instr → Except ErrCode Plan
  | .lookup _ => .ok ⟨0, 0, 0, 0, 0⟩
  | .sizeDec _ => sizeDecPlan D s
  | .sizeEnc _ => sizeEncPlan D s
  | .decode _ => decodePlan D s
  | .decodeAuto _ => decodeAutoPlan D s
  | .encode _ => encodePlan D s

/-- The walk of a memory command; the other commands have none. -/
def walkOf (D : Descriptor) (src dst : Nat) (p : Plan) : Instr → Datapath → Datapath
  | .lookup _ => id
  | .sizeDec _ => id
  | .sizeEnc _ => id
  | .decode _ => decodeTiles D src dst p.width p.height
  | .decodeAuto _ => decodeTiles D src dst p.width p.height
  | .encode _ => encodeTiles D src dst p.width p.height

theorem planOf_checksOnly (D : Descriptor) (s : State) (i : Instr) : ChecksOnly (planOf D s i) := by
  cases i with
  | lookup f => exact .pure _
  | sizeDec f => exact sizeDecPlan_checksOnly D s
  | sizeEnc f => exact sizeEncPlan_checksOnly D s
  | decode f => exact decodePlan_checksOnly D s
  | decodeAuto f => exact decodeAutoPlan_checksOnly D s
  | encode f => exact encodePlan_checksOnly D s

theorem memoryPlan_eq_planOf {i : Instr} (hi : accessesMemory i = true) (D : Descriptor) (s : State) :
    memoryPlan D s i = (planOf D s i).toOption :=
  match i, hi with
  | .decode _, _ => rfl
  | .decodeAuto _, _ => rfl
  | .encode _, _ => rfl

/-- The body of every command is one of three: an end at once, a size command, a memory command. -/
theorem bodyOf_shape (i : Instr) :
    (accessesMemory i = false ∧ ∀ D s, bodyOf i D s = finish s) ∨
    (accessesMemory i = false ∧ ∀ D s, bodyOf i D s = runSizeCommand (planOf D s i) s) ∨
    (accessesMemory i = true ∧ ∀ D s, bodyOf i D s = runMemoryCommand (isEncode i) (planOf D s i)
      (fun p => walkOf D s.srcBase.toNat s.dstBase.toNat p i) s) := by
  cases i with
  | lookup f => exact .inl ⟨rfl, fun _ _ => rfl⟩
  | sizeDec f => exact .inr (.inl ⟨rfl, fun _ _ => rfl⟩)
  | sizeEnc f => exact .inr (.inl ⟨rfl, fun _ _ => rfl⟩)
  | decode f => exact .inr (.inr ⟨rfl, fun _ _ => rfl⟩)
  | decodeAuto f => exact .inr (.inr ⟨rfl, fun _ _ => rfl⟩)
  | encode f => exact .inr (.inr ⟨rfl, fun _ _ => rfl⟩)

/-! ## How a command ends -/

/-- The body of a command ends in one of four ways: a check fails; it succeeds without memory access; it meets a bus error; or it
succeeds after its walk. -/
theorem bodyOf_cases (i : Instr) (D : Descriptor) (s : State) :
    (∃ e, planOf D s i = .error e ∧ bodyOf i D s = raiseErr e s) ∨
    (accessesMemory i = false ∧ ∃ w h b, bodyOf i D s = finish (s.setRes w h b)) ∨
    (∃ p, memoryPlan D s i = some p ∧ busErrorHits s = true ∧
      bodyOf i D s = raiseErr .busError (spoilForBusError (isEncode i) p s)) ∨
    (∃ p, memoryPlan D s i = some p ∧ busErrorHits s = false ∧ bodyOf i D s = finish ((afterWalk (isEncode i) p
      (walkOf D s.srcBase.toNat s.dstBase.toNat p i (Datapath.start s)) s).setRes
        (wordOf p.width) (wordOf p.height) (wordOf p.need))) := by
  rcases bodyOf_shape i with ⟨ha, h⟩ | ⟨ha, h⟩ | ⟨ha, h⟩ <;> rw [h]
  · exact .inr (.inl ⟨ha, s.resWidth, s.resHeight, s.resBytes, rfl⟩)
  · cases hx : planOf D s i with
    | error e => exact .inl ⟨e, rfl, runSizeCommand_error rfl⟩
    | ok p => exact .inr (.inl ⟨ha, _, _, _, runSizeCommand_ok rfl⟩)
  · rw [memoryPlan_eq_planOf ha]
    rcases runMemoryCommand_cases (isEncode i) (planOf D s i)
      (fun p => walkOf D s.srcBase.toNat s.dstBase.toNat p i) s with ⟨e, hx, ht⟩ | ⟨p, hx, hb, ht⟩ | ⟨p, hx, hb, ht⟩ <;>
      rw [ht, hx]
    · exact .inl ⟨e, rfl, rfl⟩
    · exact .inr (.inr (.inl ⟨p, rfl, hb, rfl⟩))
    · exact .inr (.inr (.inr ⟨p, rfl, hb, rfl⟩))

/-- A command raises UnknownFormat, or it writes DESC_* and runs its body. -/
theorem exec_cases {i : Instr} {s t : State} (h : exec i s = .next t) :
    (rom s.params i.fmt = none ∧ t = raiseErr .unknownFormat s) ∨
    ∃ D, rom s.params i.fmt = some D ∧ t = bodyOf i D (s.setDesc D.w0 D.w1 D.w2) := by
  cases hr : rom s.params i.fmt with
  | none => exact .inl ⟨rfl, (Host.Outcome.next.inj ((exec_unknown hr).symm.trans h)).symm⟩
  | some D => exact .inr ⟨D, rfl, (Host.Outcome.next.inj ((exec_known hr).symm.trans h)).symm⟩

/-- The engine's step raises IllegalCommand, or performs the command in CMD. -/
theorem runCommand_cases {s t : State} (h : runCommand s = .next t) :
    (∃ e, decodeWord s.cmd = .error e ∧ t = raiseErr .illegalCommand s) ∨
    ∃ i, decodeWord s.cmd = .ok i ∧ exec i s = .next t := by
  unfold runCommand at h
  split at h
  · exact .inr ⟨_, ‹_›, h⟩
  · exact .inl ⟨_, ‹_›, (Host.Outcome.next.inj h).symm⟩

/-! ## What every command keeps (R82, R83) -/

/-- The end of a command: BUSY 0, DONE 1, and all that no command changes as it was. -/
def EndOf (s t : State) : Prop := t.status.busy = false ∧ t.status.done = true ∧ KeptByCommands s t

theorem EndOf.raiseErr (e : ErrCode) (s : State) : EndOf s (raiseErr e s) := by simp [EndOf, KeptByCommands]

theorem EndOf.finish {s t : State} (h : KeptByCommands s t) : EndOf s (finish t) := ⟨rfl, rfl, h⟩

theorem bodyOf_endOf (i : Instr) (D : Descriptor) (s : State) : EndOf s (bodyOf i D s) := by
  rcases bodyOf_cases i D s with ⟨e, -, h⟩ | ⟨-, w, r, b, h⟩ | ⟨p, -, -, h⟩ | ⟨p, -, -, h⟩ <;> rw [h]
  · exact .raiseErr e s
  · exact .finish (by simp [KeptByCommands])
  · simp [EndOf, KeptByCommands, spoilForBusError]
  · exact .finish (by simp [KeptByCommands, afterWalk])

theorem exec_endOf {i : Instr} {s t : State} (h : exec i s = .next t) : EndOf s t := by
  rcases exec_cases h with ⟨-, rfl⟩ | ⟨D, -, rfl⟩
  · exact .raiseErr _ s
  · exact bodyOf_endOf i D (s.setDesc D.w0 D.w1 D.w2)

theorem runCommand_endOf {s t : State} (h : runCommand s = .next t) : EndOf s t := by
  rcases runCommand_cases h with ⟨e, -, rfl⟩ | ⟨i, -, h⟩
  · exact .raiseErr _ s
  · exact exec_endOf h

theorem runCommand_params {s t : State} (h : runCommand s = .next t) : t.params = s.params := by
  obtain ⟨-, -, hp, -⟩ := runCommand_endOf h
  exact hp

theorem runCommand_ovr {s t : State} (h : runCommand s = .next t) : t.status.ovr = s.status.ovr := by
  obtain ⟨-, -, -, -, -, -, -, -, -, -, ho, -⟩ := runCommand_endOf h
  exact ho

end Sys2Proof.Machine
end

section
/-! Proofs for 10_state.md, part 2: what a host action and a whole step can do. -/

namespace Sys2Proof.Machine
open Sys2Proof.Claims

/-! ## Host actions -/

theorem busRead_eq (addr : Nat) (width : AccessWidth) (s : State) :
    ∃ d n, busRead addr width s = { s with hostData := d, draws := n } := by
  unfold busRead
  split
  · exact ⟨s.hostData, s.draws, rfl⟩
  · exact ⟨_, _, rfl⟩
  · exact ⟨_, _, rfl⟩

theorem deviceLoad_eq (s : State) : ∃ m tc d n, deviceLoad s = { s with mem := m, touched := tc, hostData := d, draws := n } := by
  unfold deviceLoad
  rw [hostSideEffects_eq]
  exact ⟨_, _, _, _, rfl⟩

theorem deviceStore_eq (s : State) : ∃ m tc n, deviceStore s = { s with mem := m, touched := tc, draws := n } := by
  unfold deviceStore
  rw [hostSideEffects_eq]
  exact ⟨_, _, _, rfl⟩

/-- A host action changes memory, its record and what the host has read at most, or it is a bus write, or a reset. -/
theorem hostAct_cases (a : HostAction) (s : State) :
    (∃ m tc d n, hostAct a s = { s with mem := m, touched := tc, hostData := d, draws := n }) ∨
    (∃ addr width v, a = .busWrite addr width v ∧ hostAct a s = busWrite addr width v s) ∨
    (∃ st addr width v, a = .statusAndWrite st addr width v ∧
      hostAct a s = busWrite addr width v (s.setStatus (s.status.hostWrite st))) ∨
    (a = .reset ∧ hostAct a s = resetEngine s) := by
  cases a with
  | idle => exact .inl ⟨_, _, _, _, rfl⟩
  | busRead addr width =>
    obtain ⟨d, n, h⟩ := busRead_eq addr width s
    exact .inl ⟨s.mem, s.touched, d, n, h⟩
  | busWrite addr width v => exact .inr (.inl ⟨_, _, _, rfl, rfl⟩)
  | statusAndWrite st addr width v => exact .inr (.inr (.inl ⟨_, _, _, _, rfl, rfl⟩))
  | memRead a =>
    refine .inl ?_
    by_cases h : s.params.ordinary a.toNat 1 = true
    · exact ⟨s.mem, s.touched, _, _, if_pos h⟩
    · rw [show hostAct (.memRead a) s = deviceLoad s from if_neg h]
      exact deviceLoad_eq s
  | memWrite a v =>
    refine .inl ?_
    by_cases h : s.params.ordinary a.toNat 1 = true
    · rw [show hostAct (.memWrite a v) s = hostStore a v s from if_pos h, hostStore_eq]
      exact ⟨_, _, _, _, rfl⟩
    · rw [show hostAct (.memWrite a v) s = deviceStore s from if_neg h]
      obtain ⟨m, tc, n, h⟩ := deviceStore_eq s
      exact ⟨m, tc, s.hostData, n, h⟩
  | reset => exact .inr (.inr (.inr ⟨rfl, rfl⟩))

@[simp] theorem resetEngine_params (s : State) : (resetEngine s).params = s.params := rfl
@[simp] theorem resetEngine_status (s : State) : (resetEngine s).status = ⟨false, false, false, false, .ok⟩ := rfl

theorem hostWriteReg_params (r : RegName) (v : Word) (s : State) : (hostWriteReg r v s).params = s.params := by
  rcases hostWriteReg_cases r v s with h | ⟨-, h⟩ | ⟨-, h⟩ | ⟨-, -, h⟩ | ⟨-, a, b, c, d, e, f, h⟩ <;> rw [h] <;> rfl

theorem busWrite_params (addr : Nat) (width : AccessWidth) (v : Word) (s : State) :
    (busWrite addr width v s).params = s.params := by
  rcases busWrite_cases addr width v s with h | ⟨r, -, h⟩ <;> rw [h]
  exact hostWriteReg_params r v s

theorem hostAct_params (a : HostAction) (s : State) : (hostAct a s).params = s.params := by
  rcases hostAct_cases a s with ⟨m, tc, d, n, h⟩ | ⟨addr, width, v, -, h⟩ | ⟨st, addr, width, v, -, h⟩ | ⟨-, h⟩ <;> rw [h]
  · exact busWrite_params addr width v s
  · exact busWrite_params addr width v _
  · rfl

/-- A bus write leaves CMD alone while BUSY. -/
theorem busWrite_cmd {addr : Nat} {width : AccessWidth} {v : Word} {s : State} (hb : s.status.busy = true) :
    (busWrite addr width v s).cmd = s.cmd := by
  rcases busWrite_cases addr width v s with h | ⟨r, -, h⟩ <;> rw [h]
  rcases hostWriteReg_cases r v s with h | ⟨-, h⟩ | ⟨-, h⟩ | ⟨hn, -⟩ | ⟨hn, -⟩
  · rw [h]
  · rw [h]; rfl
  · rw [h]; rfl
  · exact absurd hn (by simp [hb])
  · exact absurd hn (by simp [hb])

/-- While a command runs, only a reset changes CMD, and it stops the command. -/
theorem hostAct_cmd {a : HostAction} {s : State} (hb : s.status.busy = true) :
    (hostAct a s).cmd = s.cmd ∨ (hostAct a s).status.busy = false := by
  rcases hostAct_cases a s with ⟨m, tc, d, n, h⟩ | ⟨addr, width, v, -, h⟩ | ⟨st, addr, width, v, -, h⟩ | ⟨-, h⟩ <;> rw [h]
  · exact .inl rfl
  · exact .inl (busWrite_cmd hb)
  · exact .inl (busWrite_cmd hb)
  · exact .inr rfl

/-! ## OVR (R20) -/

/-- An access that meets STATUS is an aligned 32-bit one at offset 4. -/
theorem busTarget_eq_status {p : Params} {addr : Nat} {width : AccessWidth} (h : busTarget p addr width = .reg .status) :
    addr = p.engineBase + 0x04 ∧ width = .word := by
  unfold busTarget at h
  split at h
  · cases h
  · split at h
    · rename_i hin hal
      have hk : (addr - p.engineBase) / 4 = 1 := by
        generalize (addr - p.engineBase) / 4 = k at h
        unfold RegName.ofWordIndex at h
        split at h <;> simp_all
      exact ⟨by omega, hal.1⟩
    · cases h

/-- A bus write that clears OVR is a write to STATUS with bit 3 = 1. -/
theorem busWrite_clears_ovr {addr : Nat} {width : AccessWidth} {v : Word} {s : State} (hs : s.status.ovr = true)
    (ht : (busWrite addr width v s).status.ovr = false) :
    v.getLsbD 3 = true ∧ addr = s.params.engineBase + 0x04 ∧ width = .word := by
  rcases busWrite_cases addr width v s with h | ⟨r, hr, h⟩ <;> rw [h] at ht
  · exact absurd hs (by simp [ht])
  · rcases hostWriteReg_cases r v s with h | ⟨rfl, h⟩ | ⟨-, h⟩ | ⟨-, -, h⟩ | ⟨-, a, b, c, d, e, f, h⟩ <;> rw [h] at ht
    · exact absurd hs (by simp [ht])
    · exact ⟨by simpa [hs] using ht, busTarget_eq_status hr⟩
    · exact absurd ht (by simp)
    · exact absurd hs (by simpa using ht)
    · exact absurd hs (by simpa using ht)

/-- What clears OVR is a STATUS write with bit 3 = 1, or reset. -/
theorem hostAct_clears_ovr {a : HostAction} {s : State} (hs : s.status.ovr = true) (ht : (hostAct a s).status.ovr = false) :
    ClearsOvr s.params a := by
  rcases hostAct_cases a s with ⟨m, tc, d, n, h⟩ | ⟨addr, width, v, rfl, h⟩ | ⟨st, addr, width, v, rfl, h⟩ | ⟨rfl, -⟩
  · rw [h] at ht
    exact absurd hs (by simpa using ht)
  · rw [h] at ht
    obtain ⟨hv, rfl, rfl⟩ := busWrite_clears_ovr hs ht
    exact .inr (.inl ⟨v, hv, rfl⟩)
  · rw [h] at ht
    refine .inr (.inr ⟨st, addr, width, v, rfl, ?_⟩)
    cases hst : st.getLsbD 3 with
    | true => exact .inl rfl
    | false =>
      have hs' : (s.status.hostWrite st).ovr = true := by rw [Status.hostWrite_ovr, hs, hst]; rfl
      exact .inr (busWrite_clears_ovr (s := s.setStatus (s.status.hostWrite st)) hs' ht)
  · exact .inl rfl

/-! ## Steps -/

@[simp] theorem writeRange_params (s : State) : (writeRange s).params = s.params := by rw [writeRange_eq]; rfl
@[simp] theorem writeRange_cmd (s : State) : (writeRange s).cmd = s.cmd := by rw [writeRange_eq]; rfl
@[simp] theorem writeRange_busy (s : State) : (writeRange s).status.busy = s.status.busy := by rw [writeRange_eq]; rfl
@[simp] theorem writeRange_ovr (s : State) : (writeRange s).status.ovr = s.status.ovr := by rw [writeRange_eq]; rfl

theorem step_engine {s : State} (h : engineTurn s = true) : step s = runCommand s := if_pos h

theorem busy_of_engineTurn {s : State} (h : engineTurn s = true) : s.status.busy = true :=
  (Bool.and_eq_true_iff.mp h).1

/-- A step is the engine's, or the host has nothing left to do, or it is the host's next action. -/
theorem step_cases {s t : State} (h : step s = .next t) :
    (s.status.busy = true ∧ runCommand s = .next t) ∨ t = s ∨
    ∃ a rest, s.pending = a :: rest ∧ t = hostAct a (writeRange { s with pending := rest, wait := s.wait - 1 }) := by
  unfold step at h
  split at h
  · exact .inl ⟨busy_of_engineTurn ‹_›, h⟩
  · obtain rfl := Host.Outcome.next.inj h
    unfold hostTurn
    split
    · exact .inr (.inl rfl)
    · exact .inr (.inr ⟨_, _, ‹_›, rfl⟩)

theorem step_params {s t : State} (h : step s = .next t) : t.params = s.params := by
  rcases step_cases h with ⟨-, h⟩ | rfl | ⟨a, rest, -, rfl⟩
  · exact runCommand_params h
  · rfl
  · rw [hostAct_params, writeRange_params]

/-! ## Aligned 32-bit accesses at an offset of the block -/

theorem hostWrite_eq {off : Nat} (h : off < 64) (h4 : off % 4 = 0) (v : Word) (s : State) :
    hostWrite off v s = hostWriteReg (.ofWordIndex (off / 4)) v s := by
  show busWrite _ _ _ _ = _
  unfold busWrite
  rw [busTarget_offset s.params h h4]

theorem hostRead_eq {off : Nat} (h : off < 64) (h4 : off % 4 = 0) (s : State) :
    hostRead off s = returnToHost (regWord (.ofWordIndex (off / 4)) s) s := by
  show busRead _ _ _ = _
  unfold busRead
  rw [busTarget_offset s.params h h4]

theorem hostRead_hostData {off : Nat} (h : off < 64) (h4 : off % 4 = 0) (s : State) :
    (hostRead off s).hostData = regWord (.ofWordIndex (off / 4)) s := by
  rw [hostRead_eq h h4]; rfl

theorem unlessBusy_busy {write : State → State} {s : State} (h : s.status.busy = true) :
    unlessBusy write s = s.setStatus s.status.dropped := if_pos h

theorem unlessBusy_idle {write : State → State} {s : State} (h : s.status.busy = false) : unlessBusy write s = write s :=
  if_neg (by simp [h])

/-- A write to CMD or an argument register while BUSY is dropped (R20). -/
theorem hostWriteReg_dropped {r : RegName} (hr : r ∈ [.cmd, .srcBase, .srcLen, .dstBase, .dstLen, .width, .height])
    (v : Word) {s : State} (h : s.status.busy = true) : hostWriteReg r v s = s.setStatus s.status.dropped := by
  cases r with
  | cmd | srcBase | srcLen | dstBase | dstLen | width | height => rw [hostWriteReg, unlessBusy_busy h]
  | status | resWidth | resHeight | resBytes | descW0 | descW1 | descW2 | reserved => simp at hr

/-- A write to STATUS, a read-only or a reserved word never sets OVR. -/
theorem hostWriteReg_ovr {r : RegName} (hr : r ∉ [.cmd, .srcBase, .srcLen, .dstBase, .dstLen, .width, .height])
    (v : Word) {s : State} (h : (hostWriteReg r v s).status.ovr = true) : s.status.ovr = true := by
  cases r with
  | cmd | srcBase | srcLen | dstBase | dstLen | width | height => simp at hr
  | status => exact (Bool.and_eq_true_iff.mp h).1
  | resWidth | resHeight | resBytes | descW0 | descW1 | descW2 | reserved => exact h

end Sys2Proof.Machine
end

section
/-! Proofs for 10_state.md, part 3: the invariant of the machine over every step (O9). -/

namespace Sys2Proof.Machine
open Sys2Proof.Claims

/-! ## What the invariant does not look at -/

/-- The model's own fields, the hidden state and what the host last read play no part. -/
theorem State.Inv.ownFields {s : State} (h : s.Inv) (pe : List HostAction) (w rw : Nat) (hi : Hidden) (d : Word) (n : Nat) :
    State.Inv { s with pending := pe, wait := w, rangeWait := rw, hidden := hi, hostData := d, draws := n } where
  status := h.status
  range := h.range
  results := h.results
  desc := h.desc
  mem := h.mem
  touched := h.touched

/-- OVR plays no part. -/
theorem State.Inv.ovr {s : State} (h : s.Inv) (b : Bool) : State.Inv (s.setStatus { s.status with ovr := b }) where
  status := h.status
  range := h.range
  results := h.results
  desc := h.desc
  mem := h.mem
  touched := h.touched

/-- Memory and the record of host writes may change to any legal ones. -/
theorem State.Inv.memory {s : State} (h : s.Inv) {m : Memory} {tc : Touched} (hm : m.wf ∧ m.inSpace)
    (ht : s.status.busy = true → ∀ a ∈ tc.dest, a < 2 ^ 32 ∧ ∃ p, runningPlan s = some p ∧ p.inDst s a) :
    State.Inv { s with mem := m, touched := tc } where
  status := h.status
  range := h.range
  results := h.results
  desc := h.desc
  mem := hm
  touched := ht

/-! ## The running command's plan -/

theorem runningPlan_eq_some {s : State} {p : Plan} : runningPlan s = some p ↔ ∃ (i : Instr) (D : Descriptor),
    decodeWord s.cmd = .ok i ∧ rom s.params i.fmt = some D ∧ memoryPlan D s i = some p := by
  unfold runningPlan
  split
  · simp [*]
  · split <;> simp [*]

theorem runningPlan_sound {s : State} {p : Plan} (h : runningPlan s = some p) : ∃ D : Descriptor, p.Sound D s := by
  obtain ⟨i, D, -, hD, hp⟩ := runningPlan_eq_some.mp h
  exact ⟨D, memoryPlan_sound (rom_fits hD) hp⟩

/-- RANGE is 0 while a command runs that is not an ENCODE with its checks passed. -/
theorem State.RangeLegal.no_plan {s : State} (h : s.RangeLegal) (hb : s.status.busy = true) (hp : runningPlan s = none) :
    s.status.range = false := by
  refine Bool.eq_false_iff.mpr fun hr => ?_
  obtain ⟨f, D, p, hd, hD, hm⟩ := h hb hr
  have := runningPlan_eq_some.mpr ⟨_, D, hd, hD, hm⟩
  rw [hp] at this
  cases this

/-- FMT of the decoded command is the FMT field of its word (R46). -/
theorem decodeWord_fmt {w : Word} {i : Instr} (h : decodeWord w = .ok i) : i.fmt = fmtField w := by
  unfold decodeWord at h
  split_ifs at h
  unfold opcodeMap at h
  split at h
  case h_7 => cases h
  all_goals obtain rfl := Except.ok.inj h; rfl

/-! ## Host actions keep the invariant -/

theorem writeRange_inv {s : State} (h : s.Inv) : (writeRange s).Inv := by
  rcases writeRange_cases s with he | ⟨he, hb, hr⟩ <;> rw [he]
  · exact h
  · obtain ⟨hd, herr⟩ := h.status.1 hb
    obtain ⟨f, D, p, hw, hD, hp, -⟩ := runningSetsRange_encode hr
    exact {
      status := ⟨h.status.1, fun hn => absurd hb (by simp [show s.status.busy = false from hn]), fun _ => .inl herr, h.status.2.2.2⟩
      range := fun _ _ => ⟨f, D, p, hw, hD, by
        show (encodePlan D s).toOption = some p
        rw [hp]; rfl⟩
      results := h.results
      desc := h.desc
      mem := h.mem
      touched := h.touched }

theorem mem_touch_dest {p : Plan} {a b : Nat} {s : State} :
    b ∈ (touch p a s).dest ↔ b ∈ s.touched.dest ∨ (b = a ∧ p.inDst s a) := by
  unfold touch
  split
  · rw [List.mem_insert_iff, or_comm, and_iff_left ‹p.inDst s a›]
  · refine ⟨.inl, ?_⟩
    rintro (h | ⟨rfl, h⟩)
    · exact h
    · exact absurd h ‹¬ p.inDst s b›

theorem hostStore_inv {s : State} (h : s.Inv) (a : Word) (v : Byte) : (hostStore a v s).Inv := by
  rw [hostStore_eq]
  refine h.memory ⟨Memory.write_wf _ _ h.mem.1, Memory.write_inSpace _ h.mem.2 a.isLt⟩ fun hb b hbt => ?_
  cases hp : runningPlan s with
  | none =>
    rw [hostStore_touched_idle (.inr hp)] at hbt
    exact hp ▸ h.touched hb b hbt
  | some p =>
    rw [hostStore_touched hb hp] at hbt
    rcases mem_touch_dest.mp hbt with hbt | ⟨rfl, hin⟩
    · exact hp ▸ h.touched hb b hbt
    · exact ⟨a.isLt, p, rfl, hin⟩

theorem hostSideEffects_inv {s : State} (h : s.Inv) : (hostSideEffects s).Inv :=
  hostSideEffects_keeps State.Inv h fun a v _ ht => hostStore_inv ht a v

theorem accept_inv {s : State} (h : s.Inv) (v : Word) : (accept v s).Inv where
  status := by simp [Status.Legal]
  range := fun _ hr => nomatch hr
  results := fun _ => ⟨rfl, rfl, rfl⟩
  desc := by simp [State.DescLegal]
  mem := h.mem
  touched := fun _ _ ha => nomatch ha

/-- While the engine is idle the argument registers play no part. -/
theorem State.Inv.arguments {s : State} (h : s.Inv) (hb : s.status.busy = false) (a b c d e f : Word) :
    State.Inv { s with srcBase := a, srcLen := b, dstBase := c, dstLen := d, width := e, height := f } where
  status := h.status
  range := fun hb' => absurd hb' (by simp [hb])
  results := h.results
  desc := h.desc
  mem := h.mem
  touched := fun hb' => absurd hb' (by simp [hb])

theorem hostWriteReg_inv {s : State} (h : s.Inv) (r : RegName) (v : Word) : (hostWriteReg r v s).Inv := by
  rcases hostWriteReg_cases r v s with he | ⟨-, he⟩ | ⟨-, he⟩ | ⟨-, -, he⟩ | ⟨hb, a, b, c, d, e, f, he⟩ <;> rw [he]
  · exact h
  · exact h.ovr _
  · exact h.ovr _
  · exact accept_inv h v
  · exact h.arguments hb a b c d e f

theorem busWrite_inv {s : State} (h : s.Inv) (addr : Nat) (width : AccessWidth) (v : Word) : (busWrite addr width v s).Inv := by
  rcases busWrite_cases addr width v s with he | ⟨r, -, he⟩ <;> rw [he]
  · exact h
  · exact hostWriteReg_inv h r v

/-- A reset leaves memory alone, or spoils the destination used extent of the aborted command (R97). -/
theorem resetEngine_mem_cases (s : State) : (resetEngine s).mem = s.mem ∨ ∃ p, runningPlan s = some p ∧
    (resetEngine s).mem = deviceEffects p s (Memory.spoil s.draws s.dstBase.toNat p.dstUsed s.mem) := by
  unfold resetEngine
  dsimp only
  split
  · split
    · exact .inl rfl
    · exact .inr ⟨_, ‹_›, rfl⟩
  · exact .inl rfl

theorem resetEngine_memLegal {s : State} (h : s.MemLegal) : (resetEngine s).MemLegal := by
  unfold State.MemLegal
  rcases resetEngine_mem_cases s with he | ⟨p, hp, he⟩ <;> rw [he]
  · exact h
  · obtain ⟨D, hs⟩ := runningPlan_sound hp
    exact ⟨deviceEffects_wf (Memory.spoil_wf h.1), deviceEffects_inSpace (Memory.spoil_inSpace h.2 hs.dst_end)⟩

theorem resetEngine_inv {s : State} (h : s.Inv) : (resetEngine s).Inv where
  status := by simp [Status.Legal]
  range := fun hb => nomatch hb
  results := fun _ => ⟨rfl, rfl, rfl⟩
  desc := by simp [State.DescLegal, resetEngine, State.reset]
  mem := resetEngine_memLegal h.mem
  touched := fun hb => nomatch hb

theorem hostAct_inv {s : State} (h : s.Inv) (a : HostAction) : (hostAct a s).Inv := by
  cases a with
  | idle => exact h
  | busRead addr width =>
    obtain ⟨d, n, he⟩ := busRead_eq addr width s
    rw [show hostAct (.busRead addr width) s = _ from he]
    exact h.ownFields ..
  | busWrite addr width v => exact busWrite_inv h addr width v
  | statusAndWrite st addr width v => exact busWrite_inv (hostWriteReg_inv h .status st) addr width v
  | memRead a =>
    show State.Inv (if _ then hostLoad a s else deviceLoad s)
    split
    · exact h.ownFields ..
    · exact (hostSideEffects_inv h).ownFields ..
  | memWrite a v =>
    show State.Inv (if _ then hostStore a v s else deviceStore s)
    split
    · exact hostStore_inv h a v
    · exact (hostSideEffects_inv h).ownFields ..
  | reset => exact resetEngine_inv h

/-! ## The engine's step keeps the invariant -/

theorem toOption_eq_some {ε α : Type} {x : Except ε α} {a : α} : x.toOption = some a ↔ x = .ok a := by
  cases x with
  | error e => exact ⟨fun h => (nomatch h), fun h => (nomatch h)⟩
  | ok b => simp [Except.toOption]

theorem runningPlan_eq {s : State} {i : Instr} {D : Descriptor} (hi : decodeWord s.cmd = .ok i)
    (hD : rom s.params i.fmt = some D) : runningPlan s = memoryPlan D s i := by
  unfold runningPlan
  rw [hi]
  dsimp only
  rw [hD]

/-- A command one of whose checks fails has no used extents. -/
theorem memoryPlan_of_error {D : Descriptor} {s : State} {i : Instr} {e : ErrCode} (h : planOf D s i = .error e) :
    memoryPlan D s i = none := by
  cases hp : memoryPlan D s i with
  | none => rfl
  | some p =>
    have ha : accessesMemory i = true := by
      match i, hp with
      | .decode _, _ => rfl
      | .decodeAuto _, _ => rfl
      | .encode _, _ => rfl
    rw [memoryPlan_eq_planOf ha, h] at hp
    cases hp

/-- The walk of a command that passed its checks keeps memory canonical and in its space. -/
theorem walkOf_memLegal {D : Descriptor} (hD : D.Fits) {s : State} {i : Instr} {p : Plan} (hp : memoryPlan D s i = some p)
    (hm : s.MemLegal) : (walkOf D s.srcBase.toNat s.dstBase.toNat p i (Datapath.start s)).mem.wf ∧
      (walkOf D s.srcBase.toNat s.dstBase.toNat p i (Datapath.start s)).mem.inSpace := by
  have hs := memoryPlan_sound hD hp
  have hg := hs.geometry
  have hap := hs.apart
  have hend := hs.dst_end
  have decoded : p.srcUsed = p.need → p.dstUsed = p.width * p.height →
      (decodeTiles D s.srcBase.toNat s.dstBase.toNat p.width p.height (Datapath.start s)).mem.wf ∧
      (decodeTiles D s.srcBase.toNat s.dstBase.toNat p.width p.height (Datapath.start s)).mem.inSpace := fun hsu hdu => by
    rw [hsu, hdu, hg.need] at hap
    rw [hdu] at hend
    have := (decodeTiles_spec hD (d0 := Datapath.start s) hm.1 hg.width_mod hg.height_mod hap).1
    exact ⟨this.wf, this.inSpace hend hm.2⟩
  match i, hp with
  | .decode _, hp =>
    obtain ⟨-, hsu, hdu⟩ := decodePlan_sound hD (toOption_eq_some.mp hp)
    exact decoded hsu hdu
  | .decodeAuto _, hp =>
    obtain ⟨-, hsu, hdu⟩ := decodeAutoPlan_sound hD (toOption_eq_some.mp hp)
    exact decoded hsu hdu
  | .encode _, hp =>
    obtain ⟨-, hsu, hdu⟩ := encodePlan_sound hD (toOption_eq_some.mp hp)
    rw [hsu, hdu, hg.need] at hap
    rw [hdu, hg.need] at hend
    have := (encodeTiles_spec hD (d0 := Datapath.start s) hm.1 hg.width_mod hg.height_mod hap).1
    exact ⟨this.wf, this.inSpace hend hm.2⟩

/-- The end of a command that reached no format: only STATUS is written. -/
theorem raiseErr_inv {s : State} (h : s.Inv) (hb : s.status.busy = true) (hp : runningPlan s = none) {e : ErrCode}
    (he : e = .unknownFormat ∨ e = .illegalCommand) : (raiseErr e s).Inv := by
  have hdone : s.status.done = false := (h.status.1 hb).1
  have hrange : s.status.range = false := h.range.no_plan hb hp
  exact {
    status := by rcases he with rfl | rfl <;> simp [Status.Legal, hrange]
    range := fun hb' => nomatch hb'
    results := fun _ => h.results (by simp [Status.succeeded, hdone])
    desc := by
      have hdesc := h.desc
      simp only [State.DescLegal, hdone] at hdesc
      rcases he with rfl | rfl <;> simpa [State.DescLegal] using hdesc
    mem := h.mem
    touched := fun hb' => nomatch hb' }

/-- The end of a command with a registered format. -/
theorem inv_of_end {s t : State} {D : Descriptor} (h : s.Inv) (hb : s.status.busy = true) (hend : EndOf s t)
    (hD : rom s.params (fmtField s.cmd) = some D) (hdesc : ShowsDescriptor D t)
    (herr : t.status.err = .ok ∨ t.status.err = .busError ∨ t.status.err.FromCheck)
    (hrange : t.status.range = true → t.status.err = .ok ∨ t.status.err = .busError)
    (hres : t.status.err ≠ .ok → SameResults s t) (hmem : t.MemLegal) : t.Inv := by
  obtain ⟨hbusy, hdone, hparams, hcmd, -⟩ := hend
  have hcodes : t.status.err ≠ .allocationFailure ∧ t.status.err ≠ .unknownFormat ∧ t.status.err ≠ .illegalCommand := by
    rcases herr with he | he | he | he | he | he | he <;> simp [he]
  exact {
    status := ⟨by simp [hbusy], by simp [hdone], hrange, hcodes.1⟩
    range := by simp [State.RangeLegal, hbusy]
    results := fun hs => by
      have hne : t.status.err ≠ .ok := by simpa [Status.succeeded, hdone] using hs
      obtain ⟨h1, h2, h3⟩ := hres hne
      rw [h1, h2, h3]
      exact h.results (by simp [Status.succeeded, (h.status.1 hb).1])
    desc := by
      rw [State.DescLegal, if_pos ⟨hdone, hcodes.2⟩, hparams, hcmd]
      exact ⟨D, hD, hdesc⟩
    mem := hmem
    touched := by simp [State.TouchedLegal, hbusy] }

theorem spoilForBusError_memLegal {s : State} {D : Descriptor} {p : Plan} (hs : p.Sound D s) (hm : s.MemLegal) (b : Bool) :
    (spoilForBusError b p s).MemLegal :=
  ⟨deviceEffects_wf (Memory.spoil_wf hm.1), deviceEffects_inSpace (Memory.spoil_inSpace hm.2 hs.dst_end)⟩

theorem bodyOf_inv {s : State} {i : Instr} {D : Descriptor} (h : s.Inv) (hb : s.status.busy = true)
    (hi : decodeWord s.cmd = .ok i) (hD : rom s.params i.fmt = some D) :
    (bodyOf i D (s.setDesc D.w0 D.w1 D.w2)).Inv := by
  have hend : EndOf s (bodyOf i D (s.setDesc D.w0 D.w1 D.w2)) := bodyOf_endOf i D (s.setDesc D.w0 D.w1 D.w2)
  have hfmt : rom s.params (fmtField s.cmd) = some D := decodeWord_fmt hi ▸ hD
  have hplan : memoryPlan D (s.setDesc D.w0 D.w1 D.w2) i = runningPlan s := (runningPlan_eq hi hD).symm
  have hfits := rom_fits hD
  rcases bodyOf_cases i D (s.setDesc D.w0 D.w1 D.w2) with ⟨e, he, ht⟩ | ⟨-, w, r, b, ht⟩ | ⟨p, hp, -, ht⟩ | ⟨p, hp, -, ht⟩ <;>
    rw [ht] at hend ⊢
  · have hr := h.range.no_plan hb (hplan ▸ memoryPlan_of_error he)
    exact inv_of_end h hb hend hfmt ⟨rfl, rfl, rfl⟩ (.inr (.inr (planOf_checksOnly _ _ _ e he)))
      (fun hrt => absurd hr (by simpa using hrt)) (fun _ => ⟨rfl, rfl, rfl⟩) h.mem
  · exact inv_of_end h hb hend hfmt ⟨rfl, rfl, rfl⟩ (.inl rfl) (fun _ => .inl rfl) (fun hne => absurd rfl hne) h.mem
  · exact inv_of_end h hb hend hfmt ⟨rfl, rfl, rfl⟩ (.inr (.inl rfl)) (fun _ => .inr rfl) (fun _ => ⟨rfl, rfl, rfl⟩)
      (spoilForBusError_memLegal (memoryPlan_sound hfits hp) h.mem (isEncode i))
  · obtain ⟨hwf, hsp⟩ := walkOf_memLegal hfits hp h.mem
    have hsp' := settleMem_inSpace (s := s.setDesc D.w0 D.w1 D.w2) (p := p) hsp (memoryPlan_sound hfits hp).dst_end
      fun a ha => (h.touched hb a ha).1
    exact inv_of_end h hb hend hfmt ⟨rfl, rfl, rfl⟩ (.inl rfl) (fun _ => .inl rfl) (fun hne => absurd rfl hne)
      ⟨settleMem_wf hwf, hsp'⟩

theorem runCommand_inv {s t : State} (h : s.Inv) (hb : s.status.busy = true) (ht : runCommand s = .next t) : t.Inv := by
  rcases runCommand_cases ht with ⟨e, he, rfl⟩ | ⟨i, hi, ht⟩
  · exact raiseErr_inv h hb (by unfold runningPlan; rw [he]) (.inr rfl)
  · rcases exec_cases ht with ⟨hn, rfl⟩ | ⟨D, hD, rfl⟩
    · exact raiseErr_inv h hb (by unfold runningPlan; rw [hi]; dsimp only; rw [hn]) (.inl rfl)
    · exact bodyOf_inv h hb hi hD

end Sys2Proof.Machine

namespace Sys2Proof.Proofs
open Sys2Proof.Machine

/-- Settles O9: the engine's step by the four ways a command can end, the host's by the kinds of host actions. -/
theorem stepKeepsTheInvariant : Obligations.StepKeepsTheInvariant := by
  intro s t h ht
  rcases step_cases ht with ⟨hb, ht⟩ | rfl | ⟨a, rest, -, rfl⟩
  · exact runCommand_inv h hb ht
  · exact h
  · exact hostAct_inv (writeRange_inv (h.ownFields ..)) a

end Sys2Proof.Proofs
end

section
/-! Proofs for 10_state.md, part 4: the registers as the host writes and reads them (O12, O16 to O19, O24). -/

namespace Sys2Proof.Machine
open Sys2Proof.Claims

/-! ## CMD and the argument registers -/

theorem hostWrite_dropped {off : Nat} (h : off ∈ [0x00, 0x08, 0x0C, 0x10, 0x14, 0x18, 0x1C]) (v : Word) {s : State}
    (hb : s.status.busy = true) : hostWrite off v s = s.setStatus s.status.dropped := by
  have key : off < 64 ∧ off % 4 = 0 ∧
      RegName.ofWordIndex (off / 4) ∈ [.cmd, .srcBase, .srcLen, .dstBase, .dstLen, .width, .height] := by
    revert off; decide
  obtain ⟨hlt, hal, hr⟩ := key
  rw [hostWrite_eq hlt hal, hostWriteReg_dropped hr v hb]

theorem hostWrite_cmd_idle (v : Word) {s : State} (hb : s.status.busy = false) : hostWrite 0x00 v s = accept v s := by
  rw [hostWrite_eq (by decide) (by decide)]
  exact unlessBusy_idle hb

/-- While a command runs and goes on running, its word stays in CMD. -/
theorem step_cmd {s t : State} (hb : s.status.busy = true) (h : step s = .next t) (ht : t.status.busy = true) :
    t.cmd = s.cmd := by
  rcases step_cases h with ⟨-, h⟩ | rfl | ⟨a, rest, -, rfl⟩
  · exact absurd ht (by simp [(runCommand_endOf h).1])
  · rfl
  · rcases hostAct_cmd (a := a) ((writeRange_busy { s with pending := rest, wait := s.wait - 1 }).trans hb) with h | h
    · rw [h, writeRange_cmd]
    · exact absurd ht (by simp [h])

theorem forall_argumentRegisters {P : Nat × (State → Word) → Prop} : (∀ r ∈ argumentRegisters, P r) ↔
    P (0x08, State.srcBase) ∧ P (0x0C, State.srcLen) ∧ P (0x10, State.dstBase) ∧ P (0x14, State.dstLen) ∧
    P (0x18, State.width) ∧ P (0x1C, State.height) := by
  simp [argumentRegisters]

theorem argumentRegister_offset : ∀ r ∈ argumentRegisters, r.1 ∈ [0x00, 0x08, 0x0C, 0x10, 0x14, 0x18, 0x1C] :=
  forall_argumentRegisters.mpr (by decide)

/-- While the engine is idle, a write to an argument register stores the word there, leaves the other ones, and changes
nothing else. -/
theorem hostWrite_argument (v : Word) {s : State} (hb : s.status.busy = false) : ∀ r ∈ argumentRegisters,
    r.2 (hostWrite r.1 v s) = v ∧ (∀ r' ∈ argumentRegisters, r'.1 ≠ r.1 → r'.2 (hostWrite r.1 v s) = r'.2 s) ∧
    ∃ a b c d e f, hostWrite r.1 v s =
      { s with srcBase := a, srcLen := b, dstBase := c, dstLen := d, width := e, height := f } := by
  refine forall_argumentRegisters.mpr ⟨?_, ?_, ?_, ?_, ?_, ?_⟩
  all_goals
    dsimp only
    rw [hostWrite_eq (by decide) (by decide), forall_argumentRegisters]
    simp [hostWriteReg, RegName.ofWordIndex, unlessBusy_idle hb]

theorem hostRead_argument (s : State) : ∀ r ∈ argumentRegisters, (hostRead r.1 s).hostData = r.2 s := by
  refine forall_argumentRegisters.mpr ⟨?_, ?_, ?_, ?_, ?_, ?_⟩
  all_goals exact hostRead_hostData (by decide) (by decide) s

theorem runCommand_argument {s t : State} (h : runCommand s = .next t) : ∀ r ∈ argumentRegisters, r.2 t = r.2 s := by
  obtain ⟨-, -, -, -, hsb, hsl, hdb, hdl, hw, hh, -⟩ := runCommand_endOf h
  exact forall_argumentRegisters.mpr ⟨hsb, hsl, hdb, hdl, hw, hh⟩

/-! ## STATUS as a word (R19) -/

theorem ErrCode.code_lt (e : ErrCode) : e.code < 16 := by cases e <;> decide

theorem Status.word_toNat (st : Status) : st.word.toNat =
    st.busy.toNat + 2 * st.done.toNat + 4 * st.range.toNat + 8 * st.ovr.toNat + 256 * st.err.code := by
  have := st.err.code_lt
  have := st.busy.toNat_le
  have := st.done.toNat_le
  have := st.range.toNat_le
  have := st.ovr.toNat_le
  exact Nat.mod_eq_of_lt (by omega)

/-- Bit `k` of STATUS is the field `b`, where the word's arithmetic says so. -/
theorem Status.word_bit {st : Status} {k : Nat} {b : Bool} (h : st.word.toNat / 2 ^ k % 2 = b.toNat) :
    st.word.getLsbD k = b := by
  rw [BitVec.getLsbD, Nat.testBit_eq_decide_div_mod_eq, h]
  cases b <;> rfl

end Sys2Proof.Machine

namespace Sys2Proof.Proofs
open Sys2Proof.Machine Sys2Proof.Claims

/-- Settles O18: dropped writes by the register table, what clears OVR by the kinds of host actions. -/
theorem droppedWritesSetOvr : Obligations.DroppedWritesSetOvr := by
  refine ⟨fun off hoff s v hb => ⟨hostWrite_dropped hoff v hb, fun st => ?_⟩, fun s t h hs ht => ?_, fun off hoff s v => ?_⟩
  · exact congrArg (·.status.ovr) (hostWrite_dropped (s := hostWriteReg .status st s) hoff v hb)
  · rcases step_cases h with ⟨-, h⟩ | rfl | ⟨a, rest, hp, rfl⟩
    · exact absurd hs (by simp [← runCommand_ovr h, ht])
    · exact absurd hs (by simp [ht])
    · have := hostAct_clears_ovr ((writeRange_ovr { s with pending := rest, wait := s.wait - 1 }).trans hs) ht
      exact ⟨a, rest, hp, by rwa [writeRange_params] at this⟩
  · have key : off < 64 ∧ off % 4 = 0 ∧
        RegName.ofWordIndex (off / 4) ∉ [.cmd, .srcBase, .srcLen, .dstBase, .dstLen, .width, .height] := by
      revert off; decide
    obtain ⟨hlt, hal, hr⟩ := key
    rw [hostWrite_eq hlt hal]
    exact hostWriteReg_ovr hr v

/-- Settles O12: the parameters, from which the ROM follows, are kept by every command and every host action. -/
theorem romIsConstant : Obligations.RomIsConstant := by
  refine ⟨fun s t f h => ?_, fun i s t f h => ?_, fun s f => rfl⟩
  · rw [step_params h]
  · obtain ⟨-, -, hp, -⟩ := exec_endOf h
    rw [hp]

/-- Settles O16. -/
theorem commandAcceptance : Obligations.CommandAcceptance := by
  refine ⟨fun s v hb => ?_, fun s t hb h ht => step_cmd hb h ht, fun s h => step_engine h,
    fun s v hb => hostWrite_dropped (by decide) v hb, fun s => ?_⟩
  · rw [hostWrite_cmd_idle v hb]; rfl
  · rw [hostRead_eq (by decide) (by decide)]
    exact ⟨rfl, rfl⟩

/-- Settles O17. -/
theorem argumentRegistersHoldWhatTheHostWrites : Obligations.ArgumentRegistersHoldWhatTheHostWrites := by
  refine ⟨fun r hr s v hb => ?_, fun r hr s v hb => hostWrite_dropped (argumentRegister_offset r hr) v hb,
    fun r hr s => hostRead_argument s r hr, fun r hr s t h => runCommand_argument h r hr⟩
  obtain ⟨hself, hother, a, b, c, d, e, f, he⟩ := hostWrite_argument v hb r hr
  refine ⟨hself, hother, ?_⟩
  rw [he]
  exact ⟨rfl, rfl, rfl, ⟨rfl, rfl, rfl⟩, rfl, rfl, rfl⟩

/-- Settles O19: the word as a number, and each bit of it by division. -/
theorem statusWordLayout : Obligations.StatusWordLayout := by
  refine ⟨fun st => ?_, fun s v => ?_, fun s => hostRead_hostData (by decide) (by decide) s⟩
  · have hword := st.word_toNat
    have := st.err.code_lt
    have := st.busy.toNat_le
    have := st.done.toNat_le
    have := st.range.toNat_le
    have := st.ovr.toNat_le
    refine ⟨Status.word_bit (by omega), Status.word_bit (by omega), Status.word_bit (by omega), Status.word_bit (by omega),
      BitVec.eq_of_toNat_eq ?_, BitVec.eq_of_toNat_eq ?_, ?_⟩ <;>
      rw [BitVec.extractLsb'_toNat, Nat.shiftRight_eq_div_pow, hword]
    · show _ = 0; omega
    · show _ = 0; omega
    · omega
  · rw [hostWrite_eq (by decide) (by decide)]; rfl

/-- Settles O24. -/
theorem readsReturnResults : Obligations.ReadsReturnResults := by
  refine ⟨fun r hr s hb => ?_, fun off hoff s => ?_⟩
  · have key : r.1 < 64 ∧ r.1 % 4 = 0 ∧ regWord (.ofWordIndex (r.1 / 4)) s = r.2 s := by
      revert r
      simp [resultRegisters, regWord, RegName.ofWordIndex, hb]
    obtain ⟨hlt, hal, hw⟩ := key
    rw [hostRead_hostData hlt hal, hw]
  · have key : off < 64 ∧ off % 4 = 0 ∧ RegName.ofWordIndex (off / 4) = .reserved := by
      revert off; decide
    obtain ⟨hlt, hal, hw⟩ := key
    rw [hostRead_hostData hlt hal, hw]; rfl

end Sys2Proof.Proofs
end

section
/-! Proofs for 10_state.md, part 5: what a command does not read (O41, O42). -/

namespace Sys2Proof.Machine
open Sys2Proof.Claims

/-! ## Two walks side by side -/

/-- Two loops whose rounds keep a relation. -/
theorem forUpTo_related {σ τ : Type} {f : Nat → σ → σ} {g : Nat → τ → τ} (R : σ → τ → Prop) :
    ∀ (n : Nat) {s : σ} {t : τ}, R s t → (∀ i, i < n → ∀ s t, R s t → R (f i s) (g i t)) → R (forUpTo n f s) (forUpTo n g t)
  | 0, _, _, h0, _ => h0
  | n + 1, _, _, h0, hs =>
    hs n (Nat.lt_succ_self n) _ _ (forUpTo_related R n h0 fun i hi => hs i (Nat.lt_succ_of_lt hi))

theorem tileWalk_related {D : Descriptor} {W H : Nat} {row : Nat → Nat → Nat → Datapath → Datapath}
    (R : Datapath → Datapath → Prop) (hrow : ∀ ty tx r d d', R d d' → R (row ty tx r d) (row ty tx r d')) {d d' : Datapath}
    (h : R d d') : R (tileWalk D W H row d) (tileWalk D W H row d') :=
  forUpTo_related R _ h fun ty _ _ _ h =>
    forUpTo_related R _ h fun tx _ _ _ h =>
      forUpTo_related R _ h fun r _ _ _ h => hrow ty tx r _ _ h

/-- Two datapaths that agree but for the plane scratch buffer. -/
def SameData (d d' : Datapath) : Prop := d'.mem = d.mem ∧ d'.range = d.range

/-- They agree in the first `n` planes too. -/
def SamePlanes (n : Nat) (d d' : Datapath) : Prop := SameData d d' ∧ ∀ p, p < n → d'.plane p = d.plane p

theorem SamePlanes.write {n a : Nat} {v : Byte} {d d' : Datapath} (h : SamePlanes n d d') :
    SamePlanes n (d.write a v) (d'.write a v) := by
  obtain ⟨⟨hm, hr⟩, hp⟩ := h
  exact ⟨⟨by simp [hm], hr⟩, hp⟩

/-- The planes in use are loaded before they are read (R72). -/
theorem loadPlanes_samePlanes {D : Descriptor} (hb : D.bpp ≤ 8) {src t r : Nat} {d d' : Datapath} (h : SameData d d') :
    SamePlanes D.bpp (loadPlanes D src t r d) (loadPlanes D src t r d') := by
  obtain ⟨hm, hr, hp⟩ := loadPlanes_spec D src t r d hb
  obtain ⟨hm', hr', hp'⟩ := loadPlanes_spec D src t r d' hb
  exact ⟨⟨by rw [hm, hm', h.1], by rw [hr, hr', h.2]⟩, fun p hlt => by rw [hp p hlt, hp' p hlt, h.1]⟩

/-- A pixel is made of the planes in use. -/
theorem assemblePixel_congr {n c : Nat} {d d' : Datapath} (h : ∀ p, p < n → d'.plane p = d.plane p) :
    assemblePixel n c d' = assemblePixel n c d :=
  BitVec.eq_of_getLsbD_eq fun p hp => by
    rw [assemblePixel_bit d' hp, assemblePixel_bit d hp]
    by_cases hn : p < n
    · rw [h p hn]
    · simp [hn]

theorem decodeRow_sameData {D : Descriptor} (hb : D.bpp ≤ 8) {src dst W ty tx r : Nat} {d d' : Datapath} (h : SameData d d') :
    SameData (decodeRow D src dst W ty tx r d) (decodeRow D src dst W ty tx r d') :=
  (forUpTo_related (SamePlanes D.bpp) 8 (loadPlanes_samePlanes hb h) fun c _ u u' hu => by
    rw [assemblePixel_congr hu.2]
    exact hu.write).1

/-- The planes in use are cleared before they are read (R77). -/
theorem clearPlanes_samePlanes {n : Nat} (hb : n ≤ 8) {d d' : Datapath} (h : SameData d d') :
    SamePlanes n (clearPlanes n d) (clearPlanes n d') := by
  obtain ⟨hm, hr, hp⟩ := clearPlanes_spec d hb
  obtain ⟨hm', hr', hp'⟩ := clearPlanes_spec d' hb
  exact ⟨⟨by rw [hm, hm', h.1], by rw [hr, hr', h.2]⟩, fun p hlt => by rw [hp p hlt, hp' p hlt]⟩

theorem packPixel_samePlanes {n : Nat} (hb : n ≤ 8) {v : Byte} {d d' : Datapath} (h : SamePlanes n d d') :
    SamePlanes n (packPixel n v d) (packPixel n v d') := by
  obtain ⟨hm, hr, hp⟩ := packPixel_spec v d hb
  obtain ⟨hm', hr', hp'⟩ := packPixel_spec v d' hb
  obtain ⟨⟨hmem, hrange⟩, hplane⟩ := h
  exact ⟨⟨by rw [hm, hm', hmem], by rw [hr, hr', hrange]⟩, fun p hlt => by rw [hp p hlt, hp' p hlt, hplane p hlt]⟩

theorem encodeRow_sameData {D : Descriptor} (hb : D.bpp ≤ 8) {src dst W ty tx r : Nat} {d d' : Datapath} (h : SameData d d') :
    SameData (encodeRow D src dst W ty tx r d) (encodeRow D src dst W ty tx r d') := by
  have packed := forUpTo_related (SamePlanes D.bpp) 8
    (f := fun c d => packPixel D.bpp (Memory.read d.mem (src + pixelOff D W ty tx r c)) d)
    (g := fun c d => packPixel D.bpp (Memory.read d.mem (src + pixelOff D W ty tx r c)) d)
    (clearPlanes_samePlanes hb h) fun c _ u u' hu => by
      rw [hu.1.1]
      exact packPixel_samePlanes hb hu
  exact (forUpTo_related (SamePlanes D.bpp) D.bpp packed fun p hp u u' hu => by
    rw [hu.2 p hp]
    exact hu.write).1

theorem decodeTiles_sameData {D : Descriptor} (hb : D.bpp ≤ 8) {src dst W H : Nat} {d d' : Datapath} (h : SameData d d') :
    SameData (decodeTiles D src dst W H d) (decodeTiles D src dst W H d') :=
  tileWalk_related (row := decodeRow D src dst W) SameData (fun _ _ _ _ _ => decodeRow_sameData hb) h

theorem encodeTiles_sameData {D : Descriptor} (hb : D.bpp ≤ 8) {src dst W H : Nat} {d d' : Datapath} (h : SameData d d') :
    SameData (encodeTiles D src dst W H d) (encodeTiles D src dst W H d') :=
  tileWalk_related (row := encodeRow D src dst W) SameData (fun _ _ _ _ _ => encodeRow_sameData hb) h

/-- No walk reads what the plane scratch buffer held before it. -/
theorem walkOf_sameData {D : Descriptor} (hD : D.Fits) {src dst : Nat} {p : Plan} (i : Instr) {d d' : Datapath}
    (h : SameData d d') : SameData (walkOf D src dst p i d) (walkOf D src dst p i d') := by
  cases i with
  | lookup f | sizeDec f | sizeEnc f => exact h
  | decode f | decodeAuto f => exact decodeTiles_sameData hD.bpp_le h
  | encode f => exact encodeTiles_sameData hD.bpp_le h

/-! ## The marked argument registers (R17) -/

/-- The checks of a command read the marked argument registers alone. -/
theorem planOf_congr {D : Descriptor} {s s' : State} {i : Instr} (h : SameArguments s s' i) : planOf D s' i = planOf D s i := by
  cases i with
  | lookup f => rfl
  | sizeDec f =>
    obtain ⟨hsl, hw⟩ := h
    unfold planOf sizeDecPlan selectWidth chosenWidth; rw [hsl, hw]
  | sizeEnc f =>
    obtain ⟨hw, hh⟩ := h
    unfold planOf sizeEncPlan; rw [hw, hh]
  | decode f =>
    obtain ⟨hsb, hsl, hdb, hdl, hw, hh⟩ := h
    unfold planOf decodePlan notEmpty checkRegions; rw [hsb, hsl, hdb, hdl, hw, hh]
  | decodeAuto f =>
    obtain ⟨hsb, hsl, hdb, hdl, hw⟩ := h
    unfold planOf decodeAutoPlan notEmpty selectWidth chosenWidth checkRegions; rw [hsb, hsl, hdb, hdl, hw]
  | encode f =>
    obtain ⟨hsb, hsl, hdb, hdl, hw, hh⟩ := h
    unfold planOf encodePlan notEmpty checkRegions; rw [hsb, hsl, hdb, hdl, hw, hh]

/-- Both base registers are marked for every command with memory access. -/
theorem sameArguments_bases {s s' : State} {i : Instr} (hi : accessesMemory i = true) (h : SameArguments s s' i) :
    s'.srcBase = s.srcBase ∧ s'.dstBase = s.dstBase :=
  match i, hi, h with
  | .decode _, _, ⟨hsb, _, hdb, _⟩ => ⟨hsb, hdb⟩
  | .decodeAuto _, _, ⟨hsb, _, hdb, _⟩ => ⟨hsb, hdb⟩
  | .encode _, _, ⟨hsb, _, hdb, _⟩ => ⟨hsb, hdb⟩

/-- The code and the result and descriptor registers are equal. -/
def SameOutcome (s s' : State) : Prop := s'.status.err = s.status.err ∧ SameResults s s' ∧ SameDescriptor s s'

theorem runSizeCommand_sameOutcome (x : Except ErrCode Plan) {s s' : State} (h : SameOutcome s s') :
    SameOutcome (runSizeCommand x s) (runSizeCommand x s') := by
  obtain ⟨-, hres, hdesc⟩ := h
  cases x with
  | error e => exact ⟨rfl, hres, hdesc⟩
  | ok p => exact ⟨rfl, ⟨rfl, rfl, rfl⟩, hdesc⟩

theorem runMemoryCommand_sameOutcome (b : Bool) (x : Except ErrCode Plan) (walk walk' : Plan → Datapath → Datapath) {s s' : State}
    (h : SameOutcome s s') (hb : busErrorHits s = false) (hb' : busErrorHits s' = false) :
    SameOutcome (runMemoryCommand b x walk s) (runMemoryCommand b x walk' s') := by
  obtain ⟨-, hres, hdesc⟩ := h
  cases x with
  | error e => exact ⟨rfl, hres, hdesc⟩
  | ok p =>
    rw [runMemoryCommand_ok rfl hb, runMemoryCommand_ok rfl hb']
    exact ⟨rfl, ⟨rfl, rfl, rfl⟩, hdesc⟩

theorem bodyOf_sameOutcome {i : Instr} (D : Descriptor) {s s' : State} (h : SameOutcome s s') (ha : SameArguments s s' i)
    (hb : busErrorHits s = false) (hb' : busErrorHits s' = false) : SameOutcome (bodyOf i D s) (bodyOf i D s') := by
  rcases bodyOf_shape i with ⟨-, hi⟩ | ⟨-, hi⟩ | ⟨-, hi⟩ <;> rw [hi, hi]
  · exact ⟨rfl, h.2⟩
  · rw [planOf_congr ha]
    exact runSizeCommand_sameOutcome _ h
  · rw [planOf_congr ha]
    exact runMemoryCommand_sameOutcome _ _ _ _ h hb hb'

/-- The memory that an undisturbed memory command leaves in ordinary RAM: that of its walk. -/
theorem runMemoryCommand_mem {b : Bool} {p : Plan} {walk : Plan → Datapath → Datapath} {s : State} (hb : busErrorHits s = false)
    (ht : s.touched = Touched.nothing) (ho : p.ordinary s = true) :
    (runMemoryCommand b (.ok p) walk s).mem = (walk p (Datapath.start s)).mem := by
  rw [runMemoryCommand_ok rfl hb]
  exact settleMem_nothing ht ho

theorem bodyOf_sameMem {i : Instr} {D : Descriptor} (hD : D.Fits) {s s' : State} (ha : SameArguments s s' i)
    (hparams : s'.params = s.params) (hmem : s'.mem = s.mem) (hrange : s'.status.range = s.status.range)
    (hb : busErrorHits s = false) (hb' : busErrorHits s' = false)
    (ht : s.touched = Touched.nothing) (ht' : s'.touched = Touched.nothing)
    (ho : ∀ p, memoryPlan D s i = some p → p.ordinary s = true) : (bodyOf i D s').mem = (bodyOf i D s).mem := by
  rcases bodyOf_shape i with ⟨-, hi⟩ | ⟨-, hi⟩ | ⟨hacc, hi⟩ <;> rw [hi, hi]
  · exact hmem
  · rw [planOf_congr ha]
    cases planOf D s i <;> exact hmem
  · rw [planOf_congr ha]
    cases hx : planOf D s i with
    | error e => exact hmem
    | ok p =>
      obtain ⟨hsb, hdb⟩ := sameArguments_bases hacc ha
      have hord : p.ordinary s = true := ho p (by rw [memoryPlan_eq_planOf hacc, hx]; rfl)
      have hord' : p.ordinary s' = true := by rw [← hord, Plan.ordinary, Plan.ordinary, hparams, hsb, hdb]
      rw [runMemoryCommand_mem hb ht hord, runMemoryCommand_mem hb' ht' hord', hsb, hdb]
      exact (walkOf_sameData hD i (d := Datapath.start s) ⟨hmem, hrange⟩).1

/-! ## The hidden state (R26) -/

/-- The walk's end reads memory and RANGE of the datapath alone. -/
theorem afterWalk_congr {b : Bool} {p : Plan} {s : State} {d d' : Datapath} (h : SameData d d') :
    afterWalk b p d' s = afterWalk b p d s := by
  unfold afterWalk
  rw [h.1, h.2]

/-- Two states that differ in the hidden state alone. -/
def SameButHidden (s s' : State) : Prop := s = { s' with hidden := s.hidden }

theorem runSizeCommand_hidden (x : Except ErrCode Plan) (s : State) (h : Hidden) :
    SameButHidden (runSizeCommand x s) (runSizeCommand x { s with hidden := h }) := by
  cases x <;> rfl

theorem runMemoryCommand_hidden {b : Bool} {x : Except ErrCode Plan} {walk : Plan → Datapath → Datapath}
    (hw : ∀ p d d', SameData d d' → SameData (walk p d) (walk p d')) (s : State) (h : Hidden) :
    SameButHidden (runMemoryCommand b x walk s) (runMemoryCommand b x walk { s with hidden := h }) := by
  cases x with
  | error e => rfl
  | ok p =>
    cases hb : busErrorHits s with
    | true =>
      rw [runMemoryCommand_busError rfl hb, runMemoryCommand_busError rfl (s := { s with hidden := h }) hb]
      rfl
    | false =>
      rw [runMemoryCommand_ok rfl hb, runMemoryCommand_ok rfl (s := { s with hidden := h }) hb,
        afterWalk_congr (hw p (Datapath.start s) (Datapath.start { s with hidden := h }) ⟨rfl, rfl⟩)]
      rfl

theorem sameArguments_hidden (i : Instr) (s : State) (h : Hidden) : SameArguments s { s with hidden := h } i := by
  cases i <;> simp [SameArguments]

theorem bodyOf_hidden {D : Descriptor} (hD : D.Fits) (i : Instr) (s : State) (h : Hidden) :
    SameButHidden (bodyOf i D s) (bodyOf i D { s with hidden := h }) := by
  rcases bodyOf_shape i with ⟨-, hi⟩ | ⟨-, hi⟩ | ⟨-, hi⟩ <;> rw [hi, hi]
  · rfl
  · rw [planOf_congr (sameArguments_hidden i s h)]
    exact runSizeCommand_hidden _ s h
  · rw [planOf_congr (sameArguments_hidden i s h)]
    exact runMemoryCommand_hidden (walk := fun p => walkOf D s.srcBase.toNat s.dstBase.toNat p i)
      (fun _ _ _ => walkOf_sameData hD i) s h

end Sys2Proof.Machine

namespace Sys2Proof.Proofs
open Sys2Proof.Machine Sys2Proof.Claims

/-- Settles O41: the checks and the walk read the marked registers alone; acceptance has made the rest equal. -/
theorem commandsReadOnlyTheirArguments : Obligations.CommandsReadOnlyTheirArguments := by
  intro i s s' t t' hs hs' hparams hbus ha ht ht'
  have hb : busErrorHits s = false := busErrorHits_of_not hbus
  have hb' : busErrorHits s' = false := busErrorHits_of_not (hparams ▸ hbus)
  have hres : SameResults s s' := by
    obtain ⟨h1, h2, h3⟩ := hs.results
    obtain ⟨h1', h2', h3'⟩ := hs'.results
    exact ⟨h1'.trans h1.symm, h2'.trans h2.symm, h3'.trans h3.symm⟩
  have hdesc : SameDescriptor s s' := by
    obtain ⟨h1, h2, h3⟩ := hs.desc
    obtain ⟨h1', h2', h3'⟩ := hs'.desc
    exact ⟨h1'.trans h1.symm, h2'.trans h2.symm, h3'.trans h3.symm⟩
  have hrange : s'.status.range = s.status.range := hs'.range.trans hs.range.symm
  rcases exec_cases ht with ⟨hn, rfl⟩ | ⟨D, hD, rfl⟩
  · obtain rfl := Host.Outcome.next.inj ((exec_unknown (hparams ▸ hn)).symm.trans ht')
    exact ⟨rfl, hres, hdesc, fun _ hm => hm⟩
  · obtain rfl := Host.Outcome.next.inj ((exec_known (hparams ▸ hD)).symm.trans ht')
    have ha' : SameArguments (s.setDesc D.w0 D.w1 D.w2) (s'.setDesc D.w0 D.w1 D.w2) i := ha
    obtain ⟨herr, hres', hdesc'⟩ := bodyOf_sameOutcome D
      (s := s.setDesc D.w0 D.w1 D.w2) (s' := s'.setDesc D.w0 D.w1 D.w2)
      ⟨hs'.err.trans hs.err.symm, hres, rfl, rfl, rfl⟩ ha' hb hb'
    exact ⟨herr, hres', hdesc', fun ho hm => bodyOf_sameMem (rom_fits hD) ha' hparams hm hrange hb hb' hs.touched hs'.touched
      fun p hp => ho D p hD hp⟩

/-- Settles O42: a walk fills the planes it uses before it reads them, and nothing else looks at the hidden state. -/
theorem hiddenStateIsNeverRead : Obligations.HiddenStateIsNeverRead := by
  intro i s t h ht
  rcases exec_cases ht with ⟨hn, rfl⟩ | ⟨D, hD, rfl⟩
  · exact ⟨_, exec_unknown (s := { s with hidden := h }) hn, rfl⟩
  · exact ⟨_, exec_known (s := { s with hidden := h }) hD, bodyOf_hidden (rom_fits hD) i (s.setDesc D.w0 D.w1 D.w2) h⟩

end Sys2Proof.Proofs
end

section
/-! Proofs for 20_memory.md, part 1: what a command does to memory (O35, O39, O54). -/

namespace Sys2Proof.Machine
open Sys2Proof.Claims

/-! ## The walk keeps to the destination used extent -/

/-- Memory `m` is canonical, and differs from that of `s` in the destination used extent at most. -/
def Plan.Confines (p : Plan) (s : State) (m : Memory) : Prop :=
  m.wf ∧ ∀ a, ¬ p.inDst s a → Memory.read m a = Memory.read s.mem a

theorem decodeTiles_confined {D : Descriptor} (hD : D.Fits) {s : State} {p : Plan} (hs : p.Sound D s) (hm : s.mem.wf)
    (hsu : p.srcUsed = p.need) (hdu : p.dstUsed = p.width * p.height) :
    p.Confines s (decodeTiles D s.srcBase.toNat s.dstBase.toNat p.width p.height (Datapath.start s)).mem := by
  have hg := hs.geometry
  have hap := hs.apart
  rw [hsu, hdu, hg.need] at hap
  have hw := (decodeTiles_spec hD (d0 := Datapath.start s) hm hg.width_mod hg.height_mod hap).1
  rw [← hdu] at hw
  exact ⟨hw.wf, hw.outside⟩

theorem encodeTiles_confined {D : Descriptor} (hD : D.Fits) {s : State} {p : Plan} (hs : p.Sound D s) (hm : s.mem.wf)
    (hsu : p.srcUsed = p.width * p.height) (hdu : p.dstUsed = p.need) :
    p.Confines s (encodeTiles D s.srcBase.toNat s.dstBase.toNat p.width p.height (Datapath.start s)).mem := by
  have hg := hs.geometry
  have hap := hs.apart
  rw [hsu, hdu, hg.need] at hap
  have hw := (encodeTiles_spec hD (d0 := Datapath.start s) hm hg.width_mod hg.height_mod hap).1
  rw [← hg.need, ← hdu] at hw
  exact ⟨hw.wf, hw.outside⟩

/-- The walk of a command that passed its checks writes its destination used extent alone. -/
theorem walkOf_confined {D : Descriptor} (hD : D.Fits) {s : State} {i : Instr} {p : Plan} (hp : memoryPlan D s i = some p)
    (hm : s.mem.wf) : p.Confines s (walkOf D s.srcBase.toNat s.dstBase.toNat p i (Datapath.start s)).mem :=
  match i, hp with
  | .decode _, hp =>
    have ⟨hs, hsu, hdu⟩ := decodePlan_sound hD (toOption_eq_some.mp hp)
    decodeTiles_confined hD hs hm hsu hdu
  | .decodeAuto _, hp =>
    have ⟨hs, hsu, hdu⟩ := decodeAutoPlan_sound hD (toOption_eq_some.mp hp)
    decodeTiles_confined hD hs hm hsu hdu
  | .encode _, hp =>
    have ⟨hs, hsu, hdu⟩ := encodePlan_sound hD (toOption_eq_some.mp hp)
    encodeTiles_confined hD hs hm hsu hdu

/-! ## Memory after a command -/

theorem memoryPlan_of_no_access {i : Instr} (h : accessesMemory i = false) (D : Descriptor) (s : State) :
    memoryPlan D s i = none :=
  match i, h with
  | .lookup _, _ => rfl
  | .sizeDec _, _ => rfl
  | .sizeEnc _, _ => rfl

/-- A command leaves memory alone, or it has a plan, and spoils its destination at a bus error or settles what its walk left. -/
theorem bodyOf_mem_cases (i : Instr) (D : Descriptor) (s : State) :
    (memoryPlan D s i = none ∧ (bodyOf i D s).mem = s.mem) ∨
    ∃ p, memoryPlan D s i = some p ∧
      ((busErrorHits s = true ∧ (bodyOf i D s).status.err = .busError ∧
        (bodyOf i D s).mem = deviceEffects p s (Memory.spoil s.draws s.dstBase.toNat p.dstUsed s.mem)) ∨
      (busErrorHits s = false ∧ (bodyOf i D s).status.err = .ok ∧
        (bodyOf i D s).mem = settleMem p s (walkOf D s.srcBase.toNat s.dstBase.toNat p i (Datapath.start s)).mem)) := by
  rcases bodyOf_cases i D s with ⟨e, he, h⟩ | ⟨ha, w, r, b, h⟩ | ⟨p, hp, hb, h⟩ | ⟨p, hp, hb, h⟩ <;> rw [h]
  · exact .inl ⟨memoryPlan_of_error he, rfl⟩
  · exact .inl ⟨memoryPlan_of_no_access ha D s, rfl⟩
  · exact .inr ⟨p, hp, .inl ⟨hb, rfl, rfl⟩⟩
  · exact .inr ⟨p, hp, .inr ⟨hb, rfl, rfl⟩⟩

/-- A detected error leaves memory as it was (R40). -/
theorem exec_mem_of_error {i : Instr} {s t : State} (h : exec i s = .next t) (hok : t.status.err ≠ .ok)
    (hbus : t.status.err ≠ .busError) : t.mem = s.mem := by
  rcases exec_cases h with ⟨-, rfl⟩ | ⟨D, -, rfl⟩
  · rfl
  · rcases bodyOf_mem_cases i D (s.setDesc D.w0 D.w1 D.w2) with ⟨-, hm⟩ | ⟨p, -, ⟨-, he, -⟩ | ⟨-, he, -⟩⟩
    · exact hm
    · exact absurd he hbus
    · exact absurd he hok

/-- In ordinary RAM a command changes its destination used extent alone, whichever way it ends (R33). -/
theorem bodyOf_mem_outside {i : Instr} {D : Descriptor} (hD : D.Fits) {s : State} {p : Plan} {a : Nat} (hm : s.mem.wf)
    (hp : memoryPlan D s i = some p) (ho : p.ordinary s = true) (ha : ¬ p.inDst s a) :
    Memory.read (bodyOf i D s).mem a = Memory.read s.mem a := by
  rcases bodyOf_mem_cases i D s with ⟨-, h⟩ | ⟨q, hq, ⟨-, -, h⟩ | ⟨-, -, h⟩⟩ <;> rw [h]
  · obtain rfl := Option.some.inj (hp.symm.trans hq)
    rw [deviceEffects_ordinary ho, Memory.read_spoil_outside ha]
  · obtain rfl := Option.some.inj (hp.symm.trans hq)
    obtain ⟨hwf, hout⟩ := walkOf_confined hD hp hm
    exact read_settleMem_outside ho hwf ha (hout a ha)

/-- A command without used extents leaves memory alone. -/
theorem bodyOf_mem_of_no_plan {i : Instr} {D : Descriptor} {s : State} (hn : memoryPlan D s i = none) :
    (bodyOf i D s).mem = s.mem := by
  rcases bodyOf_mem_cases i D s with ⟨-, h⟩ | ⟨p, hp, -⟩
  · exact h
  · exact absurd (hn.symm.trans hp) (by simp)

/-- Without a bus error a command with used extents leaves what its walk left, settled with the host's writes. -/
theorem bodyOf_mem_of_plan {i : Instr} {D : Descriptor} {s : State} {p : Plan} (hp : memoryPlan D s i = some p)
    (hb : busErrorHits s = false) : (bodyOf i D s).mem =
      settleMem p s (walkOf D s.srcBase.toNat s.dstBase.toNat p i (Datapath.start s)).mem := by
  rcases bodyOf_mem_cases i D s with ⟨hn, -⟩ | ⟨q, hq, ⟨hhit, -⟩ | ⟨-, -, h⟩⟩
  · exact absurd (hn.symm.trans hp) (by simp)
  · exact absurd (hb.symm.trans hhit) (by simp)
  · obtain rfl := Option.some.inj (hp.symm.trans hq)
    exact h

/-- The checks do not look at the record of host writes. -/
theorem memoryPlan_touched (i : Instr) (D : Descriptor) (s : State) (tc : Touched) :
    memoryPlan D { s with touched := tc } i = memoryPlan D s i := by
  cases i <;> rfl

/-- Where the host left the source alone, each byte is the one an undisturbed command leaves, or one the host wrote. -/
theorem bodyOf_mem_races {i : Instr} {D : Descriptor} (hD : D.Fits) {s : State} (hm : s.mem.wf) (hb : busErrorHits s = false)
    (hs : s.touched.source = false) (ho : ∀ p, memoryPlan D s i = some p → p.ordinary s = true) (b : Nat) :
    Memory.read (bodyOf i D s).mem b = Memory.read (bodyOf i D { s with touched := Touched.nothing }).mem b ∨
      (b ∈ s.touched.dest ∧ Memory.read (bodyOf i D s).mem b = Memory.read s.mem b) := by
  have hplan := memoryPlan_touched i D s Touched.nothing
  cases hp : memoryPlan D s i with
  | none => exact .inl (by rw [bodyOf_mem_of_no_plan hp, bodyOf_mem_of_no_plan (hplan.trans hp)])
  | some p =>
    have quiet : (bodyOf i D { s with touched := Touched.nothing }).mem =
        (walkOf D s.srcBase.toNat s.dstBase.toNat p i (Datapath.start s)).mem :=
      (bodyOf_mem_of_plan (hplan.trans hp) hb).trans (settleMem_nothing rfl (ho p hp))
    rw [quiet, bodyOf_mem_of_plan hp hb]
    exact read_settleMem b (ho p hp) (walkOf_confined hD hp hm).1 hs

end Sys2Proof.Machine

namespace Sys2Proof.Proofs
open Sys2Proof.Machine Sys2Proof.Claims

/-- Settles O35: a code other than OK and BusError comes from a check, before any access. -/
theorem detectedErrorsLeaveMemory : Obligations.DetectedErrorsLeaveMemory := by
  refine ⟨fun i s t h hok hbus => exec_mem_of_error h hok hbus, fun s t h hok hbus => ?_⟩
  rcases runCommand_cases h with ⟨e, -, rfl⟩ | ⟨i, -, h⟩
  · rfl
  · exact exec_mem_of_error h hok hbus

/-- Settles O39: the walk, the spoiling of a bus error and the settling of host writes all keep to the extent. -/
theorem commandsWriteOnlyTheirDestination : Obligations.CommandsWriteOnlyTheirDestination := by
  intro i s t D p a hm hD hp ho ht ha
  obtain rfl := Host.Outcome.next.inj ((exec_known hD).symm.trans ht)
  exact bodyOf_mem_outside (s := s.setDesc D.w0 D.w1 D.w2) (rom_fits hD) hm hp ho ha

/-- Settles O54: both runs make the same walk, and only the first settles bytes the host wrote. -/
theorem hostWriteRacesWithTheEngine : Obligations.HostWriteRacesWithTheEngine := by
  intro i s t t' hbus hm hs ho ht ht' b
  rcases exec_cases ht with ⟨hn, rfl⟩ | ⟨D, hD, rfl⟩
  · obtain rfl := Host.Outcome.next.inj ((exec_unknown (s := { s with touched := Touched.nothing }) hn).symm.trans ht')
    exact .inl rfl
  · obtain rfl := Host.Outcome.next.inj ((exec_known (s := { s with touched := Touched.nothing }) hD).symm.trans ht')
    exact bodyOf_mem_races (s := s.setDesc D.w0 D.w1 D.w2) (rom_fits hD) hm (busErrorHits_of_not hbus) hs
      (fun p hp => ho D p hD hp) b

end Sys2Proof.Proofs
end

section
/-! Proofs for 20_memory.md, part 2: what a host access does (O23, O55 to O57). -/

namespace Sys2Proof.Machine
open Sys2Proof.Claims

/-! ## The register block (R15, R28) -/

/-- A narrow or misaligned access inside the block meets no register. -/
theorem busTarget_ignored {p : Params} {addr : Nat} {width : AccessWidth} (hlo : p.engineBase ≤ addr)
    (hhi : addr < p.engineBase + 64) (h : width ≠ .word ∨ (addr - p.engineBase) % 4 ≠ 0) :
    busTarget p addr width = .ignored := by
  unfold busTarget
  rw [if_neg (by omega), if_neg (by tauto)]

/-- A bus read does not reach the engine, or returns a word. -/
theorem busRead_cases (addr : Nat) (width : AccessWidth) (s : State) :
    busRead addr width s = s ∨ ∃ v, busRead addr width s = returnToHost v s := by
  unfold busRead
  split
  · exact .inl rfl
  · exact .inr ⟨_, rfl⟩
  · exact .inr ⟨_, rfl⟩

theorem returnToHost_onlyHostData (v : Word) (s : State) : OnlyHostData s (returnToHost v s) := rfl

/-- A read-only or reserved word ignores a write (R15). -/
theorem hostWriteReg_readOnly {r : RegName}
    (hr : r ∈ [.resWidth, .resHeight, .resBytes, .descW0, .descW1, .descW2, .reserved]) (v : Word) (s : State) :
    hostWriteReg r v s = s := by
  cases r with
  | cmd | status | srcBase | srcLen | dstBase | dstLen | width | height => simp at hr
  | resWidth | resHeight | resBytes | descW0 | descW1 | descW2 | reserved => rfl

/-! ## Loads and stores, in ordinary RAM and outside it -/

theorem hostAct_memRead_ordinary {s : State} {a : Word} (h : s.params.ordinary a.toNat 1 = true) :
    hostAct (.memRead a) s = hostLoad a s := if_pos h

theorem hostAct_memRead_device {s : State} {a : Word} (h : s.params.ordinary a.toNat 1 = false) :
    hostAct (.memRead a) s = deviceLoad s := if_neg (by simp [h])

theorem hostAct_memWrite_ordinary {s : State} {a : Word} {v : Byte} (h : s.params.ordinary a.toNat 1 = true) :
    hostAct (.memWrite a v) s = hostStore a v s := if_pos h

theorem hostAct_memWrite_device {s : State} {a : Word} {v : Byte} (h : s.params.ordinary a.toNat 1 = false) :
    hostAct (.memWrite a v) s = deviceStore s := if_neg (by simp [h])

theorem memAfterCommand_eq {s t : State} (h : runCommand s = .next t) : memAfterCommand s = t.mem := by
  unfold memAfterCommand; rw [h]

/-- A load returns the byte of memory, or, while BUSY, the one the command leaves (R34). -/
theorem hostLoad_cases (a : Word) (s : State) :
    hostLoad a s = returnToHost ((Memory.read s.mem a.toNat).setWidth 32) s ∨
    (s.status.busy = true ∧ hostLoad a s = returnToHost ((Memory.read (memAfterCommand s) a.toNat).setWidth 32) s) := by
  unfold hostLoad
  cases hc : s.status.busy && Config.seesEngineByte s.draws with
  | true => exact .inr ⟨(Bool.and_eq_true_iff.mp hc).1, rfl⟩
  | false => exact .inl rfl

theorem touch_source {p : Plan} {a : Nat} {s : State} :
    (touch p a s).source = true ↔ s.touched.source = true ∨ p.inSrc s a := by
  simp [touch]

end Sys2Proof.Machine

namespace Sys2Proof.Proofs
open Sys2Proof.Machine Sys2Proof.Claims

/-- Settles O55: a store writes its byte, and records it by `touch`. -/
theorem hostStoresAreRecorded : Obligations.HostStoresAreRecorded := by
  refine ⟨fun s a v ho hm => ?_, fun s a v p ho hb hp => ?_, fun s a v h => ?_⟩
  · rw [hostAct_memWrite_ordinary ho, hostStore_eq]
    exact ⟨rfl, fun b => Memory.read_write _ b v hm⟩
  · rw [hostAct_memWrite_ordinary ho, hostStore_touched hb hp]
    refine ⟨touch_source, fun b => mem_touch_dest.trans (or_congr_right (and_congr_right ?_))⟩
    rintro rfl
    exact Iff.rfl
  · cases ho : s.params.ordinary a.toNat 1 with
    | true => rw [hostAct_memWrite_ordinary ho, hostStore_touched_idle h]
    | false =>
      rw [hostAct_memWrite_device ho]
      exact hostSideEffects_touched_idle h

/-- Settles O57: the side effects are stores, which write memory and the record alone. -/
theorem accessesOutsideRamLeaveTheRegisters : Obligations.AccessesOutsideRamLeaveTheRegisters := by
  rintro s a v ho ⟨hwf, hsp⟩
  have hmem := And.intro (hostSideEffects_wf hwf) (hostSideEffects_inSpace hsp)
  rw [hostAct_memWrite_device ho, hostAct_memRead_device ho, deviceStore, deviceLoad, hostSideEffects_eq]
  exact ⟨⟨_, _, rfl, hmem⟩, ⟨_, _, _, rfl, hmem⟩⟩

/-- Settles O23. -/
theorem accessesWithoutEffect : Obligations.AccessesWithoutEffect := by
  refine ⟨fun s addr width v hlo hhi h => ?_, fun s addr width => ?_, fun off hoff s v => ?_⟩
  · have hig := busTarget_ignored hlo hhi h
    rw [hostAct, hostAct, busWrite, busRead, hig]
    exact ⟨rfl, rfl⟩
  · show busRead addr width s = s ∨ OnlyHostData s (busRead addr width s)
    rcases busRead_cases addr width s with h | ⟨w, h⟩ <;> rw [h]
    · exact .inl rfl
    · exact .inr (returnToHost_onlyHostData w s)
  · have key : off < 64 ∧ off % 4 = 0 ∧ RegName.ofWordIndex (off / 4) ∈
        [.resWidth, .resHeight, .resBytes, .descW0, .descW1, .descW2, .reserved] := by
      revert off; decide
    obtain ⟨hlt, hal, hr⟩ := key
    rw [hostWrite_eq hlt hal, hostWriteReg_readOnly hr]

/-- Settles O56: a load sees memory, or while BUSY the memory the command leaves. -/
theorem hostLoadsSeeOldOrNewBytes : Obligations.HostLoadsSeeOldOrNewBytes := by
  refine ⟨fun s a ho => ?_, fun s a ho hb => ?_, fun s t a ho hb ht => ?_⟩ <;> rw [hostAct_memRead_ordinary ho]
  · exact returnToHost_onlyHostData _ s
  · rcases hostLoad_cases a s with h | ⟨hbusy, -⟩
    · rw [h]; rfl
    · exact absurd (hb.symm.trans hbusy) (by simp)
  · rw [← memAfterCommand_eq ht]
    rcases hostLoad_cases a s with h | ⟨-, h⟩ <;> rw [h]
    · exact .inl rfl
    · exact .inr rfl

end Sys2Proof.Proofs
end

section
/-! Proofs for 30_encoding.md: command words and the commands they stand for (O1 to O5). -/

namespace Sys2Proof.Machine
open Sys2Proof.Claims

/-! ## The fields of a word (R45) -/

/-- A word is its four fields side by side. -/
theorem word_eq_fields (w : Word) :
    w = wordOf (2 ^ 16 * rsv1Field w + 2 ^ 8 * fmtField w + 2 ^ 4 * rsv0Field w + opField w) := by
  apply BitVec.eq_of_toNat_eq
  simp only [opField, fmtField, rsv0Field, rsv1Field, bitField, wordOf, BitVec.toNat_ofNat]
  omega

theorem fmtField_lt (w : Word) : fmtField w < 256 := Nat.mod_lt _ (by decide)

/-- A bit range of the word as a bit vector holds the same number as the field. -/
theorem extractLsb'_eq_iff {w : Word} {lo len : Nat} {x : BitVec len} :
    w.extractLsb' lo len = x ↔ bitField w lo len = x.toNat := by
  rw [← BitVec.toNat_inj, BitVec.extractLsb'_toNat, Nat.shiftRight_eq_div_pow, bitField]

theorem encode_fields (i : Instr) : Laws.WordFields.Statement i := by
  cases i with
  | lookup f => exact Laws.WordFields.lookup f
  | sizeDec f => exact Laws.WordFields.sizeDec f
  | sizeEnc f => exact Laws.WordFields.sizeEnc f
  | decode f => exact Laws.WordFields.decode f
  | decodeAuto f => exact Laws.WordFields.decodeAuto f
  | encode f => exact Laws.WordFields.encode f

/-! ## The opcode table (R47) -/

theorem opcodeMap_opcodeOf (i : Instr) : opcodeMap (opcodeOf i) i.fmt = .ok i := by cases i <;> rfl

/-- The table is one to one: only the command's own OP and FMT select it. -/
theorem opcodeMap_eq_ok {op fmt : Nat} {i : Instr} : opcodeMap op fmt = .ok i ↔ op = opcodeOf i ∧ fmt = i.fmt := by
  constructor
  · intro h
    unfold opcodeMap at h
    split at h
    case h_7 => cases h
    all_goals obtain rfl := Except.ok.inj h; exact ⟨rfl, rfl⟩
  · rintro ⟨rfl, rfl⟩
    exact opcodeMap_opcodeOf i

/-- The OP values outside the table are 0 and those from 7 on. -/
theorem opcodeMap_error_iff {op fmt : Nat} : (∃ e, opcodeMap op fmt = .error e) ↔ op = 0 ∨ 7 ≤ op :=
  match op with
  | 0 => iff_of_true ⟨_, rfl⟩ (.inl rfl)
  | 1 | 2 | 3 | 4 | 5 | 6 => by simp [opcodeMap]
  | n + 7 => iff_of_true ⟨_, rfl⟩ (.inr (Nat.le_add_left 7 n))

/-! ## Decoding (R45, R50) -/

theorem decodeWord_eq_ok {w : Word} {i : Instr} : decodeWord w = .ok i ↔
    rsv0Field w = 0 ∧ rsv1Field w = 0 ∧ opField w = opcodeOf i ∧ fmtField w = i.fmt := by
  rw [← opcodeMap_eq_ok]
  unfold decodeWord
  split_ifs with hr0 hr1
  · simp [hr0]
  · simp [hr1]
  · simp [not_not.mp hr0, not_not.mp hr1]

theorem decodeWord_error_iff {w : Word} : (∃ e, decodeWord w = .error e) ↔
    (opField w = 0 ∨ 7 ≤ opField w) ∨ rsv0Field w ≠ 0 ∨ rsv1Field w ≠ 0 := by
  rw [← opcodeMap_error_iff (fmt := fmtField w)]
  unfold decodeWord
  split_ifs with hr0 hr1
  · simp [hr0]
  · simp [hr1]
  · simp [not_not.mp hr0, not_not.mp hr1]

/-- Decoding and encoding are inverse to each other, between the legal words and the well-formed commands. -/
theorem decodeWord_eq_ok_iff_encode {w : Word} {i : Instr} : decodeWord w = .ok i ↔ WellFormed i ∧ encode i = w := by
  constructor
  · intro h
    obtain ⟨hr0, hr1, hop, hfmt⟩ := decodeWord_eq_ok.mp h
    refine ⟨hfmt.symm.trans_lt (fmtField_lt w), ?_⟩
    rw [word_eq_fields w, hr0, hr1, hop, hfmt]
    simp [encode]
  · rintro ⟨hwf, rfl⟩
    obtain ⟨hop, hfmt, hr0, hr1⟩ := encode_fields i hwf
    exact decodeWord_eq_ok.mpr ⟨hr0, hr1, hop, hfmt⟩

/-- The reserved OP values as the bits of R50 list them. -/
theorem reservedOp_iff (x : BitVec 4) :
    x ∈ [0x0#4, 0x7#4, 0x8#4, 0x9#4, 0xA#4, 0xB#4, 0xC#4, 0xD#4, 0xE#4, 0xF#4] ↔ x.toNat = 0 ∨ 7 ≤ x.toNat := by
  revert x
  decide

/-- Exactly the words that R50 calls illegal on their bits do not decode. -/
theorem decodeWord_error_iff_illegal {w : Word} : (∃ e, decodeWord w = .error e) ↔ IllegalWordBits w := by
  have hop : (w.extractLsb' 0 4).toNat = opField w := (extractLsb'_eq_iff.mp rfl).symm
  have hr0 : w.extractLsb' 4 4 = 0#4 ↔ rsv0Field w = 0 := extractLsb'_eq_iff
  have hr1 : w.extractLsb' 16 16 = 0#16 ↔ rsv1Field w = 0 := extractLsb'_eq_iff
  simp only [decodeWord_error_iff, IllegalWordBits, reservedOp_iff, hop, ne_eq, hr0, hr1]

/-! ## IllegalCommand (R50) -/

theorem runCommand_illegal {s : State} (h : IllegalWordBits s.cmd) :
    runCommand s = .next { s with status := ended s .illegalCommand } := by
  obtain ⟨e, he⟩ := decodeWord_error_iff_illegal.mpr h
  unfold runCommand
  rw [he]
  rfl

/-- The codes of a command's body: success, a bus error, or the code of a check. -/
theorem bodyOf_err (i : Instr) (D : Descriptor) (s : State) : (bodyOf i D s).status.err = .ok ∨
    (bodyOf i D s).status.err = .busError ∨ (bodyOf i D s).status.err.FromCheck := by
  rcases bodyOf_cases i D s with ⟨e, he, h⟩ | ⟨-, w, r, b, h⟩ | ⟨p, -, -, h⟩ | ⟨p, -, -, h⟩ <;> rw [h]
  · exact .inr (.inr (planOf_checksOnly D s i e he))
  · exact .inl rfl
  · exact .inr (.inl rfl)
  · exact .inl rfl

theorem exec_err_ne_illegalCommand {i : Instr} {s t : State} (h : exec i s = .next t) : t.status.err ≠ .illegalCommand := by
  rcases exec_cases h with ⟨-, rfl⟩ | ⟨D, -, rfl⟩
  · simp
  · rcases bodyOf_err i D (s.setDesc D.w0 D.w1 D.w2) with he | he | he | he | he | he | he <;> simp [he]

end Sys2Proof.Machine

namespace Sys2Proof.Proofs
open Sys2Proof.Machine Sys2Proof.Claims

/-- Settles O2: encoding puts the command's OP and FMT beside zero reserved fields, and the decoder reads them back. -/
theorem decodeOfEncodeIsIdentity : Obligations.DecodeOfEncodeIsIdentity :=
  fun _ hwf => decodeWord_eq_ok_iff_encode.mpr ⟨hwf, rfl⟩

/-- Settles O3: a legal word is its OP and FMT, since its reserved fields are 0. -/
theorem encodeOfDecodeIsIdentity : Obligations.EncodeOfDecodeIsIdentity :=
  fun _ _ h => decodeWord_eq_ok_iff_encode.mp h

/-- Settles O4: the words are those of the six commands with FMT 0 and 1. -/
theorem twelveWordsHaveRegisteredFormats : Obligations.TwelveWordsHaveRegisteredFormats := by
  intro w i
  constructor
  · rintro ⟨h, hf⟩
    obtain ⟨-, rfl⟩ := decodeWord_eq_ok_iff_encode.mp h
    cases i with
    | _ f => obtain rfl | rfl : f = 0 ∨ f = 1 := Nat.le_one_iff_eq_zero_or_eq_one.mp (Nat.le_of_lt_succ hf) <;> decide
  · exact fun h => (show ∀ x ∈ _, decodeWord x.1 = .ok x.2 ∧ x.2.fmt < 2 by decide) (w, i) h

/-- Settles O5: a word is illegal where it does not decode, and no check of a command that decodes raises IllegalCommand. -/
theorem illegalWordsEndWithIllegalCommand : Obligations.IllegalWordsEndWithIllegalCommand := by
  refine ⟨fun w => decodeWord_error_iff_illegal, decodeWord_error_iff_illegal.mp ⟨_, rfl⟩, fun w s _ hb => ?_, fun s hw ha => ?_,
    fun s t hw h => ?_⟩
  · rw [hostWrite_cmd_idle w hb]
    exact ⟨rfl, rfl⟩
  · obtain ⟨hw0, hh0, hb0⟩ := ha.results
    exact ⟨runCommand_illegal hw, hw0, hh0, hb0, ha.desc⟩
  · rcases runCommand_cases h with ⟨e, he, -⟩ | ⟨i, -, h⟩
    · exact absurd (decodeWord_error_iff_illegal.mp ⟨e, he⟩) hw
    · exact exec_err_ne_illegalCommand h

/-- Settles O1. -/
theorem writtenOutWordsDecode : Obligations.WrittenOutWordsDecode := by
  unfold Obligations.WrittenOutWordsDecode
  decide

end Sys2Proof.Proofs
end

section
/-! Proofs for 40_registry.md: the descriptor ROM, LOOKUP and the region check (O13 to O15, O27, O28, O49). -/

namespace Sys2Proof.Machine
open Sys2Proof.Claims

/-! ## The descriptor words (R53) -/

/-- A bit range of a word put together as a number. -/
theorem wordOf_extractLsb'_toNat (n lo len : Nat) :
    ((wordOf n).extractLsb' lo len).toNat = n % 2 ^ 32 / 2 ^ lo % 2 ^ len := by
  rw [BitVec.extractLsb'_toNat, Nat.shiftRight_eq_div_pow, wordOf, BitVec.toNat_ofNat]

/-- Every field fits the bits that R53 gives it. -/
structure Descriptor.FieldsFit (D : Descriptor) : Prop where
  defaultWidth : D.defaultWidth < 2 ^ 16
  tileW        : D.tileW < 2 ^ 8
  tileH        : D.tileH < 2 ^ 8
  bpp          : D.bpp < 2 ^ 4
  rowInc       : D.rowInc < 2 ^ 4
  groupGap     : D.groupGap < 2 ^ 8
  palSize      : D.palSize < 2 ^ 9
  palBpe       : D.palBpe < 2 ^ 4
  bytesPerTile : D.bytesPerTile < 2 ^ 16

theorem rom_defaultWidth_lt {p : Params} {f : Nat} {D : Descriptor} (h : rom p f = some D) : D.defaultWidth < 2 ^ 16 :=
  Nat.lt_of_le_of_lt (rom_fits h).widthBound (by decide)

theorem romNes1bpp_fieldsFit (p : Params) : (romNes1bpp p).FieldsFit where
  defaultWidth := rom_defaultWidth_lt (p := p) (f := 0) rfl
  tileW        := show 8 < 2 ^ 8 by decide
  tileH        := show 8 < 2 ^ 8 by decide
  bpp          := show 1 < 2 ^ 4 by decide
  rowInc       := show 1 < 2 ^ 4 by decide
  groupGap     := show 0 < 2 ^ 8 by decide
  palSize      := show 2 < 2 ^ 9 by decide
  palBpe       := show 3 < 2 ^ 4 by decide
  bytesPerTile := show 8 < 2 ^ 16 by decide

theorem romSnes4bpp_fieldsFit (p : Params) : (romSnes4bpp p).FieldsFit where
  defaultWidth := rom_defaultWidth_lt (p := p) (f := 1) rfl
  tileW        := show 8 < 2 ^ 8 by decide
  tileH        := show 8 < 2 ^ 8 by decide
  bpp          := show 4 < 2 ^ 4 by decide
  rowInc       := show 2 < 2 ^ 4 by decide
  groupGap     := show 16 < 2 ^ 8 by decide
  palSize      := show 16 < 2 ^ 9 by decide
  palBpe       := show 3 < 2 ^ 4 by decide
  bytesPerTile := show 32 < 2 ^ 16 by decide

theorem rom_fieldsFit {p : Params} {f : Nat} {D : Descriptor} (h : rom p f = some D) : D.FieldsFit := by
  rcases rom_cases h with ⟨-, rfl⟩ | ⟨-, rfl⟩
  · exact romNes1bpp_fieldsFit p
  · exact romSnes4bpp_fieldsFit p

theorem Descriptor.w0_fields {D : Descriptor} (h : D.FieldsFit) :
    (D.w0.extractLsb' 0 16).toNat = D.defaultWidth ∧ (D.w0.extractLsb' 16 8).toNat = D.tileW ∧
    (D.w0.extractLsb' 24 8).toNat = D.tileH := by
  have h1 := h.defaultWidth; have h2 := h.tileW; have h3 := h.tileH
  simp only [Descriptor.w0, wordOf_extractLsb'_toNat]
  omega

theorem Descriptor.w1_fields {D : Descriptor} (h : D.FieldsFit) :
    (D.w1.extractLsb' 0 4).toNat = D.bpp ∧ (D.w1.extractLsb' 4 4).toNat = D.rowInc ∧
    (D.w1.extractLsb' 8 8).toNat = D.groupGap ∧ (D.w1.extractLsb' 16 9).toNat = D.palSize ∧
    (D.w1.extractLsb' 25 4).toNat = D.palBpe ∧ (D.w1.extractLsb' 29 3).toNat = 0 := by
  have h1 := h.bpp; have h2 := h.rowInc; have h3 := h.groupGap; have h4 := h.palSize; have h5 := h.palBpe
  simp only [Descriptor.w1, wordOf_extractLsb'_toNat]
  omega

theorem Descriptor.w2_fields {D : Descriptor} (h : D.FieldsFit) :
    (D.w2.extractLsb' 0 16).toNat = D.bytesPerTile ∧ (D.w2.extractLsb' 16 16).toNat = 0 := by
  have h1 := h.bytesPerTile
  simp only [Descriptor.w2, wordOf_extractLsb'_toNat]
  omega

/-- Word 0 of an entry with 8 by 8 tiles, as R54 writes it: the two tile bytes above, the default width below. -/
theorem Descriptor.w0_eq_or {D : Descriptor} (hW : D.tileW = 8) (hH : D.tileH = 8) (h : D.defaultWidth < 2 ^ 16) :
    D.w0 = 0x08080000#32 ||| BitVec.ofNat 32 D.defaultWidth := by
  have hor : 2 ^ 24 * 8 + 2 ^ 16 * 8 + D.defaultWidth = 2 ^ 16 * 0x808 ||| D.defaultWidth :=
    Nat.two_pow_add_eq_or_of_lt h 0x808
  rw [Descriptor.w0, hW, hH, hor]
  exact BitVec.ofNat_or

theorem rom_w0 {p : Params} {f : Nat} {D : Descriptor} (h : rom p f = some D) :
    D.w0 = 0x08080000#32 ||| BitVec.ofNat 32 D.defaultWidth :=
  Descriptor.w0_eq_or (rom_fits h).tileW (rom_fits h).tileH (rom_defaultWidth_lt h)

theorem romNes1bpp_w1 (p : Params) : (romNes1bpp p).w1 = 0x06020011#32 :=
  show wordOf (2 ^ 25 * 3 + 2 ^ 16 * 2 + 2 ^ 8 * 0 + 2 ^ 4 * 1 + 1) = _ by decide

theorem romNes1bpp_w2 (p : Params) : (romNes1bpp p).w2 = 0x00000008#32 := rfl

theorem romSnes4bpp_w1 (p : Params) : (romSnes4bpp p).w1 = 0x06101024#32 :=
  show wordOf (2 ^ 25 * 3 + 2 ^ 16 * 16 + 2 ^ 8 * 16 + 2 ^ 4 * 2 + 4) = _ by decide

theorem romSnes4bpp_w2 (p : Params) : (romSnes4bpp p).w2 = 0x00000020#32 := rfl

/-! ## The region check and the used extents (R59) -/

theorem checkRegions_ok_iff_good {s : State} {su du : Nat} : checkRegions s su du = .ok () ↔ GoodRegions s su du := by
  rw [checkRegions_ok, Apart, and_assoc]

/-- The check has one code. -/
theorem checkRegions_error {s : State} {su du : Nat} {e : ErrCode} (h : checkRegions s su du = .error e) :
    e = .regionError := by
  rcases except_bind_error.mp h with h | ⟨-, -, h⟩ <;> exact (failIf_eq_error.mp h).2.symm

theorem checkRegions_of_not_good {s : State} {su du : Nat} (h : ¬ GoodRegions s su du) :
    checkRegions s su du = .error .regionError := by
  cases hc : checkRegions s su du with
  | error e => rw [checkRegions_error hc]
  | ok u => exact absurd (checkRegions_ok_iff_good.mp hc) h

/-- A decode reads the stream and writes the bitmap, an encode the other way round; neither is empty. -/
theorem memoryPlan_used_pos {D : Descriptor} {s : State} {i : Instr} {p : Plan} (hD : D.Fits) (h : memoryPlan D s i = some p) :
    1 ≤ p.srcUsed ∧ 1 ≤ p.dstUsed := by
  have hg := (memoryPlan_sound hD h).geometry
  have hneed : 1 ≤ p.need := hg.need_pos hD
  have hpix : 1 ≤ p.width * p.height := Nat.mul_pos hg.width_pos hg.height_pos
  match i, h with
  | .decode _, h =>
    obtain ⟨-, hsu, hdu⟩ := decodePlan_sound hD (toOption_eq_some.mp h)
    exact ⟨hsu ▸ hneed, hdu ▸ hpix⟩
  | .decodeAuto _, h =>
    obtain ⟨-, hsu, hdu⟩ := decodeAutoPlan_sound hD (toOption_eq_some.mp h)
    exact ⟨hsu ▸ hneed, hdu ▸ hpix⟩
  | .encode _, h =>
    obtain ⟨-, hsu, hdu⟩ := encodePlan_sound hD (toOption_eq_some.mp h)
    exact ⟨hsu ▸ hpix, hdu ▸ hneed⟩

theorem Plan.Sound.inSrc_lt {D : Descriptor} {s : State} {p : Plan} {a : Nat} (h : p.Sound D s) (ha : p.inSrc s a) :
    a < 2 ^ 32 := Nat.lt_of_lt_of_le ha.2 h.src_end

theorem Plan.Sound.inDst_lt {D : Descriptor} {s : State} {p : Plan} {a : Nat} (h : p.Sound D s) (ha : p.inDst s a) :
    a < 2 ^ 32 := Nat.lt_of_lt_of_le ha.2 h.dst_end

/-- An address common to both used extents would make them overlap. -/
theorem Plan.Sound.not_inDst_of_inSrc {D : Descriptor} {s : State} {p : Plan} {a : Nat} (h : p.Sound D s)
    (hs : p.inSrc s a) : ¬ p.inDst s a := fun hd =>
  h.apart ⟨Nat.lt_of_le_of_lt hs.1 hd.2, Nat.lt_of_le_of_lt hd.1 hs.2⟩

end Sys2Proof.Machine

namespace Sys2Proof.Proofs
open Sys2Proof.Machine Sys2Proof.Claims

/-- Settles O49: the check is `GoodRegions`, and a plan that passed it has used extents with its four properties. -/
theorem regionsAreCheckedAndInSpace : Obligations.RegionsAreCheckedAndInSpace := by
  refine ⟨fun s su du => ⟨checkRegions_ok_iff_good.mpr, checkRegions_of_not_good⟩, fun i s D p hD hp => ?_⟩
  have hs : p.Sound D s := memoryPlan_sound (rom_fits hD) hp
  obtain ⟨hsu, hdu⟩ := memoryPlan_used_pos (rom_fits hD) hp
  exact ⟨hsu, hdu, hs.src_le, hs.dst_le, fun a => ⟨fun ha => ⟨hs.inSrc_lt ha, hs.not_inDst_of_inSrc ha⟩, hs.inDst_lt⟩⟩

/-- Settles O13: word 0 is the tile size beside the default width; words 1 and 2 hold no parameter. -/
theorem romContents : Obligations.RomContents := by
  refine fun p => ⟨⟨romNes1bpp p, rfl, ?_⟩, ⟨romSnes4bpp p, rfl, ?_⟩, fun f hf => rom_none hf⟩
  · have hgroup : ∀ q, q < 1 → q / 1 = 0 := by omega
    exact ⟨rfl, rfl, rfl, rfl, rfl, rfl, hgroup, rfl, rfl, rfl, rom_w0 (f := 0) rfl, romNes1bpp_w1 p, romNes1bpp_w2 p⟩
  · exact ⟨rfl, rfl, rfl, rfl, rfl, rfl, rfl, rfl, rfl, rom_w0 (f := 1) rfl, romSnes4bpp_w1 p, romSnes4bpp_w2 p⟩

/-- Settles O14: what both entries share is `Descriptor.Fits`; NES_1BPP has one plane group, so its gap is free. -/
theorem romEntriesAreSound : Obligations.RomEntriesAreSound := by
  intro p f D h
  have hD := rom_fits h
  have hbytes : D.bytesPerTile = D.tileH * D.bpp := by rw [hD.bytes, hD.tileH]
  have hwidth : D.defaultWidth ≠ 0 ∧ D.defaultWidth % D.tileW = 0 :=
    ⟨Nat.ne_of_gt hD.widthPos, hD.tileW ▸ hD.widthTiles⟩
  have hpal : D.palSize = 2 ^ D.bpp := by
    rcases rom_cases h with ⟨-, rfl⟩ | ⟨-, rfl⟩ <;> rfl
  have hinc : 1 ≤ D.rowInc ∧ (f = 0 → D.rowInc = 1) ∧ (f = 1 → D.rowInc = 2) := by
    rcases rom_cases h with ⟨rfl, rfl⟩ | ⟨rfl, rfl⟩ <;> simp [romNes1bpp, romSnes4bpp]
  have hgap : D.bpp > D.rowInc → D.groupGap = D.tileH * D.rowInc ∧ D.bpp % D.rowInc = 0 := by
    rcases rom_cases h with ⟨-, rfl⟩ | ⟨-, rfl⟩
    · exact fun hgt => absurd hgt (Nat.lt_irrefl 1)
    · exact fun _ => ⟨rfl, show 4 % 2 = 0 by decide⟩
  exact ⟨hD.tileW, ⟨hD.bpp_pos, hD.bpp_le⟩, hpal, hinc, hbytes, hgap, hwidth⟩

/-- Settles O15: each field is smaller than its bits, so it is not cut and does not reach the next one. -/
theorem descriptorWordLayout : Obligations.DescriptorWordLayout := by
  intro p f D h
  have hfit := rom_fieldsFit h
  obtain ⟨hdw, htw, hth⟩ := Descriptor.w0_fields hfit
  obtain ⟨hbpp, hinc, hgap, hpal, hbpe, hzero⟩ := Descriptor.w1_fields hfit
  exact ⟨hdw, htw, hth, hbpp, hinc, hgap, hpal, hbpe, hzero, Descriptor.w2_fields hfit⟩

/-- Settles O27: LOOKUP is the prologue of R56 and the end of the command. -/
theorem lookupShowsTheDescriptor : Obligations.LookupShowsTheDescriptor :=
  ⟨fun _ _ _ hD => exec_known hD, fun _ _ hf => exec_unknown (rom_none hf)⟩

/-- Settles O28: the second LOOKUP finds the same entry, or none again, and then DESC_* are the 0 of both acceptances. -/
theorem lookupIsIdempotent : Obligations.LookupIsIdempotent := by
  intro s t u f w hs ht hu
  rcases exec_cases ht with ⟨hn, rfl⟩ | ⟨D, hD, rfl⟩
  · obtain rfl := Host.Outcome.next.inj ((exec_unknown (s := accept w (raiseErr .unknownFormat s)) hn).symm.trans hu)
    obtain ⟨h0, h1, h2⟩ := hs.desc
    exact ⟨⟨h0.symm, h1.symm, h2.symm⟩, rfl⟩
  · obtain rfl := Host.Outcome.next.inj
      ((exec_known (s := accept w (bodyOf (.lookup f) D (s.setDesc D.w0 D.w1 D.w2))) hD).symm.trans hu)
    exact ⟨⟨rfl, rfl, rfl⟩, rfl⟩

end Sys2Proof.Proofs
end

section
/-! Proofs for 41_size.md: the size calculator (O29, O30, O43 to O46). -/

namespace Sys2Proof.Machine
open Sys2Proof.Claims

/-! ## The byte count (R11, R64) -/

/-- `k` tile rows of an image `W` pixels wide. -/
theorem need_eight_mul (D : Descriptor) (W k : Nat) : need D W (8 * k) = W * D.bpp * k := by
  rw [need, show W * (8 * k) * D.bpp = 8 * (W * D.bpp * k) by ring, Nat.mul_div_cancel_left _ (by decide)]

/-- The count is exact as soon as the width is a multiple of 8 (R62). -/
theorem eight_mul_need {D : Descriptor} {W H : Nat} (hW : W % 8 = 0) : 8 * need D W H = W * H * D.bpp :=
  Nat.mul_div_cancel' (((Nat.dvd_of_mod_eq_zero hW).mul_right H).mul_right D.bpp)

/-- The height comes back from the byte count: it is a whole number of tile rows (R67). -/
theorem height_of_need {D : Descriptor} (hD : D.Fits) {W H : Nat} (hW : W ≠ 0) (hH : H % 8 = 0) :
    8 * (need D W H / (W * D.bpp)) = H := by
  obtain ⟨k, rfl⟩ := Nat.dvd_of_mod_eq_zero hH
  rw [need_eight_mul, Nat.mul_div_cancel_left k (Nat.mul_pos (Nat.pos_of_ne_zero hW) hD.bpp_pos)]

/-- What the rounding to whole tile rows leaves over is less than one of them (R64). -/
theorem leftover_lt {D : Descriptor} (hD : D.Fits) {W : Nat} (hW : 0 < W) (n : Nat) :
    n - W * D.bpp * (n / (W * D.bpp)) < W * D.bpp := by
  rw [← Nat.mod_eq_sub_mul_div]
  exact Nat.mod_lt _ (Nat.mul_pos hW hD.bpp_pos)

/-! ## The helper checks (R61 to R63) -/

theorem chosenWidth_eq_usedWidth (D : Descriptor) (s : State) : chosenWidth D s = usedWidth D s := by
  by_cases h : s.width = 0
  · rw [chosenWidth, usedWidth, if_pos h, h]; rfl
  · exact (if_pos fun h0 => h (BitVec.eq_of_toNat_eq h0)).trans (if_neg h).symm

theorem usedWidth_of_ne_zero {D : Descriptor} {s : State} (h : s.width ≠ 0) : usedWidth D s = s.width.toNat := if_neg h

theorem selectWidth_of_mod_ne {D : Descriptor} {s : State} (h : usedWidth D s % D.tileW ≠ 0) :
    selectWidth D s = .error .geometryError :=
  except_bind_error.mpr (.inl (failIf_of (by rwa [chosenWidth_eq_usedWidth])))

theorem selectWidth_of_mod {D : Descriptor} {s : State} (h : usedWidth D s % D.tileW = 0) :
    selectWidth D s = .ok (usedWidth D s) :=
  selectWidth_ok.mpr ⟨(chosenWidth_eq_usedWidth D s).symm, h⟩

theorem deriveHeight_of_zero {D : Descriptor} {n W : Nat} (h : derivedHeight D n W = 0) :
    deriveHeight D n W = .error .insufficientData :=
  except_bind_error.mpr (.inl (failIf_of h))

/-! ## The plans of the size commands, in the claims' terms -/

theorem sizeDecPlan_ok_iff_good {D : Descriptor} {s : State} {p : Plan} (hD : D.Fits) :
    sizeDecPlan D s = .ok p ↔ GoodGeometry (usedWidth D s) (usedHeight D s) ∧
      p = ⟨usedWidth D s, usedHeight D s, need D (usedWidth D s) (usedHeight D s), 0, 0⟩ := by
  have hW : usedWidth D s ≠ 0 := chosenWidth_eq_usedWidth D s ▸ Nat.ne_of_gt (chosenWidth_pos hD s)
  have hH : derivedHeight D s.srcLen.toNat (usedWidth D s) = usedHeight D s := derivedHeight_eq hD
  have hmod : usedHeight D s % 8 = 0 := Nat.mul_mod_right 8 _
  rw [sizeDecPlan_ok hD, chosenWidth_eq_usedWidth, hH]
  constructor
  · rintro ⟨hW8, hH0, hpix, hp⟩
    exact ⟨⟨hW, hH0, hW8, hmod, hpix⟩, hp⟩
  · rintro ⟨⟨-, hH0, hW8, -, hpix⟩, hp⟩
    exact ⟨hW8, hH0, hpix, hp⟩

theorem sizeEncPlan_ok_iff_good {D : Descriptor} {s : State} {p : Plan} (hD : D.Fits) :
    sizeEncPlan D s = .ok p ↔ GoodGeometry s.width.toNat s.height.toNat ∧
      p = ⟨s.width.toNat, s.height.toNat, need D s.width.toNat s.height.toNat, 0, 0⟩ := by
  simp only [sizeEncPlan_ok hD, GoodGeometry, and_assoc]
  rfl

/-! ## Size commands whose checks pass -/

/-- The end of a size command with the geometry `W` by `H`: RES_* and DESC_* written, ERR 0. -/
def sizedWith (D : Descriptor) (W H : Nat) (s : State) : State :=
  (endedWith s D .ok).setRes (wordOf W) (wordOf H) (wordOf (need D W H))

theorem wordOf_toNat {n : Nat} (h : n < 2 ^ 32) : (wordOf n).toNat = n :=
  (BitVec.toNat_ofNat n 32).trans (Nat.mod_eq_of_lt h)

/-- The three results fit their registers. -/
theorem sizedWith_results {D : Descriptor} (hD : D.Fits) {W H : Nat} (h : GoodGeometry W H) (s : State) :
    Results (sizedWith D W H s) W H (need D W H) := by
  obtain ⟨hW0, hH0, hW8, hH8, hpix⟩ := h
  have hg : Plan.Geometry D ⟨W, H, need D W H, 0, 0⟩ :=
    ⟨Nat.pos_of_ne_zero hW0, Nat.pos_of_ne_zero hH0, hW8, hH8, hpix, rfl⟩
  exact ⟨wordOf_toNat hg.width_lt, wordOf_toNat hg.height_lt,
    wordOf_toNat (hg.need_lt hD)⟩

theorem exec_sizeDec_of_good {s : State} {f : Nat} {D : Descriptor} (h : rom s.params f = some D)
    (hg : GoodGeometry (usedWidth D s) (usedHeight D s)) :
    exec (.sizeDec f) s = .next (sizedWith D (usedWidth D s) (usedHeight D s) s) := by
  rw [exec_known h]
  exact congrArg _ (runSizeCommand_ok ((sizeDecPlan_ok_iff_good (rom_fits h)).mpr ⟨hg, rfl⟩))

theorem exec_sizeEnc_of_good {s : State} {f : Nat} {D : Descriptor} (h : rom s.params f = some D)
    (hg : GoodGeometry s.width.toNat s.height.toNat) :
    exec (.sizeEnc f) s = .next (sizedWith D s.width.toNat s.height.toNat s) := by
  rw [exec_known h]
  exact congrArg _ (runSizeCommand_ok ((sizeEncPlan_ok_iff_good (rom_fits h)).mpr ⟨hg, rfl⟩))

/-- A size command ends with ERR 0 only where its checks pass: no check raises the code 0. -/
theorem runSizeCommand_passed {x : Except ErrCode Plan} (hx : ChecksOnly x) {s : State}
    (h : (runSizeCommand x s).status.err = .ok) : ∃ p, x = .ok p := by
  cases x with
  | ok p => exact ⟨p, rfl⟩
  | error e =>
    have he : e = .ok := h
    exact absurd (hx e rfl) (by simp [he, ErrCode.FromCheck])

theorem exec_sizeDec_passed {s t : State} {f : Nat} {D : Descriptor} (h : rom s.params f = some D)
    (ht : exec (.sizeDec f) s = .next t) (hok : t.status.err = .ok) :
    GoodGeometry (usedWidth D s) (usedHeight D s) ∧ t = sizedWith D (usedWidth D s) (usedHeight D s) s := by
  obtain rfl := Host.Outcome.next.inj ((exec_known h).symm.trans ht)
  obtain ⟨p, hp⟩ := runSizeCommand_passed (sizeDecPlan_checksOnly D _) hok
  obtain ⟨hg, -⟩ := (sizeDecPlan_ok_iff_good (rom_fits h)).mp hp
  exact ⟨hg, Host.Outcome.next.inj (ht.symm.trans (exec_sizeDec_of_good h hg))⟩

theorem exec_sizeEnc_passed {s t : State} {f : Nat} {D : Descriptor} (h : rom s.params f = some D)
    (ht : exec (.sizeEnc f) s = .next t) (hok : t.status.err = .ok) :
    GoodGeometry s.width.toNat s.height.toNat ∧ t = sizedWith D s.width.toNat s.height.toNat s := by
  obtain rfl := Host.Outcome.next.inj ((exec_known h).symm.trans ht)
  obtain ⟨p, hp⟩ := runSizeCommand_passed (sizeEncPlan_checksOnly D _) hok
  obtain ⟨hg, -⟩ := (sizeEncPlan_ok_iff_good (rom_fits h)).mp hp
  exact ⟨hg, Host.Outcome.next.inj (ht.symm.trans (exec_sizeEnc_of_good h hg))⟩

end Sys2Proof.Machine

namespace Sys2Proof.Proofs
open Sys2Proof.Machine Sys2Proof.Claims

/-- Settles O29: the byte count is the tile rows that SRC_LEN holds, so it is at most SRC_LEN. -/
theorem sizeDecGivesTheGeometry : Obligations.SizeDecGivesTheGeometry := by
  intro s f D h hg
  have hle : need D (usedWidth D s) (usedHeight D s) ≤ s.srcLen.toNat := by
    rw [usedHeight, need_eight_mul]
    exact Nat.mul_div_le _ _
  exact ⟨_, exec_sizeDec_of_good h hg, sizedWith_results (rom_fits h) hg s, hle, rfl⟩

/-- Settles O30: the division by 8 is exact because the width is a multiple of 8. -/
theorem sizeEncGivesTheByteCount : Obligations.SizeEncGivesTheByteCount := by
  intro s f D h hg
  obtain ⟨-, -, hW8, -⟩ := id hg
  exact ⟨_, exec_sizeEnc_of_good h hg, sizedWith_results (rom_fits h) hg s, eight_mul_need hW8, rfl⟩

/-- Settles O46: each command succeeds exactly on a `GoodGeometry`, and what one gives is a `GoodGeometry` for the other; the way
back from the byte count to the height is `height_of_need`. -/
theorem sizeCommandsAgree : Obligations.SizeCommandsAgree := by
  refine ⟨fun s t f D h ht hok => ?_, fun s t f D h ht hok => ?_⟩ <;> have hD := rom_fits h
  · obtain ⟨hg, rfl⟩ := exec_sizeDec_passed h ht hok
    obtain ⟨hW, hH, -⟩ := sizedWith_results hD hg s
    generalize sizedWith D (usedWidth D s) (usedHeight D s) s = t at hW hH ⊢
    have hg' : GoodGeometry t.resWidth.toNat t.resHeight.toNat := by rwa [hW, hH]
    obtain ⟨u, hu, ⟨-, -, hbytes⟩, -, hend⟩ :=
      sizeEncGivesTheByteCount { s with width := t.resWidth, height := t.resHeight } f D h hg'
    rw [hH, usedHeight, need_eight_mul, ← hW] at hbytes
    refine ⟨u, hu, congrArg (·.status.err) hend, hbytes, ?_, ?_⟩ <;> rw [hbytes]
    · exact Nat.mul_div_le _ _
    · exact leftover_lt hD (Nat.pos_of_ne_zero hg'.1) _
  · obtain ⟨hg, rfl⟩ := exec_sizeEnc_passed h ht hok
    obtain ⟨hW0, -, -, hH8, -⟩ := id hg
    obtain ⟨-, -, hbytes⟩ := sizedWith_results hD hg s
    generalize sizedWith D s.width.toNat s.height.toNat s = t at hbytes ⊢
    have hW : usedWidth D { s with srcLen := t.resBytes } = s.width.toNat :=
      usedWidth_of_ne_zero fun h0 => hW0 (congrArg BitVec.toNat h0)
    have hH : usedHeight D { s with srcLen := t.resBytes } = s.height.toNat := by
      rw [usedHeight, hW, hbytes, height_of_need hD hW0 hH8]
    obtain ⟨u, hu, ⟨hw, hh, -⟩, -, hend⟩ :=
      sizeDecGivesTheGeometry { s with srcLen := t.resBytes } f D h (by rwa [hW, hH])
    exact ⟨u, hu, congrArg (·.status.err) hend, BitVec.eq_of_toNat_eq (hw.trans hW), BitVec.eq_of_toNat_eq (hh.trans hH)⟩

/-- Settles O43: the two floors of R63 are one, and the rest of a division is below its divisor. -/
theorem derivedHeightClosedForm : Obligations.DerivedHeightClosedForm := by
  intro p f n W D h hW _
  have hD := rom_fits h
  have hH : derivedHeight D n W = 8 * (n / (W * D.bpp)) := derivedHeight_eq hD
  rw [need_eight_mul]
  refine ⟨fun hne => deriveHeight_ok.mpr ⟨hH.symm, ?_⟩, fun h0 => deriveHeight_of_zero ?_, rfl, Nat.mul_div_le _ _,
    leftover_lt hD hW n⟩
  · exact Nat.mul_ne_zero (by decide) hne
  · rw [hH, h0]

/-- Settles O44: the default width is a multiple of the tile width in both ROM entries. -/
theorem widthSelection : Obligations.WidthSelection := by
  intro s f D h
  have hD := rom_fits h
  refine ⟨fun h0 => ?_, fun h0 => ?_, fun h0 => ?_⟩
  · exact usedWidth_of_ne_zero (D := D) h0 ▸ selectWidth_of_mod
  · exact usedWidth_of_ne_zero (D := D) h0 ▸ selectWidth_of_mod_ne
  · have hu : usedWidth D s = D.defaultWidth := if_pos h0
    rw [← hu]
    exact selectWidth_of_mod (by rw [hu, hD.tileW, hD.widthTiles])

/-- Settles O45: the check is one test; a width it lets through is a multiple of 8, and BPP is at most 8. -/
theorem geometryCheck : Obligations.GeometryCheck := by
  intro p f W H D h
  have hD := rom_fits h
  refine ⟨failIf_of, fun hgood => ?_⟩
  have hW8 : W % 8 = 0 := by rw [hD.tileW] at hgood; omega
  exact ⟨failIf_of_not hgood, eight_mul_need hW8, needEnc_lt hD (by omega)⟩

end Sys2Proof.Proofs
end

section
/-! Proofs for 42_decode.md: plane-byte addressing and the two decode commands (O31, O32, O47, O48, O50). -/

namespace Sys2Proof.Machine
open Sys2Proof.Claims

/-! ## The checks of the decode commands, in the claims' terms (R74, R75) -/

/-- The plan of a decode of a `W` by `H` image: the stream is read and the bitmap is written. -/
def bitmapPlan (D : Descriptor) (W H : Nat) : Plan := ⟨W, H, need D W H, need D W H, W * H⟩

theorem bitmapPlan_geometry (D : Descriptor) {W H : Nat} (h : GoodGeometry W H) : (bitmapPlan D W H).Geometry D := by
  obtain ⟨hW0, hH0, hW8, hH8, hpix⟩ := h
  exact ⟨Nat.pos_of_ne_zero hW0, Nat.pos_of_ne_zero hH0, hW8, hH8, hpix, rfl⟩

/-- Buffers that hold an image and its stream are not empty (R36). -/
theorem buffersPresent_of_good {D : Descriptor} (hD : D.Fits) {s : State} {W H : Nat} (hg : GoodGeometry W H)
    (hsrc : need D W H ≤ s.srcLen.toNat) (hdst : W * H ≤ s.dstLen.toNat) : s.BuffersPresent := by
  have hneed : 0 < need D W H := (bitmapPlan_geometry D hg).need_pos hD
  have hpix : 0 < W * H := Nat.mul_pos (Nat.pos_of_ne_zero hg.1) (Nat.pos_of_ne_zero hg.2.1)
  exact ⟨by omega, by omega⟩

theorem decodePlan_ok_iff_ready {D : Descriptor} {s : State} {p : Plan} (hD : D.Fits) :
    decodePlan D s = .ok p ↔ DecodeReady D s ∧ p = bitmapPlan D s.width.toNat s.height.toNat := by
  rw [decodePlan_ok hD]
  constructor
  · rintro ⟨-, hg, hsrc, hdst, ⟨hsfit, hdfit⟩, hap, hp⟩
    exact ⟨⟨hg, hsrc, hdst, hsfit, hdfit, hap⟩, hp⟩
  · rintro ⟨⟨hg, hsrc, hdst, hsfit, hdfit, hap⟩, hp⟩
    exact ⟨buffersPresent_of_good hD hg hsrc hdst, hg, hsrc, hdst, ⟨hsfit, hdfit⟩, hap, hp⟩

/-- The stream that DECODE_AUTO reads ends inside the source buffer (R64). -/
theorem need_usedHeight_le (D : Descriptor) (s : State) :
    need D (usedWidth D s) (usedHeight D s) ≤ s.srcLen.toNat := by
  rw [usedHeight, need_eight_mul]
  exact Nat.mul_div_le _ _

theorem decodeAutoPlan_ok_iff_ready {D : Descriptor} {s : State} {p : Plan} (hD : D.Fits) :
    decodeAutoPlan D s = .ok p ↔ DecodeAutoReady D s ∧ p = bitmapPlan D (usedWidth D s) (usedHeight D s) := by
  have hW : usedWidth D s ≠ 0 := chosenWidth_eq_usedWidth D s ▸ Nat.ne_of_gt (chosenWidth_pos hD s)
  have hH : derivedHeight D s.srcLen.toNat (usedWidth D s) = usedHeight D s := derivedHeight_eq hD
  have hmod : usedHeight D s % 8 = 0 := Nat.mul_mod_right 8 _
  rw [decodeAutoPlan_ok hD, chosenWidth_eq_usedWidth, hH]
  constructor
  · rintro ⟨-, hW8, hH0, hpix, hdst, ⟨hsfit, hdfit⟩, hap, hp⟩
    exact ⟨⟨⟨hW, hH0, hW8, hmod, hpix⟩, hdst, hsfit, hdfit, hap⟩, hp⟩
  · rintro ⟨⟨hg, hdst, hsfit, hdfit, hap⟩, hp⟩
    obtain ⟨-, hH0, hW8, -, hpix⟩ := id hg
    exact ⟨buffersPresent_of_good hD hg (need_usedHeight_le D s) hdst, hW8, hH0, hpix, hdst, ⟨hsfit, hdfit⟩, hap, hp⟩

theorem memoryPlan_decode {D : Descriptor} {s : State} (hD : D.Fits) (h : DecodeReady D s) (f : Nat) :
    memoryPlan D s (.decode f) = some (bitmapPlan D s.width.toNat s.height.toNat) :=
  toOption_eq_some.mpr ((decodePlan_ok_iff_ready hD).mpr ⟨h, rfl⟩)

theorem memoryPlan_decodeAuto {D : Descriptor} {s : State} (hD : D.Fits) (h : DecodeAutoReady D s) (f : Nat) :
    memoryPlan D s (.decodeAuto f) = some (bitmapPlan D (usedWidth D s) (usedHeight D s)) :=
  toOption_eq_some.mpr ((decodeAutoPlan_ok_iff_ready hD).mpr ⟨h, rfl⟩)

/-! ## A command that passed its checks ends after its walk, or with a bus error -/

theorem bodyOf_of_plan {i : Instr} {D : Descriptor} {s : State} {p : Plan} (hp : memoryPlan D s i = some p) :
    (busErrorHits s = true ∧ bodyOf i D s = raiseErr .busError (spoilForBusError (isEncode i) p s)) ∨
    (busErrorHits s = false ∧ bodyOf i D s = finish ((afterWalk (isEncode i) p
      (walkOf D s.srcBase.toNat s.dstBase.toNat p i (Datapath.start s)) s).setRes
        (wordOf p.width) (wordOf p.height) (wordOf p.need))) := by
  rcases bodyOf_cases i D s with ⟨e, he, -⟩ | ⟨ha, -⟩ | ⟨q, hq, hb, h⟩ | ⟨q, hq, hb, h⟩
  · exact nomatch hp.symm.trans (memoryPlan_of_error he)
  · exact nomatch hp.symm.trans (memoryPlan_of_no_access ha D s)
  · obtain rfl := Option.some.inj (hp.symm.trans hq)
    exact .inl ⟨hb, h⟩
  · obtain rfl := Option.some.inj (hp.symm.trans hq)
    exact .inr ⟨hb, h⟩

/-! ## What a successful decode leaves -/

/-- The walk of DECODE and DECODE_AUTO is `decode_tiles` (R72). -/
theorem walkOf_decode {i : Instr} (hacc : accessesMemory i = true) (henc : isEncode i = false) (D : Descriptor) (src dst : Nat)
    (p : Plan) : walkOf D src dst p i = decodeTiles D src dst p.width p.height :=
  match i, hacc, henc with
  | .decode _, _, _ => rfl
  | .decodeAuto _, _, _ => rfl

/-- The walk of a plan that passed its checks writes the bitmap of R72, nothing outside it, and not RANGE. -/
theorem decodeTiles_of_sound {D : Descriptor} (hD : D.Fits) {s : State} {W H : Nat} (hs : (bitmapPlan D W H).Sound D s)
    (hm : s.mem.wf) :
    DecodeSoFar s.dstBase.toNat (W * H) (Datapath.start s)
      (decodeTiles D s.srcBase.toNat s.dstBase.toNat W H (Datapath.start s)) ∧
    ∀ x y, x < W → y < H → Decoded D s.srcBase.toNat s.dstBase.toNat W x y (Datapath.start s)
      (decodeTiles D s.srcBase.toNat s.dstBase.toNat W H (Datapath.start s)) :=
  decodeTiles_spec hD hm hs.geometry.width_mod hs.geometry.height_mod hs.apart

/-- The registers that a decode writes after its walk; the walk has left RANGE alone. -/
theorem bodyOf_decode_registers {i : Instr} {s : State} {D : Descriptor} {W H : Nat} (hD : D.Fits)
    (hacc : accessesMemory i = true) (henc : isEncode i = false) (hm : s.mem.wf)
    (hp : memoryPlan D s i = some (bitmapPlan D W H)) (hb : busErrorHits s = false) :
    (bodyOf i D s).status = ended s .ok ∧ Results (bodyOf i D s) W H (need D W H) ∧
      SameDescriptor s (bodyOf i D s) := by
  have hs := memoryPlan_sound hD hp
  have hg := hs.geometry
  rcases bodyOf_of_plan hp with ⟨hhit, -⟩ | ⟨-, hend⟩
  · exact nomatch hb.symm.trans hhit
  · rw [hend, henc, walkOf_decode hacc henc]
    refine ⟨?_, ⟨wordOf_toNat hg.width_lt, wordOf_toNat hg.height_lt, wordOf_toNat (hg.need_lt hD)⟩, rfl, rfl, rfl⟩
    exact congrArg (fun r => { ended s .ok with range := r }) (decodeTiles_of_sound hD hs hm).1.range

/-- In ordinary RAM and with a quiet host, a decode leaves memory as its walk did. -/
theorem bodyOf_decode_memory {i : Instr} {s : State} {D : Descriptor} {W H : Nat} (hD : D.Fits)
    (hacc : accessesMemory i = true) (henc : isEncode i = false) (hm : s.mem.wf) (htouched : s.touched = Touched.nothing)
    (hp : memoryPlan D s i = some (bitmapPlan D W H)) (hord : (bitmapPlan D W H).ordinary s = true)
    (hb : busErrorHits s = false) :
    BitmapDecoded D W H s (bodyOf i D s) ∧ SameBytesOutside s.dstBase.toNat (W * H) s (bodyOf i D s) := by
  obtain ⟨hsofar, hpixels⟩ := decodeTiles_of_sound hD (memoryPlan_sound hD hp) hm
  have hmem : (bodyOf i D s).mem = (decodeTiles D s.srcBase.toNat s.dstBase.toNat W H (Datapath.start s)).mem := by
    rw [bodyOf_mem_of_plan hp hb, settleMem_nothing htouched hord, walkOf_decode hacc henc]
    rfl
  refine ⟨fun x y p hx hy hp8 => ?_, fun a ha => ?_⟩ <;> rw [hmem]
  · exact hpixels x y hx hy p hp8
  · exact hsofar.outside a (by omega)

/-- The prologue has written DESC_*, which the checks, the walk and the end leave alone. -/
theorem decodeDone_of_no_busError {i : Instr} {s t : State} {D : Descriptor} {W H : Nat} (hacc : accessesMemory i = true)
    (henc : isEncode i = false) (h : rom s.params i.fmt = some D) (hu : Undisturbed i s)
    (hp : memoryPlan D s i = some (bitmapPlan D W H)) (hb : busErrorHits s = false) (ht : exec i s = .next t) :
    DecodeDone D W H s t := by
  have hD := rom_fits h
  obtain ⟨hm, htouched, hram⟩ := hu
  have hord := hram D _ h hp
  obtain ⟨-, -, hkept⟩ := exec_endOf ht
  obtain rfl := Host.Outcome.next.inj ((exec_known h).symm.trans ht)
  obtain ⟨hstatus, hresults, hdesc⟩ :=
    bodyOf_decode_registers (s := s.setDesc D.w0 D.w1 D.w2) hD hacc henc hm hp hb
  obtain ⟨hbitmap, hframe⟩ :=
    bodyOf_decode_memory (s := s.setDesc D.w0 D.w1 D.w2) hD hacc henc hm htouched hp hord hb
  exact ⟨hstatus, hkept, hdesc, hresults, hbitmap, hframe⟩

/-- A command with a plan that ends with ERR 0 has met no bus error. -/
theorem busErrorHits_of_ok {i : Instr} {s t : State} {D : Descriptor} {p : Plan} (h : rom s.params i.fmt = some D)
    (hp : memoryPlan D s i = some p) (ht : exec i s = .next t) (hok : t.status.err = .ok) : busErrorHits s = false := by
  obtain rfl := Host.Outcome.next.inj ((exec_known h).symm.trans ht)
  rcases bodyOf_of_plan (s := s.setDesc D.w0 D.w1 D.w2) hp with ⟨-, hend⟩ | ⟨hb, -⟩
  · rw [hend] at hok
    exact nomatch hok
  · exact hb

/-- A decode whose checks pass ends with its bitmap on a platform without bus errors, and wherever it ends with ERR 0. -/
theorem decode_completes {i : Instr} {s : State} {D : Descriptor} {W H : Nat} (hacc : accessesMemory i = true)
    (henc : isEncode i = false) (h : rom s.params i.fmt = some D) (hu : Undisturbed i s)
    (hp : memoryPlan D s i = some (bitmapPlan D W H)) :
    (s.params.busErrors = false → ∃ t, exec i s = .next t ∧ DecodeDone D W H s t) ∧
    ∀ t, exec i s = .next t → t.status.err = .ok → DecodeDone D W H s t :=
  ⟨fun hbus => ⟨_, exec_known h, decodeDone_of_no_busError hacc henc h hu hp (busErrorHits_of_not hbus) (exec_known h)⟩,
    fun _ ht hok => decodeDone_of_no_busError hacc henc h hu hp (busErrorHits_of_ok h hp ht hok) ht⟩

/-! ## The bits from BPP up are 0 (R76) -/

/-- Every pixel of a decoded bitmap is below 2^BPP: at row-major offset `o` stands pixel (`o % W`, `o / W`). -/
theorem pixel_lt_of_bitmapDecoded {D : Descriptor} {W H o : Nat} {s t : State} (h : BitmapDecoded D W H s t) (ho : o < W * H) :
    (Memory.read t.mem (s.dstBase.toNat + o)).toNat < 2 ^ D.bpp := by
  have hW : 0 < W := Nat.pos_of_ne_zero fun h0 => by simp [h0] at ho
  refine Nat.lt_pow_two_of_testBit _ fun p hp => ?_
  by_cases hp8 : p < 8
  · have hbit := h (o % W) (o / W) p (Nat.mod_lt o hW) (Nat.div_lt_of_lt_mul ho) hp8
    rw [Nat.div_add_mod', decide_eq_false (Nat.not_lt.mpr hp), Bool.false_and] at hbit
    exact hbit
  · exact BitVec.getLsbD_of_ge _ p (Nat.not_lt.mp hp8)

end Sys2Proof.Machine

namespace Sys2Proof.Proofs
open Sys2Proof.Machine Sys2Proof.Claims

/-- Settles O31: the checks give the plan of a WIDTH by HEIGHT bitmap, and its walk writes that bitmap. -/
theorem decodeWritesTheBitmap : Obligations.DecodeWritesTheBitmap :=
  fun _ f _ h hready hu => decode_completes rfl rfl h hu (memoryPlan_decode (rom_fits h) hready f)

/-- Settles O32: the same with the plan of the derived geometry. -/
theorem decodeAutoWritesTheBitmap : Obligations.DecodeAutoWritesTheBitmap :=
  fun _ f _ h hready hu => decode_completes rfl rfl h hu (memoryPlan_decodeAuto (rom_fits h) hready f)

/-- Settles O48: a tile's plane bytes fill its bytes of the stream, and the tiles follow one another. -/
theorem planeBytesTileTheStream : Obligations.PlaneBytesTileTheStream := by
  intro q f W H D h hW hH
  have hD := rom_fits h
  refine ⟨fun ty tx r p hty htx hr hp => planeOff_lt_need hD hW hH hty htx hr hp, fun o ho => ?_⟩
  obtain ⟨ty, tx, r, p, hty, htx, hr, hp, hoff⟩ := planeOff_covers hD hW hH ho
  refine ⟨ty, tx, r, p, ⟨hty, htx, hr, hp, hoff⟩, fun ty' tx' r' p' _ htx' hr' hp' hoff' => ?_⟩
  obtain ⟨htile, hrow, hplane⟩ := hD.off_inj hr' hp' hr hp (hoff'.trans hoff.symm)
  obtain ⟨hy, hx⟩ := tileNumber_inj htx' htx htile
  exact ⟨hy, hx, hrow, hplane⟩

/-- Settles O50: the bitmap of R72 has its bits from BPP up at 0, and PAL_SIZE is 2^BPP. -/
theorem decodedPixelsAreInThePalette : Obligations.DecodedPixelsAreInThePalette := by
  refine ⟨fun s t f D h hready hu ht hok o ho => ?_, fun s t f D h hready hu ht hok o ho => ?_⟩ <;>
    obtain ⟨-, -, hpal, -⟩ := romEntriesAreSound s.params f D h <;> rw [hpal]
  · obtain ⟨-, -, -, -, hbitmap, -⟩ := (decodeWritesTheBitmap s f D h hready hu).2 t ht hok
    exact pixel_lt_of_bitmapDecoded hbitmap ho
  · obtain ⟨-, -, -, -, hbitmap, -⟩ := (decodeAutoWritesTheBitmap s f D h hready hu).2 t ht hok
    exact pixel_lt_of_bitmapDecoded hbitmap ho

/-- Settles O47: with the fields of R54 put in, the quotients by ROW_INC are numbers. -/
theorem planeByteOffsets : Obligations.PlaneByteOffsets := by
  refine ⟨fun D t r p => rfl, fun q D t r h => ?_, fun q D t r h => ?_⟩
  · obtain rfl := Option.some.inj h
    simp only [planeOff, romNes1bpp]
    omega
  · obtain rfl := Option.some.inj h
    simp only [planeOff, romSnes4bpp]
    omega

end Sys2Proof.Proofs
end

section
/-! Proofs for 43_encode.md: ENCODE, STATUS.RANGE and the inverse properties (O20, O21, O33, O40, O51, O52). -/

namespace Sys2Proof.Machine
open Sys2Proof.Claims

/-! ## The checks of ENCODE, in the claims' terms (R79) -/

/-- The plan of an encode of a `W` by `H` image: the bitmap is read and the stream is written. -/
def streamPlan (D : Descriptor) (W H : Nat) : Plan := ⟨W, H, need D W H, W * H, need D W H⟩

theorem encodePlan_ok_iff_ready {D : Descriptor} {s : State} {p : Plan} (hD : D.Fits) :
    encodePlan D s = .ok p ↔ EncodeReady D s ∧ p = streamPlan D s.width.toNat s.height.toNat := by
  rw [encodePlan_ok hD]
  constructor
  · rintro ⟨-, hg, hsrc, hdst, ⟨hsfit, hdfit⟩, hap, hp⟩
    exact ⟨⟨hg, hsrc, hdst, hsfit, hdfit, hap⟩, hp⟩
  · rintro ⟨⟨hg, hsrc, hdst, hsfit, hdfit, hap⟩, hp⟩
    have hneed : 0 < need D s.width.toNat s.height.toNat := (bitmapPlan_geometry D hg).need_pos hD
    obtain ⟨hW0, hH0, -⟩ := id hg
    have hpix := Nat.mul_pos (Nat.pos_of_ne_zero hW0) (Nat.pos_of_ne_zero hH0)
    exact ⟨⟨by omega, by omega⟩, hg, hsrc, hdst, ⟨hsfit, hdfit⟩, hap, hp⟩

theorem memoryPlan_encode_iff {D : Descriptor} {s : State} {f : Nat} {p : Plan} (hD : D.Fits) :
    memoryPlan D s (.encode f) = some p ↔ EncodeReady D s ∧ p = streamPlan D s.width.toNat s.height.toNat :=
  toOption_eq_some.trans (encodePlan_ok_iff_ready hD)

/-- A memory command that ends with ERR 0 has passed its checks: no check raises the code 0. -/
theorem memoryPlan_of_ok {i : Instr} {s t : State} {D : Descriptor} (hacc : accessesMemory i = true)
    (h : rom s.params i.fmt = some D) (ht : exec i s = .next t) (hok : t.status.err = .ok) :
    ∃ p, memoryPlan D s i = some p := by
  obtain rfl := Host.Outcome.next.inj ((exec_known h).symm.trans ht)
  rcases bodyOf_cases i D (s.setDesc D.w0 D.w1 D.w2) with ⟨e, he, hend⟩ | ⟨hn, -⟩ | ⟨p, hp, -⟩ | ⟨p, hp, -⟩
  · rw [hend] at hok
    have hcheck := planOf_checksOnly _ _ _ e he
    simp [show e = .ok from hok, ErrCode.FromCheck] at hcheck
  · exact nomatch hacc.symm.trans hn
  · exact ⟨p, hp⟩
  · exact ⟨p, hp⟩

/-! ## What a successful encode leaves (R77, R78) -/

/-- The walk of a plan that passed its checks writes the stream of R77, nothing outside it, and RANGE as R78 says. -/
theorem encodeTiles_of_sound {D : Descriptor} (hD : D.Fits) {s : State} {W H : Nat} (hs : (streamPlan D W H).Sound D s)
    (hm : s.mem.wf) :
    EncodeSoFar D.bpp s.srcBase.toNat (W * H) s.dstBase.toNat (need D W H) (Datapath.start s)
      (encodeTiles D s.srcBase.toNat s.dstBase.toNat W H (Datapath.start s)) ∧
    (∀ ty tx r p, ty < H / 8 → tx < W / 8 → r < 8 → p < D.bpp →
      Encoded D s.srcBase.toNat s.dstBase.toNat W ty tx r p (Datapath.start s)
        (encodeTiles D s.srcBase.toNat s.dstBase.toNat W H (Datapath.start s))) ∧
    ((encodeTiles D s.srcBase.toNat s.dstBase.toNat W H (Datapath.start s)).range = true ↔
      s.status.range = true ∨ OutOfRangePixel D (W * H) s) :=
  encodeTiles_spec hD hm hs.geometry.width_mod hs.geometry.height_mod hs.apart

/-- In ordinary RAM and with a quiet host, an encode leaves memory and RANGE as its walk did, and writes RES_*. -/
theorem bodyOf_encode {f : Nat} {s : State} {D : Descriptor} {p : Plan} (htouched : s.touched = Touched.nothing)
    (hp : memoryPlan D s (.encode f) = some p) (hord : p.ordinary s = true) (hb : busErrorHits s = false) :
    let d := encodeTiles D s.srcBase.toNat s.dstBase.toNat p.width p.height (Datapath.start s)
    (bodyOf (.encode f) D s).mem = d.mem ∧ (bodyOf (.encode f) D s).status = { ended s .ok with range := d.range } ∧
    (bodyOf (.encode f) D s).resWidth = wordOf p.width ∧ (bodyOf (.encode f) D s).resHeight = wordOf p.height ∧
    (bodyOf (.encode f) D s).resBytes = wordOf p.need ∧ SameDescriptor s (bodyOf (.encode f) D s) := by
  rcases bodyOf_of_plan hp with ⟨hhit, -⟩ | ⟨-, hend⟩
  · exact nomatch hb.symm.trans hhit
  · rw [hend]
    exact ⟨settleMem_nothing htouched hord,
      congrArg (fun r => { ended s .ok with range := r }) (settleRange_nothing htouched hord), rfl, rfl, rfl, rfl, rfl, rfl⟩

theorem encodeDone_of_no_busError {f : Nat} {s t : State} {D : Descriptor} {W H : Nat} (h : rom s.params f = some D)
    (hu : Undisturbed (.encode f) s) (hp : memoryPlan D s (.encode f) = some (streamPlan D W H)) (hb : busErrorHits s = false)
    (ht : exec (.encode f) s = .next t) : EncodeDone D W H s t := by
  have hD := rom_fits h
  obtain ⟨hm, htouched, hram⟩ := hu
  have hs := memoryPlan_sound hD hp
  have hg := hs.geometry
  obtain ⟨hsofar, hplanes, hrange⟩ := encodeTiles_of_sound hD hs hm
  obtain ⟨-, -, hkept⟩ := exec_endOf ht
  obtain rfl := Host.Outcome.next.inj ((exec_known (i := .encode f) h).symm.trans ht)
  obtain ⟨hmem, hstatus, hw, hh, hn, hdesc⟩ :=
    bodyOf_encode (s := s.setDesc D.w0 D.w1 D.w2) htouched hp (hram D _ h hp) hb
  refine ⟨?_, ?_, hkept, hdesc, ?_, fun ty tx r p c hty htx hr hp hc => ?_, fun a ha => ?_⟩
  · rw [hstatus]; rfl
  · rw [hstatus]; exact hrange
  · rw [Results, hw, hh, hn]
    exact ⟨wordOf_toNat hg.width_lt, wordOf_toNat hg.height_lt, wordOf_toNat (hg.need_lt hD)⟩
  · rw [hmem]; exact hplanes ty tx r p hty htx hr hp c hc
  · rw [hmem]; exact hsofar.outside a (by omega)

/-! ## RANGE during a walk: DECODE keeps it, ENCODE never clears it -/

theorem decodeRow_range (D : Descriptor) (src dst W ty tx r : Nat) (d : Datapath) :
    (decodeRow D src dst W ty tx r d).range = d.range := by
  have hload : (loadPlanes D src (tileNumber W ty tx) r d).range = d.range :=
    forUpTo_keeps (fun u : Datapath => u.range = d.range) D.bpp rfl fun _ _ _ hu => hu
  exact forUpTo_keeps (fun u : Datapath => u.range = d.range) 8 hload fun _ _ _ hu => hu

theorem decodeTiles_range (D : Descriptor) (src dst W H : Nat) (d : Datapath) :
    (decodeTiles D src dst W H d).range = d.range :=
  tileWalk_keeps (fun u : Datapath => u.range = d.range)
    (fun ty tx r _ _ _ u hu => (decodeRow_range D src dst W ty tx r u).trans hu) rfl

/-- A loop whose rounds do not clear RANGE does not clear it. -/
theorem forUpTo_range_stays (n : Nat) {f : Nat → Datapath → Datapath} {d : Datapath} (h : d.range = true)
    (hf : ∀ i (u : Datapath), u.range = true → (f i u).range = true) : (forUpTo n f d).range = true :=
  forUpTo_keeps (fun u : Datapath => u.range = true) n h fun i _ u hu => hf i u hu

theorem packPixel_range_stays {bpp : Nat} {v : Byte} {d : Datapath} (h : d.range = true) : (packPixel bpp v d).range = true :=
  forUpTo_range_stays bpp (by simp [h]) fun _ _ hu => hu

theorem encodeRow_range_stays {D : Descriptor} {src dst W ty tx r : Nat} {d : Datapath} (h : d.range = true) :
    (encodeRow D src dst W ty tx r d).range = true := by
  have hclear : (clearPlanes D.bpp d).range = true := forUpTo_range_stays D.bpp h fun _ _ hu => hu
  exact forUpTo_range_stays D.bpp (forUpTo_range_stays 8 hclear fun _ _ hu => packPixel_range_stays hu) fun _ _ hu => hu

theorem encodeTiles_range_stays {D : Descriptor} {src dst W H : Nat} {d : Datapath} (h : d.range = true) :
    (encodeTiles D src dst W H d).range = true :=
  tileWalk_keeps (fun u : Datapath => u.range = true) (fun _ _ _ _ _ _ _ hu => encodeRow_range_stays hu) h

theorem walkOf_range {i : Instr} (h : isEncode i = false) (D : Descriptor) (src dst : Nat) (p : Plan) (d : Datapath) :
    (walkOf D src dst p i d).range = d.range :=
  match i, h with
  | .lookup _, _ => rfl
  | .sizeDec _, _ => rfl
  | .sizeEnc _, _ => rfl
  | .decode _, _ => decodeTiles_range D src dst p.width p.height d
  | .decodeAuto _, _ => decodeTiles_range D src dst p.width p.height d

theorem walkOf_range_stays (i : Instr) {D : Descriptor} {src dst : Nat} {p : Plan} {d : Datapath} (h : d.range = true) :
    (walkOf D src dst p i d).range = true := by
  cases i with
  | encode f => exact encodeTiles_range_stays h
  | lookup | sizeDec | sizeEnc | decode | decodeAuto => exact (walkOf_range rfl D src dst p d).trans h

/-! ## RANGE after a command (R78) -/

theorem eq_encode_of_isEncode {i : Instr} (h : isEncode i = true) : ∃ f, i = .encode f :=
  match i, h with
  | .encode f, _ => ⟨f, rfl⟩

/-- No command but ENCODE writes RANGE. -/
theorem bodyOf_range_of_not_encode {i : Instr} (h : isEncode i = false) (D : Descriptor) (s : State) :
    (bodyOf i D s).status.range = s.status.range := by
  rcases bodyOf_cases i D s with ⟨e, -, hend⟩ | ⟨-, w, r, b, hend⟩ | ⟨p, -, -, hend⟩ | ⟨p, -, -, hend⟩ <;> rw [hend]
  · rfl
  · rfl
  · rw [h]; rfl
  · rw [h]; exact walkOf_range h D _ _ p _

/-- A RANGE that is 1 stays 1, unless the command ends with BusError. -/
theorem bodyOf_range_stays {i : Instr} {D : Descriptor} {s : State} (h : s.status.range = true) :
    (bodyOf i D s).status.range = true ∨ (bodyOf i D s).status.err = .busError := by
  rcases bodyOf_cases i D s with ⟨e, -, hend⟩ | ⟨-, w, r, b, hend⟩ | ⟨p, -, -, hend⟩ | ⟨p, -, -, hend⟩ <;> rw [hend]
  · exact .inl h
  · exact .inl h
  · exact .inr rfl
  · exact .inl (settleRange_stays h (walkOf_range_stays i h))

/-- Why an ENCODE with the plan `p` may leave RANGE at 1: what it reads is unknown (R39 item 3, R33), or a pixel is out of range. -/
def RangeCause (D : Descriptor) (p : Plan) (s : State) : Prop :=
  s.touched.source = true ∨ p.ordinary s = false ∨ OutOfRangePixel D (s.width.toNat * s.height.toNat) s

/-- The command in CMD is an ENCODE that passed its checks, and `P` holds of its descriptor and its plan. -/
def EncodeRuns (s : State) (P : Descriptor → Plan → Prop) : Prop :=
  ∃ (f : Nat) (D : Descriptor) (p : Plan), decodeWord s.cmd = .ok (.encode f) ∧ rom s.params f = some D ∧
    memoryPlan D s (.encode f) = some p ∧ P D p

theorem rangeCause_of_settleRange {D : Descriptor} (hD : D.Fits) {s : State} {p : Plan} {f : Nat} (hm : s.mem.wf)
    (h0 : s.status.range = false) (hp : memoryPlan D s (.encode f) = some p)
    (h : settleRange true p s (encodeTiles D s.srcBase.toNat s.dstBase.toNat p.width p.height (Datapath.start s)).range = true) :
    RangeCause D p s := by
  by_cases hu : sourceUnknown p s = true
  · rcases Bool.or_eq_true_iff.mp hu with hs | ho
    · exact .inl hs
    · exact .inr (.inl (by simpa using ho))
  · have hs := memoryPlan_sound hD hp
    obtain ⟨-, rfl⟩ := (memoryPlan_encode_iff hD).mp hp
    obtain ⟨-, -, hrange⟩ := encodeTiles_of_sound hD hs hm
    rw [settleRange, Bool.true_and, if_neg hu] at h
    exact .inr (.inr ((hrange.mp h).resolve_left (by simp [h0])))

/-- A command that sets RANGE is an ENCODE that passed its checks; it met a bus error, or has a reason. -/
theorem bodyOf_sets_range {i : Instr} {D : Descriptor} (hD : D.Fits) {s : State} (hm : s.mem.wf)
    (h0 : s.status.range = false) (h1 : (bodyOf i D s).status.range = true) :
    ∃ f p, i = .encode f ∧ memoryPlan D s (.encode f) = some p ∧
      ((bodyOf i D s).status.err = .busError ∨ RangeCause D p s) := by
  by_cases henc : isEncode i = true
  · obtain ⟨f, rfl⟩ := eq_encode_of_isEncode henc
    rcases bodyOf_cases (.encode f) D s with ⟨e, -, hend⟩ | ⟨hn, -⟩ | ⟨p, hp, -, hend⟩ | ⟨p, hp, -, hend⟩
    · rw [hend] at h1
      exact nomatch h0.symm.trans h1
    · exact nomatch hn
    · exact ⟨f, p, rfl, hp, .inl (by rw [hend]; rfl)⟩
    · rw [hend] at h1
      exact ⟨f, p, rfl, hp, .inr (rangeCause_of_settleRange hD hm h0 hp h1)⟩
  · rw [bodyOf_range_of_not_encode (Bool.eq_false_iff.mpr henc), h0] at h1
    exact nomatch h1

/-- A detected error leaves RANGE as it was. -/
theorem exec_range_of_error {i : Instr} {s t : State} (h : exec i s = .next t) (hok : t.status.err ≠ .ok)
    (hbus : t.status.err ≠ .busError) : t.status.range = s.status.range := by
  rcases exec_cases h with ⟨-, rfl⟩ | ⟨D, -, rfl⟩
  · rfl
  · rcases bodyOf_cases i D (s.setDesc D.w0 D.w1 D.w2) with ⟨e, -, hend⟩ | ⟨-, w, r, b, hend⟩ | ⟨p, -, -, hend⟩ | ⟨p, -, -, hend⟩ <;>
      rw [hend] at hok hbus ⊢
    · rfl
    · rfl
    · exact absurd rfl hbus
    · exact absurd rfl hok

theorem runCommand_range_stays {s t : State} (h : s.status.range = true) (ht : runCommand s = .next t) :
    t.status.range = true ∨ t.status.err = .busError := by
  rcases runCommand_cases ht with ⟨e, -, rfl⟩ | ⟨i, -, ht⟩
  · exact .inl h
  · rcases exec_cases ht with ⟨-, rfl⟩ | ⟨D, -, rfl⟩
    · exact .inl h
    · exact bodyOf_range_stays (s := s.setDesc D.w0 D.w1 D.w2) h

theorem runCommand_sets_range {s t : State} (hm : s.mem.wf) (h0 : s.status.range = false) (h1 : t.status.range = true)
    (ht : runCommand s = .next t) : EncodeRuns s fun D p => t.status.err = .busError ∨ RangeCause D p s := by
  rcases runCommand_cases ht with ⟨e, -, rfl⟩ | ⟨i, hi, ht⟩
  · exact nomatch h0.symm.trans h1
  · rcases exec_cases ht with ⟨-, rfl⟩ | ⟨D, hD, rfl⟩
    · exact nomatch h0.symm.trans h1
    · obtain ⟨f, p, rfl, hp, hcause⟩ := bodyOf_sets_range (s := s.setDesc D.w0 D.w1 D.w2) (rom_fits hD) hm h0 h1
      exact ⟨f, D, p, hi, hD, hp, hcause⟩

/-! ## RANGE in the host's steps (R79) -/

/-- What the walk writes before the engine's step is RANGE, where the running ENCODE has a reason. -/
theorem writeRange_cause {s : State} (hm : s.mem.wf) (h0 : s.status.range = false) :
    writeRange s = s ∨ (writeRange s = s.setStatus { s.status with range := true } ∧ s.status.busy = true ∧
      EncodeRuns s fun D p => RangeCause D p s) := by
  rcases writeRange_cases s with h | ⟨h, hb, hr⟩
  · exact .inl h
  · obtain ⟨f, D, p, hi, hD, hp, hset⟩ := runningSetsRange_encode hr
    have hp' : memoryPlan D s (.encode f) = some p := toOption_eq_some.mpr hp
    exact .inr ⟨h, hb, f, D, p, hi, hD, hp', rangeCause_of_settleRange (rom_fits hD) hm h0 hp' hset⟩

theorem writeRange_range_stays {s : State} (h : s.status.range = true) : (writeRange s).status.range = true := by
  rcases writeRange_cases s with he | ⟨he, -⟩ <;> rw [he]
  · exact h
  · rfl

/-- A bus write leaves RANGE alone, or is the acceptance of a command, which clears it. -/
theorem busWrite_range_cases (addr : Nat) (width : AccessWidth) (v : Word) (s : State) :
    (busWrite addr width v s).status.range = s.status.range ∨ ((busWrite addr width v s).status.range = false ∧
      s.status.busy = false ∧ (busWrite addr width v s).status.busy = true) := by
  rcases busWrite_cases addr width v s with h | ⟨r, -, h⟩ <;> rw [h]
  · exact .inl rfl
  · rcases hostWriteReg_cases r v s with h | ⟨-, h⟩ | ⟨-, h⟩ | ⟨hb, -, h⟩ | ⟨-, a, b, c, d, e, f, h⟩ <;> rw [h]
    · exact .inl rfl
    · exact .inl rfl
    · exact .inl rfl
    · exact .inr ⟨rfl, hb, rfl⟩
    · exact .inl rfl

/-- A host action leaves RANGE alone, or clears it, and then it is a reset or the acceptance of a command. -/
theorem hostAct_range_cases (a : HostAction) (s : State) :
    (hostAct a s).status.range = s.status.range ∨
    ((hostAct a s).status.range = false ∧ (a = .reset ∨ (s.status.busy = false ∧ (hostAct a s).status.busy = true))) := by
  rcases hostAct_cases a s with ⟨m, tc, d, n, h⟩ | ⟨addr, width, v, -, h⟩ | ⟨st, addr, width, v, -, h⟩ | ⟨ha, h⟩ <;> rw [h]
  · exact .inl rfl
  · exact (busWrite_range_cases addr width v s).imp_right (.imp_right .inr)
  · exact (busWrite_range_cases addr width v (s.setStatus (s.status.hostWrite st))).imp_right (.imp_right .inr)
  · exact .inr ⟨rfl, .inl ha⟩

/-- A RANGE that is 1 stays 1 in a host step, unless the host resets the engine or starts a command. -/
theorem hostAct_writeRange_stays {a : HostAction} {s : State} (h : s.status.range = true) :
    (hostAct a (writeRange s)).status.range = true ∨ a = .reset ∨
    (s.status.busy = false ∧ (hostAct a (writeRange s)).status.busy = true) := by
  rcases hostAct_range_cases a (writeRange s) with hk | ⟨-, ha | ⟨hb, hb'⟩⟩
  · exact .inl (hk.trans (writeRange_range_stays h))
  · exact .inr (.inl ha)
  · exact .inr (.inr ⟨(writeRange_busy s).symm.trans hb, hb'⟩)

/-- A host step that sets RANGE shows what the walk of the running ENCODE has written. -/
theorem hostAct_writeRange_sets {a : HostAction} {s : State} (hm : s.mem.wf) (h0 : s.status.range = false)
    (h1 : (hostAct a (writeRange s)).status.range = true) :
    s.status.busy = true ∧ EncodeRuns s fun D p => RangeCause D p s := by
  rcases hostAct_range_cases a (writeRange s) with hk | ⟨hk, -⟩
  · rw [h1] at hk
    rcases writeRange_cause hm h0 with he | ⟨-, hcause⟩
    · rw [he, h0] at hk
      exact nomatch hk
    · exact hcause
  · exact nomatch hk.symm.trans h1

theorem step_host {s : State} {a : HostAction} {rest : List HostAction} (hturn : engineTurn s = false)
    (hp : s.pending = a :: rest) :
    step s = .next (hostAct a (writeRange { s with pending := rest, wait := s.wait - 1 })) := by
  unfold step hostTurn
  rw [hturn, hp]; rfl

/-! ## Decoding and encoding undo each other (R80) -/

/-- The bitmap decoded from an encoded stream has the pixels of the first bitmap, cut to BPP bits. -/
theorem decoded_encoded_pixel {D : Descriptor} {W H o : Nat} {s t s' u : State} (hW : W % 8 = 0) (hH : H % 8 = 0)
    (hmem : s'.mem = t.mem) (hsrc : s'.srcBase = s.dstBase) (henc : StreamEncoded D W H s t) (hdec : BitmapDecoded D W H s' u)
    (ho : o < W * H) : (Memory.read u.mem (s'.dstBase.toNat + o)).toNat =
      (Memory.read s.mem (s.srcBase.toNat + o)).toNat % 2 ^ D.bpp := by
  have hW0 : 0 < W := Nat.pos_of_ne_zero fun h0 => by simp [h0] at ho
  have hx : o % W < W := Nat.mod_lt o hW0
  have hy : o / W < H := Nat.div_lt_of_lt_mul ho
  refine Nat.eq_of_testBit_eq fun p => ?_
  rw [Nat.testBit_mod_two_pow, BitVec.testBit_toNat, BitVec.testBit_toNat]
  by_cases hp8 : p < 8
  · have hbit := hdec (o % W) (o / W) p hx hy hp8
    rw [Nat.div_add_mod'] at hbit
    rw [hbit]
    by_cases hp : p < D.bpp
    · have hplane := henc (o / W / 8) (o % W / 8) (o / W % 8) p (o % W % 8) (by omega) (by omega) (by omega) hp (by omega)
      rw [Nat.div_add_mod, Nat.div_add_mod, Nat.div_add_mod'] at hplane
      rw [hmem, hsrc, hplane]
    · simp [hp]
  · rw [BitVec.getLsbD_of_ge _ p (Nat.not_lt.mp hp8), BitVec.getLsbD_of_ge _ p (Nat.not_lt.mp hp8), Bool.and_false]

/-- The stream encoded from a decoded bitmap has the plane bytes of the first stream. -/
theorem encoded_decoded_byte {D : Descriptor} (hD : D.Fits) {W H o : Nat} {s t s' u : State} (hW : W % 8 = 0) (hH : H % 8 = 0)
    (hmem : s'.mem = t.mem) (hsrc : s'.srcBase = s.dstBase) (hdec : BitmapDecoded D W H s t) (henc : StreamEncoded D W H s' u)
    (ho : o < need D W H) :
    Memory.read u.mem (s'.dstBase.toNat + o) = Memory.read s.mem (s.srcBase.toNat + o) := by
  obtain ⟨ty, tx, r, p, hty, htx, hr, hp, rfl⟩ := planeOff_covers hD hW hH ho
  refine BitVec.eq_of_getLsbD_eq fun j hj => ?_
  have hplane := henc ty tx r p (7 - j) hty htx hr hp (by omega)
  have hbit := hdec (8 * tx + (7 - j)) (8 * ty + r) p (by omega) (by omega) (by have := hD.bpp_le; omega)
  rw [show 7 - (7 - j) = j by omega, hmem, hsrc, hbit, show (8 * ty + r) / 8 = ty by omega,
    show (8 * tx + (7 - j)) / 8 = tx by omega, show (8 * ty + r) % 8 = r by omega,
    show 7 - (8 * tx + (7 - j)) % 8 = j by omega, decide_eq_true hp, Bool.true_and] at hplane
  exact hplane

end Sys2Proof.Machine

namespace Sys2Proof.Proofs
open Sys2Proof.Machine Sys2Proof.Claims

/-- Settles O33: the checks give the plan of a WIDTH by HEIGHT stream, and its walk writes that stream. -/
theorem encodeWritesTheStream : Obligations.EncodeWritesTheStream := by
  intro s f D h hready hu
  have hp := (memoryPlan_encode_iff (f := f) (rom_fits h)).mpr ⟨hready, rfl⟩
  refine ⟨fun hbus => ⟨_, exec_known h, ?_⟩, fun t ht hok => ?_⟩
  · exact encodeDone_of_no_busError h hu hp (busErrorHits_of_not hbus) (exec_known h)
  · exact encodeDone_of_no_busError h hu hp (busErrorHits_of_ok (i := .encode f) h hp ht hok) ht

/-- Settles O40: only the walk of ENCODE writes RANGE, and where it ends with ERR 0 it has written it as R78 says. -/
theorem rangeMarksTruncatedPixels : Obligations.RangeMarksTruncatedPixels := by
  refine ⟨fun s w => rfl, fun i s t henc ht => ?_, fun f s t ht hok hbus => exec_range_of_error ht hok hbus, ?_⟩
  · rcases exec_cases ht with ⟨-, rfl⟩ | ⟨D, -, rfl⟩
    · rfl
    · exact bodyOf_range_of_not_encode henc D (s.setDesc D.w0 D.w1 D.w2)
  · intro f s t D hacc hm hD hord ht hok
    obtain ⟨p, hp⟩ := memoryPlan_of_ok (i := .encode f) rfl hD ht hok
    obtain ⟨hready, -⟩ := (memoryPlan_encode_iff (rom_fits hD)).mp hp
    obtain ⟨-, hrange, -⟩ := (encodeWritesTheStream s f D hD hready ⟨hm, hacc.touched, hord⟩).2 t ht hok
    rw [hrange, hacc.range]
    simp

/-- Settles O20: the read finds what the walk has written by then, and returns STATUS. -/
theorem statusReadsWhileBusy : Obligations.StatusReadsWhileBusy := by
  intro s t rest _ h0 hm hturn hp ht
  obtain rfl := Host.Outcome.next.inj ((step_host hturn hp).symm.trans ht)
  have hread := hostRead_eq (off := 0x04) (by decide) (by decide) (writeRange { s with pending := rest, wait := s.wait - 1 })
  rw [hostRead, writeRange_params] at hread
  rw [hread]
  refine ⟨rfl, ?_⟩
  rcases writeRange_cause (s := { s with pending := rest, wait := s.wait - 1 }) hm h0 with h | ⟨h, -, hcause⟩ <;> rw [h]
  · exact .inl rfl
  · exact .inr ⟨rfl, hcause⟩

/-- Settles O21: the engine's step by how its command ends; a host action clears RANGE at most, after what the walk has written. -/
theorem rangeStaysUntilAcceptance : Obligations.RangeStaysUntilAcceptance := by
  refine ⟨fun s t ht h => ?_, fun s t hm ht h0 h1 => ?_⟩ <;> rcases step_cases ht with ⟨hb, ht⟩ | rfl | ⟨a, rest, hp, rfl⟩
  · rcases runCommand_range_stays h ht with h1 | he
    · exact .inl h1
    · exact .inr (.inr (.inr ⟨hb, he⟩))
  · exact .inl h
  · rcases hostAct_writeRange_stays (a := a) (s := { s with pending := rest, wait := s.wait - 1 }) h with h1 | rfl | hacc
    · exact .inl h1
    · exact .inr (.inl ⟨rest, hp⟩)
    · exact .inr (.inr (.inl hacc))
  · exact ⟨hb, runCommand_sets_range hm h0 h1 ht⟩
  · exact nomatch h0.symm.trans h1
  · obtain ⟨hb, f, D, p, hi, hD, hp, hcause⟩ :=
      hostAct_writeRange_sets (s := { s with pending := rest, wait := s.wait - 1 }) hm h0 h1
    exact ⟨hb, f, D, p, hi, hD, hp, .inr hcause⟩

/-- Settles O51: a pixel's bits go to its plane bytes and back; the bits from BPP up are lost, and a pixel below PAL_SIZE has none. -/
theorem decodeInvertsEncode : Obligations.DecodeInvertsEncode := by
  intro s t s' u f D h hu hready h0 ht hok hparams hmem hsrc hw hh hu' hready' hdec hok'
  have hD : rom s'.params f = some D := hparams ▸ h
  obtain ⟨-, hrange, -, -, -, hstream, -⟩ := (encodeWritesTheStream s f D h hready hu).2 t ht hok
  obtain ⟨-, -, -, -, hbitmap, -⟩ := (decodeWritesTheBitmap s' f D hD hready' hu').2 u hdec hok'
  rw [hw, hh] at hbitmap
  obtain ⟨⟨-, -, hW8, hH8, -⟩, -⟩ := hready
  obtain ⟨-, -, hpal, -⟩ := romEntriesAreSound s.params f D h
  have hpixel := fun o => decoded_encoded_pixel (o := o) hW8 hH8 hmem hsrc hstream hbitmap
  refine ⟨hpixel, fun hin => ⟨Bool.eq_false_iff.mpr fun h1 => ?_, fun o ho => ?_⟩⟩
  · rcases hrange.mp h1 with h1 | ⟨o, ho, hout⟩
    · exact nomatch h0.symm.trans h1
    · have := hin o ho; omega
  · refine BitVec.eq_of_toNat_eq ((hpixel o ho).trans (Nat.mod_eq_of_lt ?_))
    rw [← hpal]; exact hin o ho

/-- Settles O52: a plane byte's bits go to its pixels and back; the decoded pixels are all in range, so RANGE is not set. -/
theorem encodeInvertsDecode : Obligations.EncodeInvertsDecode := by
  intro s t s' u f D h hu hready ht hok hparams hmem hsrc hw hh h0 hu' hready' henc hok'
  have hD : rom s'.params f = some D := hparams ▸ h
  obtain ⟨-, -, -, -, hbitmap, -⟩ := (decodeWritesTheBitmap s f D h hready hu).2 t ht hok
  obtain ⟨-, hrange, -, -, -, hstream, -⟩ := (encodeWritesTheStream s' f D hD hready' hu').2 u henc hok'
  rw [hw, hh] at hrange hstream
  obtain ⟨⟨-, -, hW8, hH8, -⟩, -⟩ := hready
  refine ⟨Bool.eq_false_iff.mpr fun h1 => ?_, fun o ho =>
    encoded_decoded_byte (rom_fits h) hW8 hH8 hmem hsrc hbitmap hstream ho⟩
  rcases hrange.mp h1 with h1 | ⟨o, ho, hout⟩
  · exact nomatch h0.symm.trans h1
  · rw [hmem, hsrc] at hout
    exact absurd (pixel_lt_of_bitmapDecoded hbitmap ho) (Nat.not_lt.mpr hout)

end Sys2Proof.Proofs
end

section
/-! Proofs for 60_exceptions.md: error codes, the order of checks, and what a command keeps (O8, O22, O34, O36 to O38). -/

namespace Sys2Proof.Machine
open Sys2Proof.Claims

/-! ## A check as one test with one code (R85) -/

/-- The test `b`: the code `e` where it holds, and the value `a` where it does not. -/
def testFor {α : Type} (b : Bool) (e : ErrCode) (a : α) : Except ErrCode α := if b then .error e else .ok a

theorem failIf_eq_testFor (c : Prop) [Decidable c] (e : ErrCode) : failIf c e = testFor (decide c) e () := by
  by_cases h : c <;> simp [failIf, testFor, h]

theorem testFor_bind_pure {α : Type} (b : Bool) (e : ErrCode) (a : α) :
    (testFor b e () >>= fun _ => pure a) = testFor b e a := by
  cases b <;> rfl

theorem notEmpty_eq_testFor (s : State) :
    notEmpty s = testFor (decide (s.srcLen = 0 ∨ s.dstLen = 0)) .nullOrEmptyInput () := by
  simp only [notEmpty, failIf_eq_testFor, BitVec.toNat_eq]
  rfl

theorem selectWidth_eq_testFor {D : Descriptor} (hD : D.Fits) (s : State) :
    selectWidth D s = testFor (decide (usedWidth D s % 8 ≠ 0)) .geometryError (usedWidth D s) := by
  simp only [selectWidth, failIf_eq_testFor, testFor_bind_pure, chosenWidth_eq_usedWidth, hD.tileW]

theorem deriveHeight_eq_testFor {D : Descriptor} (hD : D.Fits) (s : State) :
    deriveHeight D s.srcLen.toNat (usedWidth D s) =
      testFor (decide (usedHeight D s = 0)) .insufficientData (usedHeight D s) := by
  simp only [deriveHeight, failIf_eq_testFor, testFor_bind_pure, derivedHeight_eq hD]
  rfl

theorem geometryCheck_eq_testFor {D : Descriptor} (hD : D.Fits) (W H : Nat) :
    geometryCheck D W H = testFor (!decide (GoodGeometry W H)) .geometryError () := by
  rw [geometryCheck, failIf_eq_testFor, hD.tileW, hD.tileH, ← decide_not]
  congr 2
  simp only [GoodGeometry, eq_iff_iff]
  omega

/-- Both tests of the region check have one code, so they are one test (R59). -/
theorem checkRegions_eq_testFor (s : State) (su du : Nat) :
    checkRegions s su du = testFor (!decide (GoodRegions s su du)) .regionError () := by
  by_cases h : GoodRegions s su du
  · rw [checkRegions_ok_iff_good.mpr h, decide_eq_true h]; rfl
  · rw [checkRegions_of_not_good h, decide_eq_false h]; rfl

/-! ## The first failing check (R85) -/

/-- The code that `x` raises, if it raises one. -/
def codeOf {α : Type} : Except ErrCode α → Option ErrCode
  | .error e => some e
  | .ok _ => none

theorem codeOf_eq_some {α : Type} {x : Except ErrCode α} {e : ErrCode} : codeOf x = some e ↔ x = .error e := by
  cases x <;> simp [codeOf]

/-- A test before other checks stands before their list: where it fails, they are not made. -/
theorem codeOf_bind {α β : Type} {x : Except ErrCode α} {b : Bool} {e : ErrCode} {a : α} {f : α → Except ErrCode β}
    {cs : List (Bool × ErrCode)} (hx : x = testFor b e a) (hf : codeOf (f a) = firstFailing cs) :
    codeOf (x >>= f) = firstFailing ((b, e) :: cs) := by
  rw [hx]
  cases b with
  | true => rfl
  | false => exact hf

/-- The checks of every command are the list of R85: each is one test, and the first that fails gives the code. -/
theorem codeOf_planOf {D : Descriptor} (hD : D.Fits) (s : State) (i : Instr) :
    codeOf (planOf D s i) = firstFailing (checksInOrder D s i) := by
  cases i with
  | lookup f => rfl
  | sizeDec f =>
    exact codeOf_bind (selectWidth_eq_testFor hD s) <| codeOf_bind (deriveHeight_eq_testFor hD s) <|
      codeOf_bind (failIf_eq_testFor ..) rfl
  | sizeEnc f => exact codeOf_bind (geometryCheck_eq_testFor hD ..) rfl
  | decode f | encode f =>
    exact codeOf_bind (notEmpty_eq_testFor s) <| codeOf_bind (geometryCheck_eq_testFor hD ..) <|
      codeOf_bind (failIf_eq_testFor ..) <| codeOf_bind (failIf_eq_testFor ..) <|
      codeOf_bind (checkRegions_eq_testFor ..) rfl
  | decodeAuto f =>
    exact codeOf_bind (notEmpty_eq_testFor s) <| codeOf_bind (selectWidth_eq_testFor hD s) <|
      codeOf_bind (deriveHeight_eq_testFor hD s) <| codeOf_bind (failIf_eq_testFor ..) <|
      codeOf_bind (failIf_eq_testFor ..) <| codeOf_bind (checkRegions_eq_testFor ..) rfl

/-! ## How a command ends, by its checks -/

/-- The checks do not look at the descriptor registers. -/
theorem planOf_setDesc (D : Descriptor) (s : State) (w0 w1 w2 : Word) (i : Instr) :
    planOf D (s.setDesc w0 w1 w2) i = planOf D s i := by
  cases i <;> rfl

theorem bodyOf_of_error {i : Instr} {D : Descriptor} {s : State} {e : ErrCode} (h : planOf D s i = .error e) :
    bodyOf i D s = raiseErr e s :=
  match i, h with
  | .sizeDec _, h => runSizeCommand_error h
  | .sizeEnc _, h => runSizeCommand_error h
  | .decode _, h => runMemoryCommand_error h
  | .decodeAuto _, h => runMemoryCommand_error h
  | .encode _, h => runMemoryCommand_error h

/-- A command one of whose checks fails writes DESC_* and STATUS alone (R82). -/
theorem exec_of_error {i : Instr} {s : State} {D : Descriptor} {e : ErrCode} (hD : rom s.params i.fmt = some D)
    (h : planOf D s i = .error e) : exec i s = .next (endedWith s D e) := by
  rw [exec_known hD, bodyOf_of_error ((planOf_setDesc D s ..).trans h)]
  rfl

theorem busErrors_of_busErrorHits {s : State} (h : busErrorHits s = true) : s.params.busErrors = true :=
  (Bool.and_eq_true_iff.mp h).1

theorem accessesMemory_of_plan {i : Instr} {D : Descriptor} {s : State} {p : Plan} (h : memoryPlan D s i = some p) :
    accessesMemory i = true := by
  cases ha : accessesMemory i with
  | true => rfl
  | false => exact nomatch h.symm.trans (memoryPlan_of_no_access ha D s)

/-- Where no check fails, only a bus error keeps the command from success. -/
theorem bodyOf_err_of_passed {i : Instr} {D : Descriptor} {s : State} (h : ∀ e, planOf D s i ≠ .error e) :
    (bodyOf i D s).status.err = .ok ∨
      ((bodyOf i D s).status.err = .busError ∧ s.params.busErrors = true ∧ accessesMemory i = true) := by
  rcases bodyOf_cases i D s with ⟨e, he, -⟩ | ⟨-, w, r, b, hend⟩ | ⟨p, hp, hb, hend⟩ | ⟨p, -, -, hend⟩
  · exact absurd he (h e)
  · exact .inl (hend ▸ rfl)
  · exact .inr ⟨hend ▸ rfl, busErrors_of_busErrorHits hb, accessesMemory_of_plan hp⟩
  · exact .inl (hend ▸ rfl)

/-- A command that ends with a code other than OK and BusError has no registered format, or one of its checks fails (R86). -/
theorem exec_error_cases {i : Instr} {s t : State} (h : exec i s = .next t) (hok : t.status.err ≠ .ok)
    (hbus : t.status.err ≠ .busError) : rom s.params i.fmt = none ∨
      ∃ D e, rom s.params i.fmt = some D ∧ planOf D s i = .error e := by
  rcases exec_cases h with ⟨hn, -⟩ | ⟨D, hD, rfl⟩
  · exact .inl hn
  · by_contra! hno
    rcases bodyOf_err_of_passed (s := s.setDesc D.w0 D.w1 D.w2) (hno.2 D · hD) with he | ⟨he, -⟩
    · exact hok he
    · exact hbus he

/-! ## An error other than BusError repeats (R86) -/

theorem sameArguments_of_argumentRegisters {s s' : State} (h : ∀ r ∈ argumentRegisters, r.2 s' = r.2 s) (i : Instr) :
    SameArguments s s' i := by
  obtain ⟨hsb, hsl, hdb, hdl, hw, hh⟩ := forall_argumentRegisters.mp h
  cases i with
  | lookup f => trivial
  | sizeDec f => exact ⟨hsl, hw⟩
  | sizeEnc f => exact ⟨hw, hh⟩
  | decode f | encode f => exact ⟨hsb, hsl, hdb, hdl, hw, hh⟩
  | decodeAuto f => exact ⟨hsb, hsl, hdb, hdl, hw⟩

/-- The same error in both states: before the format is known STATUS alone is written, after it DESC_* too, from one ROM entry. -/
def SameErrorEnd (s t s' t' : State) : Prop :=
  (∃ e, t = raiseErr e s ∧ t' = raiseErr e s') ∨ ∃ D e, t = endedWith s D e ∧ t' = endedWith s' D e

theorem exec_error_repeats {i : Instr} {s s' t : State} (hrom : ∀ f, rom s'.params f = rom s.params f)
    (ha : SameArguments s s' i) (h : exec i s = .next t) (hok : t.status.err ≠ .ok) (hbus : t.status.err ≠ .busError) :
    ∃ t', exec i s' = .next t' ∧ SameErrorEnd s t s' t' := by
  rcases exec_error_cases h hok hbus with hn | ⟨D, e, hD, he⟩
  · obtain rfl := Host.Outcome.next.inj ((exec_unknown hn).symm.trans h)
    exact ⟨_, exec_unknown ((hrom _).trans hn), .inl ⟨_, rfl, rfl⟩⟩
  · obtain rfl := Host.Outcome.next.inj ((exec_of_error hD he).symm.trans h)
    exact ⟨_, exec_of_error ((hrom _).trans hD) ((planOf_congr ha).trans he), .inr ⟨D, e, rfl, rfl⟩⟩

theorem runCommand_of_decode {s : State} {i : Instr} (h : decodeWord s.cmd = .ok i) : runCommand s = exec i s := by
  rw [runCommand, h]

theorem runCommand_of_illegal {s : State} {e : IllegalWord} (h : decodeWord s.cmd = .error e) :
    runCommand s = .next (raiseErr .illegalCommand s) := by
  rw [runCommand, h]

theorem runCommand_error_repeats {s s' t : State} (hrom : ∀ f, rom s'.params f = rom s.params f) (hcmd : s'.cmd = s.cmd)
    (ha : ∀ r ∈ argumentRegisters, r.2 s' = r.2 s) (h : runCommand s = .next t) (hok : t.status.err ≠ .ok)
    (hbus : t.status.err ≠ .busError) : ∃ t', runCommand s' = .next t' ∧ SameErrorEnd s t s' t' := by
  rcases runCommand_cases h with ⟨e, he, rfl⟩ | ⟨i, hi, h⟩
  · exact ⟨_, runCommand_of_illegal (hcmd ▸ he), .inl ⟨_, rfl, rfl⟩⟩
  · rw [runCommand_of_decode (hcmd ▸ hi)]
    exact exec_error_repeats hrom (sameArguments_of_argumentRegisters ha i) h hok hbus

/-- After acceptance RES_* and DESC_* are 0, so both errors show the same registers, and neither has touched memory. -/
theorem SameErrorEnd.registers {s t s' t' : State} (h : SameErrorEnd s t s' t') (hs : s.Accepted) (hs' : s'.Accepted) :
    t'.status.err = t.status.err ∧ Results t 0 0 0 ∧ Results t' 0 0 0 ∧ SameDescriptor t t' ∧
      t.mem = s.mem ∧ t'.mem = s'.mem := by
  obtain ⟨hw, hh, hb⟩ := hs.results
  obtain ⟨hw', hh', hb'⟩ := hs'.results
  obtain ⟨h0, h1, h2⟩ := hs.desc
  obtain ⟨h0', h1', h2'⟩ := hs'.desc
  rcases h with ⟨e, rfl, rfl⟩ | ⟨D, e, rfl, rfl⟩
  · simp [Results, SameDescriptor, *]
  · simp [Results, SameDescriptor, endedWith, ended, *]

/-! ## What a command keeps (R82, R83) -/

/-- A body writes RES_* only where it succeeds. -/
theorem bodyOf_results_of_error {i : Instr} {D : Descriptor} {s : State} (h : (bodyOf i D s).status.err ≠ .ok) :
    SameResults s (bodyOf i D s) := by
  rcases bodyOf_cases i D s with ⟨e, -, hend⟩ | ⟨-, w, r, b, hend⟩ | ⟨p, -, -, hend⟩ | ⟨p, -, -, hend⟩ <;>
    rw [hend] at h ⊢
  · exact ⟨rfl, rfl, rfl⟩
  · exact absurd rfl h
  · exact ⟨rfl, rfl, rfl⟩
  · exact absurd rfl h

/-- A body without memory access leaves memory and the hidden state, and draws nothing. -/
theorem bodyOf_keeps_of_no_access {i : Instr} {D : Descriptor} {s : State} (ha : accessesMemory i = false) :
    (bodyOf i D s).mem = s.mem ∧ (bodyOf i D s).hidden = s.hidden ∧ (bodyOf i D s).draws = s.draws := by
  have hn := memoryPlan_of_no_access ha D s
  rcases bodyOf_cases i D s with ⟨e, -, hend⟩ | ⟨-, w, r, b, hend⟩ | ⟨p, hp, -⟩ | ⟨p, hp, -⟩
  · rw [hend]; exact ⟨rfl, rfl, rfl⟩
  · rw [hend]; exact ⟨rfl, rfl, rfl⟩
  · exact nomatch hn.symm.trans hp
  · exact nomatch hn.symm.trans hp

/-! ## Nothing stops the machine (R87, R88) -/

theorem runCommand_next (s : State) : ∃ t, runCommand s = .next t := by
  cases h : decodeWord s.cmd with
  | error e => exact ⟨_, runCommand_of_illegal h⟩
  | ok i => exact ⟨_, (runCommand_of_decode h).trans (exec_eq i s)⟩

end Sys2Proof.Machine

namespace Sys2Proof.Proofs
open Sys2Proof.Machine Sys2Proof.Claims

/-- Settles O34: the checks of a command raise the first failing code of the list; where they raise none, the command succeeds or
meets a bus error. -/
theorem errorsComeInOrder : Obligations.ErrorsComeInOrder := by
  refine ⟨fun s h => runCommand_illegal h, fun i s h => exec_unknown h, fun i s D hD => ⟨fun e he => ?_, fun hpass => ?_⟩⟩ <;>
    have hcode := codeOf_planOf (rom_fits hD) s i
  · exact exec_of_error hD (codeOf_eq_some.mp (hcode.trans he))
  · refine ⟨_, exec_known hD, bodyOf_err_of_passed (s := s.setDesc D.w0 D.w1 D.w2) fun e he => ?_⟩
    rw [planOf_setDesc] at he
    exact nomatch (codeOf_eq_some.mpr he).symm.trans (hcode.trans hpass)

/-- Settles O36: the checks that lead to the error read CMD, the argument registers and the ROM alone. -/
theorem errorsAreRepeatable : Obligations.ErrorsAreRepeatable := by
  intro s s' t hs hs' hrom hcmd ha ht hok hbus
  obtain ⟨t', ht', hend⟩ := runCommand_error_repeats hrom hcmd ha ht hok hbus
  exact ⟨t', ht', hend.registers hs hs'⟩

/-- Settles O37: the two ends of a command with a plan, both confined to its destination used extent. -/
theorem busErrorSpoilsOnlyTheDestination : Obligations.BusErrorSpoilsOnlyTheDestination := by
  intro i s D p hD hp hm
  have hfits := rom_fits hD
  have hg := (memoryPlan_sound hfits hp).geometry
  refine ⟨_, exec_known hD, ?_, fun ho a ha => bodyOf_mem_outside (s := s.setDesc D.w0 D.w1 D.w2) hfits hm hp ho ha, ?_⟩ <;>
    rcases bodyOf_of_plan (s := s.setDesc D.w0 D.w1 D.w2) hp with ⟨hb, hend⟩ | ⟨-, hend⟩ <;> rw [hend]
  · exact ⟨rfl, rfl, rfl⟩
  · exact ⟨rfl, rfl, rfl⟩
  · exact .inr ⟨rfl, busErrors_of_busErrorHits hb, rfl, rfl, rfl⟩
  · exact .inl ⟨rfl, wordOf_toNat hg.width_lt, wordOf_toNat hg.height_lt, wordOf_toNat (hg.need_lt hfits)⟩

/-- Settles O38: each way a command can end writes STATUS, and RES_* only with success. -/
theorem everyCommandEndsAndKeepsItsOperands : Obligations.EveryCommandEndsAndKeepsItsOperands := by
  intro i s
  refine ⟨_, exec_eq i s, ?_⟩
  obtain ⟨hbusy, hdone, hkept⟩ := exec_endOf (exec_eq i s)
  refine ⟨hbusy, hdone, hkept, ?_⟩
  rcases exec_cases (exec_eq i s) with ⟨-, h⟩ | ⟨D, -, h⟩ <;> rw [h]
  · exact ⟨fun _ => ⟨rfl, rfl, rfl⟩, fun _ => ⟨rfl, rfl, rfl⟩⟩
  · exact ⟨bodyOf_results_of_error (s := s.setDesc D.w0 D.w1 D.w2),
      bodyOf_keeps_of_no_access (s := s.setDesc D.w0 D.w1 D.w2)⟩

/-- Settles O8: a step is the engine's or the host's, and neither stops. -/
theorem nothingStopsTheMachine : Obligations.NothingStopsTheMachine := by
  refine ⟨fun s => ?_, fun i s => ⟨_, exec_eq i s⟩⟩
  by_cases h : engineTurn s = true
  · rw [step_engine h]
    exact runCommand_next s
  · exact ⟨hostTurn s, if_neg h⟩

/-- Settles O22. -/
theorem errorCodes : Obligations.ErrorCodes := rfl

end Sys2Proof.Proofs
end

section
/-! Proofs for 70_reset_and_hazards.md, part 1: whose turn a step is, and how a running command ends (O6, O7, O11). -/

namespace Sys2Proof.Machine
open Sys2Proof.Claims

/-! ## Whose turn it is (R102) -/

theorem engineTurn_iff {s : State} : engineTurn s = true ↔ s.status.busy = true ∧ (s.wait = 0 ∨ s.pending = []) := by
  simp [engineTurn]

theorem engineTurn_of_idle {s : State} (h : s.status.busy = false) : engineTurn s = false := by
  rw [engineTurn, h]; rfl

/-- Where a command runs and it is not the engine's turn, the host has an action left and latency remains. -/
theorem host_next_of_busy {s : State} (hb : s.status.busy = true) (h : engineTurn s = false) :
    ∃ a rest, s.pending = a :: rest ∧ s.wait ≠ 0 := by
  have hn : ¬ (s.wait = 0 ∨ s.pending = []) := fun hor => nomatch h.symm.trans (engineTurn_iff.mpr ⟨hb, hor⟩)
  obtain ⟨hw, hp⟩ := not_or.mp hn
  obtain ⟨a, rest, hp⟩ := List.exists_cons_of_ne_nil hp
  exact ⟨a, rest, hp, hw⟩

/-- A command word accepted by `withFetchWord` is the one in CMD, and the engine is next. -/
theorem withFetchWord_encode {s : State} {i : Instr} (hwf : WellFormed i) :
    decodeWord (s.withFetchWord 32 (encode i).toNat).cmd = .ok i ∧ engineTurn (s.withFetchWord 32 (encode i).toNat) = true := by
  have hcmd : (s.withFetchWord 32 (encode i).toNat).cmd = encode i := by
    show wordOf ((encode i).toNat % 2 ^ 32) = encode i
    rw [Nat.mod_eq_of_lt (encode i).isLt, wordOf, BitVec.ofNat_toNat, BitVec.setWidth_eq]
  exact ⟨decodeWord_eq_ok_iff_encode.mpr ⟨hwf, hcmd.symm⟩, engineTurn_iff.mpr ⟨rfl, .inl rfl⟩⟩

/-! ## A running command ends (R103) -/

/-- A bus write while BUSY sets or clears OVR at most (R19, R20). -/
theorem busWrite_running {s : State} (hb : s.status.busy = true) (addr : Nat) (width : AccessWidth) (v : Word) :
    ∃ o, busWrite addr width v s = s.setStatus { s.status with ovr := o } := by
  rcases busWrite_cases addr width v s with h | ⟨r, -, h⟩ <;> rw [h]
  · exact ⟨s.status.ovr, rfl⟩
  · rcases hostWriteReg_cases r v s with h | ⟨-, h⟩ | ⟨-, h⟩ | ⟨hn, -⟩ | ⟨hn, -⟩
    · exact ⟨s.status.ovr, h⟩
    · exact ⟨_, h⟩
    · exact ⟨_, h⟩
    · exact nomatch hb.symm.trans hn
    · exact nomatch hb.symm.trans hn

/-- While a command runs, a host action is a reset, or the command runs on with as much latency and as many actions to come. -/
theorem hostAct_running {s : State} (hb : s.status.busy = true) (a : HostAction) : a = .reset ∨
    ((hostAct a s).status.busy = true ∧ (hostAct a s).pending = s.pending ∧ (hostAct a s).wait = s.wait) := by
  rcases hostAct_cases a s with ⟨m, tc, d, n, h⟩ | ⟨addr, width, v, -, h⟩ | ⟨st, addr, width, v, -, h⟩ | ⟨ha, -⟩
  · rw [h]; exact .inr ⟨hb, rfl, rfl⟩
  · obtain ⟨o, ho⟩ := busWrite_running hb addr width v
    rw [h, ho]; exact .inr ⟨hb, rfl, rfl⟩
  · obtain ⟨o, ho⟩ := busWrite_running (s := s.setStatus (s.status.hostWrite st)) hb addr width v
    rw [h, ho]; exact .inr ⟨hb, rfl, rfl⟩
  · exact .inl ha

@[simp] theorem writeRange_pending (s : State) : (writeRange s).pending = s.pending := by rw [writeRange_eq]; rfl
@[simp] theorem writeRange_wait (s : State) : (writeRange s).wait = s.wait := by rw [writeRange_eq]; rfl

theorem run_succ_of_step {M : Host.Core} {s u : M.State} (h : M.step s = .next u) (k : Nat) :
    M.run (k + 1) s = M.run k u := by
  rw [Host.Core.run, h]

/-- Within `n` steps the machine is no longer BUSY. -/
def EndsWithin (n : Nat) (s : State) : Prop :=
  ∃ (k : Nat) (t : State), k ≤ n ∧ Sys2Proof.core.run k s = .next t ∧ t.status.busy = false

theorem EndsWithin.of_idle {n : Nat} {s : State} (h : s.status.busy = false) : EndsWithin n s :=
  ⟨0, s, Nat.zero_le n, rfl, h⟩

theorem EndsWithin.of_step {n : Nat} {s u : State} (h : step s = .next u) (hu : EndsWithin n u) : EndsWithin (n + 1) s := by
  obtain ⟨k, t, hk, hrun, ht⟩ := hu
  exact ⟨k + 1, t, Nat.succ_le_succ hk, (run_succ_of_step (M := Sys2Proof.core) h k).trans hrun, ht⟩

theorem EndsWithin.of_engineTurn {n : Nat} {s : State} (h : engineTurn s = true) : EndsWithin (n + 1) s := by
  obtain ⟨t, ht⟩ := runCommand_next s
  obtain ⟨hidle, -⟩ := runCommand_endOf ht
  exact .of_step ((step_engine h).trans ht) (.of_idle hidle)

/-- By induction on the host's actions: each is a reset, or takes one off both counts. -/
theorem endsWithin_of_busy {s : State} (hb : s.status.busy = true) :
    EndsWithin (min s.wait s.pending.length + 1) s := by
  induction hl : s.pending generalizing s with
  | nil => exact .of_engineTurn (engineTurn_iff.mpr ⟨hb, .inr hl⟩)
  | cons a rest ih =>
    cases hturn : engineTurn s with
    | true => exact .of_engineTurn hturn
    | false =>
      obtain ⟨-, -, -, hw⟩ := host_next_of_busy hb hturn
      have hstep := step_host hturn hl
      rcases hostAct_running ((writeRange_busy { s with pending := rest, wait := s.wait - 1 }).trans hb) a with rfl | ⟨hrun, hp, hwait⟩
      · exact .of_step hstep (.of_idle rfl)
      · have hend := ih hrun (hp.trans (writeRange_pending _))
        rw [hwait, writeRange_wait] at hend
        refine .of_step hstep ?_
        rwa [show min s.wait (a :: rest).length = min (s.wait - 1) rest.length + 1 by rw [List.length_cons]; omega]

end Sys2Proof.Machine

namespace Sys2Proof.Proofs
open Sys2Proof.Machine Sys2Proof.Claims

/-- Settles O11: both counts go down with each action of the host, and where one is used up the engine takes its step. -/
theorem acceptedCommandEnds : Obligations.AcceptedCommandEnds := by
  intro s hb
  obtain ⟨k, t, hk, hrun, ht⟩ := endsWithin_of_busy hb
  exact ⟨k, t, by omega, by omega, hrun, ht⟩

/-- Settles O6: it is the engine's turn, and the engine performs what CMD decodes to. -/
theorem stepRunsTheDecodedCommand : Obligations.StepRunsTheDecodedCommand := by
  refine ⟨fun s i hb hturn hi => ?_, fun s i hwf => ?_⟩
  · exact (step_engine (engineTurn_iff.mpr ⟨hb, hturn⟩)).trans (runCommand_of_decode hi)
  · obtain ⟨hi, hturn⟩ := withFetchWord_encode (s := s) hwf
    exact (step_engine hturn).trans (runCommand_of_decode hi)

/-- Settles O7: it is not the engine's turn, so the host's next action, if there is one, makes the step. -/
theorem hostActsInEveryOtherStep : Obligations.HostActsInEveryOtherStep := by
  refine ⟨fun s a rest hp h => step_host ?_ hp, fun s hp hb => ?_⟩
  · refine Bool.eq_false_iff.mpr fun hturn => ?_
    obtain ⟨hb, hw⟩ := engineTurn_iff.mp hturn
    rcases h with h | h
    · exact nomatch h.symm.trans hb
    · exact hw.elim h fun hn => nomatch hn.symm.trans hp
  · rw [step, engineTurn_of_idle hb, hostTurn, hp]; rfl

end Sys2Proof.Proofs
end

section
/-! Proofs for 70_reset_and_hazards.md, part 2: the state at reset, and a reset at any time (O10, O25, O26). -/

namespace Sys2Proof.Machine
open Sys2Proof.Claims

/-! ## Memory after a reset (R95, R97) -/

/-- Where no command runs, or one without used extents, a reset leaves memory alone. -/
theorem resetEngine_mem_kept {s : State} (h : s.status.busy = false ∨ runningPlan s = none) :
    (resetEngine s).mem = s.mem := by
  unfold resetEngine
  rcases h with h | h <;> simp [h]

/-- A reset during a command spoils its destination used extent. -/
theorem resetEngine_mem_running {s : State} {p : Plan} (hb : s.status.busy = true) (hp : runningPlan s = some p) :
    (resetEngine s).mem = deviceEffects p s (Memory.spoil s.draws s.dstBase.toNat p.dstUsed s.mem) := by
  simp [resetEngine, hb, hp]

/-! ## The registers after a reset (R95) -/

theorem atReset_reset : AtReset State.reset := by unfold AtReset; decide

/-- A reset gives every register its value of `State.reset`. -/
theorem atReset_resetEngine (s : State) : AtReset (resetEngine s) := atReset_reset

/-- While a command runs and it is not the engine's turn, only a reset ends it. -/
theorem reset_of_stopped {s t : State} (hb : s.status.busy = true) (hturn : engineTurn s = false) (h : step s = .next t)
    (ht : t.status.busy = false) : ∃ rest, s.pending = .reset :: rest := by
  obtain ⟨a, rest, hp, -⟩ := host_next_of_busy hb hturn
  obtain rfl := Host.Outcome.next.inj ((step_host hturn hp).symm.trans h)
  rcases hostAct_running ((writeRange_busy { s with pending := rest, wait := s.wait - 1 }).trans hb) a with rfl | ⟨hrun, -⟩
  · exact ⟨rest, hp⟩
  · exact nomatch ht.symm.trans hrun

end Sys2Proof.Machine

namespace Sys2Proof.Proofs
open Sys2Proof.Machine Sys2Proof.Claims

/-- Settles O26: a reset writes memory by `Memory.spoil` alone, and no other host action stops a command. -/
theorem resetAbortsTheCommand : Obligations.ResetAbortsTheCommand := by
  refine ⟨fun s p hb hp => ⟨atReset_resetEngine s, engineTurn_of_idle rfl, fun ho => ?_⟩,
    fun s _ hp => ⟨atReset_resetEngine s, engineTurn_of_idle rfl, resetEngine_mem_kept (.inr hp)⟩,
    fun s t hb hturn h ht => reset_of_stopped hb hturn h ht⟩
  rw [hostAct, resetEngine_mem_running hb hp, deviceEffects_ordinary ho]
  exact ⟨fun a ha => Memory.read_spoil_outside ha, fun hm a ha => Memory.read_spoil_inside hm ha⟩

/-- Settles O10: the engine is idle with every register 0, and memory is empty. -/
theorem resetMeetsTheInvariant : Obligations.ResetMeetsTheInvariant where
  status := by simp [Status.Legal, State.reset]
  range := fun hb => nomatch hb
  results := fun _ => ⟨rfl, rfl, rfl⟩
  desc := by simp [State.DescLegal, State.reset]
  mem := ⟨⟨.nil, fun _ hc => nomatch hc⟩, fun _ hc => nomatch hc⟩
  touched := fun hb => nomatch hb

/-- Settles O25. -/
theorem resetValues : Obligations.ResetValues :=
  ⟨atReset_reset, atReset_resetEngine, fun _ hb => resetEngine_mem_kept (.inl hb)⟩

end Sys2Proof.Proofs
end

section
/-! Proofs for 70_reset_and_hazards.md, part 3: a host that keeps R100 does not disturb the running command (O53). -/

namespace Sys2Proof.Machine
open Sys2Proof.Claims

/-! ## What a quiet host changes -/

/-- `s` with what a host that keeps R100, and the walk meanwhile, may change: memory, RANGE, OVR, what the host last read, the draws. -/
def State.quietly (s : State) (m : Memory) (r o : Bool) (d : Word) (n : Nat) : State :=
  { s with mem := m, status := { s.status with range := r, ovr := o }, hostData := d, draws := n }

/-- The source used extent of `p` reads in `m` as in `s`. -/
def SameSource (p : Plan) (s : State) (m : Memory) : Prop := ∀ a, p.inSrc s a → Memory.read m a = Memory.read s.mem a

theorem runningPlan_quietly (s : State) (m : Memory) (r o : Bool) (d : Word) (n : Nat) :
    runningPlan (s.quietly m r o d n) = runningPlan s :=
  runningPlan_congr rfl rfl rfl rfl rfl rfl rfl rfl

theorem memoryPlan_quietly (D : Descriptor) (s : State) (m : Memory) (r o : Bool) (d : Word) (n : Nat) (i : Instr) :
    memoryPlan D (s.quietly m r o d n) i = memoryPlan D s i := by
  cases i <;> rfl

theorem sameArguments_quietly (s : State) (m : Memory) (r o : Bool) (d : Word) (n : Nat) (i : Instr) :
    SameArguments s (s.quietly m r o d n) i :=
  sameArguments_of_argumentRegisters (forall_argumentRegisters.mpr ⟨rfl, rfl, rfl, rfl, rfl, rfl⟩) i

/-- An action that keeps R100 while a command runs leaves RANGE and the source of the command, and records nothing. -/
theorem hostAct_quiet {s : State} {a : HostAction} (hb : s.status.busy = true) (hq : a.quiet s) (hm : s.mem.wf) :
    ∃ m o d n, hostAct a s = s.quietly m s.status.range o d n ∧ m.wf ∧ ∀ p, runningPlan s = some p → SameSource p s m := by
  have same : ∀ p, runningPlan s = some p → SameSource p s s.mem := fun _ _ _ _ => rfl
  cases a with
  | idle => exact ⟨s.mem, s.status.ovr, s.hostData, s.draws, rfl, hm, same⟩
  | busRead addr width =>
    obtain ⟨d, n, h⟩ := busRead_eq addr width s
    exact ⟨s.mem, s.status.ovr, d, n, h, hm, same⟩
  | busWrite addr width v =>
    obtain ⟨o, h⟩ := busWrite_running hb addr width v
    exact ⟨s.mem, o, s.hostData, s.draws, h, hm, same⟩
  | statusAndWrite st addr width v =>
    obtain ⟨o, h⟩ := busWrite_running (s := s.setStatus (s.status.hostWrite st)) hb addr width v
    exact ⟨s.mem, o, s.hostData, s.draws, h, hm, same⟩
  | memRead a =>
    rw [hostAct_memRead_ordinary hq]
    exact ⟨s.mem, s.status.ovr, _, _, rfl, hm, same⟩
  | memWrite a v =>
    obtain ⟨ho, hout⟩ := hq
    have htouched : (hostStore a v s).touched = s.touched := by
      cases hp : runningPlan s with
      | none => exact hostStore_touched_idle (.inr hp)
      | some p =>
        obtain ⟨hsrc, hdst⟩ := hout p hp
        rw [hostStore_touched hb hp]
        simp [touch, hsrc, hdst]
    rw [hostAct_memWrite_ordinary ho, hostStore_eq, htouched]
    refine ⟨_, s.status.ovr, s.hostData, s.draws, rfl, Memory.write_wf _ _ hm, fun p hp b hin => ?_⟩
    exact Memory.read_write_ne fun h => (hout p hp).1 (h ▸ hin)
  | reset => exact hq.elim

/-- What the walk of an undisturbed command has written to RANGE by now: nothing, or a 1 that a pixel out of range is the cause of. -/
def RangeShown (s : State) (r : Bool) : Prop :=
  r = s.status.range ∨ (r = true ∧ EncodeRuns s fun D _ => OutOfRangePixel D (s.width.toNat * s.height.toNat) s)

theorem EncodeRuns.mono {s : State} {P Q : Descriptor → Plan → Prop} (h : EncodeRuns s P)
    (hPQ : ∀ D p, runningPlan s = some p → P D p → Q D p) : EncodeRuns s Q := by
  obtain ⟨f, D, p, hi, hD, hp, hP⟩ := h
  exact ⟨f, D, p, hi, hD, hp, hPQ D p ((runningPlan_eq hi hD).trans hp) hP⟩

theorem writeRange_shown {s : State} (hm : s.mem.wf) (htouched : s.touched = Touched.nothing)
    (hord : ∀ p, runningPlan s = some p → p.ordinary s = true) : RangeShown s (writeRange s).status.range := by
  cases h0 : s.status.range with
  | true => exact .inl ((writeRange_range_stays h0).trans h0.symm)
  | false =>
    rcases writeRange_cause hm h0 with h | ⟨h, -, hcause⟩ <;> rw [h]
    · exact .inl rfl
    · refine .inr ⟨rfl, hcause.mono fun D p hp hc => ?_⟩
      rcases hc with hs | ho | hpix
      · rw [htouched] at hs; exact nomatch hs
      · exact nomatch ho.symm.trans (hord p hp)
      · exact hpix

/-- Memory `m` and RANGE `r`, left by a quiet host and the walk, are as good as those of `s` for the command that runs. -/
structure QuietlyChanged (s : State) (m : Memory) (r : Bool) : Prop where
  wf     : m.wf
  source : ∀ p, runningPlan s = some p → SameSource p s m
  range  : RangeShown s r

/-- What a quiet host's step before the engine's leaves. -/
theorem hostAct_writeRange_quiet {s : State} {a : HostAction} (hb : s.status.busy = true) (hq : a.quiet s) (hm : s.mem.wf)
    (htouched : s.touched = Touched.nothing) (hord : ∀ p, runningPlan s = some p → p.ordinary s = true) :
    ∃ m r o d n, hostAct a (writeRange s) = s.quietly m r o d n ∧ QuietlyChanged s m r := by
  have hr := writeRange_shown hm htouched hord
  obtain ⟨r, h⟩ : ∃ r, writeRange s = s.quietly s.mem r s.status.ovr s.hostData s.draws := ⟨_, writeRange_eq s⟩
  rw [h] at hr ⊢
  have hq' : a.quiet (s.quietly s.mem r s.status.ovr s.hostData s.draws) := by
    cases a with
    | memWrite a v => exact ⟨hq.1, fun p hp => hq.2 p ((runningPlan_quietly ..).symm.trans hp)⟩
    | idle | busRead | busWrite | statusAndWrite | memRead | reset => exact hq
  obtain ⟨m, o, d, n, hact, hmwf, hsrc⟩ := hostAct_quiet (s := s.quietly s.mem r s.status.ovr s.hostData s.draws) hb hq' hm
  exact ⟨m, r, o, d, n, hact, ⟨hmwf, fun p hp => hsrc p ((runningPlan_quietly ..).trans hp), hr⟩⟩

/-! ## The code and the registers -/

/-- The checks read CMD, the argument registers and the parameters alone. -/
theorem runCommand_sameOutcome {s t t' : State} {m : Memory} {r o : Bool} {d : Word} {n : Nat} (hbus : s.params.busErrors = false)
    (ht : runCommand s = .next t) (ht' : runCommand (s.quietly m r o d n) = .next t') : SameOutcome t t' := by
  have hres : SameResults s (s.quietly m r o d n) := ⟨rfl, rfl, rfl⟩
  rcases runCommand_cases ht with ⟨e, he, rfl⟩ | ⟨i, hi, ht⟩
  · obtain rfl := Host.Outcome.next.inj ((runCommand_of_illegal (s := s.quietly m r o d n) he).symm.trans ht')
    exact ⟨rfl, hres, rfl, rfl, rfl⟩
  · rw [runCommand_of_decode (s := s.quietly m r o d n) hi] at ht'
    rcases exec_cases ht with ⟨hn, rfl⟩ | ⟨D, hD, rfl⟩
    · obtain rfl := Host.Outcome.next.inj ((exec_unknown (s := s.quietly m r o d n) hn).symm.trans ht')
      exact ⟨rfl, hres, rfl, rfl, rfl⟩
    · obtain rfl := Host.Outcome.next.inj ((exec_known (s := s.quietly m r o d n) hD).symm.trans ht')
      exact bodyOf_sameOutcome D (s := s.setDesc D.w0 D.w1 D.w2) (s' := (s.quietly m r o d n).setDesc D.w0 D.w1 D.w2)
        ⟨rfl, hres, rfl, rfl, rfl⟩ (sameArguments_quietly s m r o d n i) (busErrorHits_of_not hbus) (busErrorHits_of_not hbus)

/-! ## RANGE and the destination used extent -/

/-- A command without used extents leaves RANGE alone. -/
theorem runCommand_range_of_no_plan {s t : State} (hn : runningPlan s = none) (ht : runCommand s = .next t) :
    t.status.range = s.status.range := by
  rcases runCommand_cases ht with ⟨e, -, rfl⟩ | ⟨i, hi, ht⟩
  · rfl
  · rcases exec_cases ht with ⟨-, rfl⟩ | ⟨D, hD, rfl⟩
    · rfl
    · have hp : memoryPlan D (s.setDesc D.w0 D.w1 D.w2) i = none := (runningPlan_eq hi hD).symm.trans hn
      rcases bodyOf_cases i D (s.setDesc D.w0 D.w1 D.w2) with ⟨e, -, h⟩ | ⟨-, w, h, b, h⟩ | ⟨p, hp', -⟩ | ⟨p, hp', -⟩
      · rw [h]; rfl
      · rw [h]; rfl
      · exact nomatch hp.symm.trans hp'
      · exact nomatch hp.symm.trans hp'

theorem RangeShown.of_no_plan {s : State} {r : Bool} (h : RangeShown s r) (hn : runningPlan s = none) :
    r = s.status.range := by
  rcases h with h | ⟨-, f, D, p, hi, hD, hp, -⟩
  · exact h
  · exact nomatch hn.symm.trans ((runningPlan_eq hi hD).trans hp)

theorem RangeShown.of_not_encode {s : State} {r : Bool} {i : Instr} (h : RangeShown s r) (hi : decodeWord s.cmd = .ok i)
    (henc : isEncode i = false) : r = s.status.range := by
  rcases h with h | ⟨-, f, D, p, hi', -⟩
  · exact h
  · obtain rfl := Except.ok.inj (hi.symm.trans hi')
    exact nomatch henc

theorem RangeShown.of_encode {s : State} {r : Bool} {f : Nat} {D : Descriptor} (h : RangeShown s r)
    (hi : decodeWord s.cmd = .ok (.encode f)) (hD : rom s.params f = some D) :
    (r = true ∨ OutOfRangePixel D (s.width.toNat * s.height.toNat) s) ↔
      (s.status.range = true ∨ OutOfRangePixel D (s.width.toNat * s.height.toNat) s) := by
  rcases h with rfl | ⟨-, f', D', p, hi', hD', -, hpix⟩
  · rfl
  · obtain rfl := Instr.encode.inj (Except.ok.inj (hi.symm.trans hi'))
    obtain rfl := Option.some.inj (hD.symm.trans hD')
    exact iff_of_true (.inr hpix) (.inr hpix)

/-- A bitmap's bytes follow from its stream. -/
theorem bitmapDecoded_unique {D : Descriptor} {W H : Nat} {s s' t t' : State} (hs : (bitmapPlan D W H).Sound D s) (hD : D.Fits)
    (h : BitmapDecoded D W H s t) (h' : BitmapDecoded D W H s' t') (hsrc : SameSource (bitmapPlan D W H) s s'.mem)
    (hsb : s'.srcBase = s.srcBase) (hdb : s'.dstBase = s.dstBase) {b : Nat} (hb : (bitmapPlan D W H).inDst s b) :
    Memory.read t'.mem b = Memory.read t.mem b := by
  obtain ⟨hlo, hhi⟩ := hb
  obtain ⟨o, rfl⟩ := Nat.exists_eq_add_of_le hlo
  have ho : o < W * H := Nat.lt_of_add_lt_add_left hhi
  have hW : 0 < W := hs.geometry.width_pos
  have hW8 : W % 8 = 0 := hs.geometry.width_mod
  have hH8 : H % 8 = 0 := hs.geometry.height_mod
  have hx : o % W < W := Nat.mod_lt o hW
  have hy : o / W < H := Nat.div_lt_of_lt_mul ho
  refine BitVec.eq_of_getLsbD_eq fun p hp => ?_
  have hbit := h (o % W) (o / W) p hx hy hp
  have hbit' := h' (o % W) (o / W) p hx hy hp
  rw [Nat.div_add_mod'] at hbit hbit'
  rw [hsb, hdb] at hbit'
  rw [hbit, hbit']
  by_cases hpb : p < D.bpp
  · have hoff := planeOff_lt_need hD (ty := o / W / 8) (tx := o % W / 8) (r := o / W % 8) hW8 hH8
      (by omega) (by omega) (by omega) hpb
    unfold tileNumber at hoff
    rw [hsrc _ ⟨Nat.le_add_right _ _, Nat.add_lt_add_left hoff _⟩]
  · simp [hpb]

/-- A stream's bytes follow from its bitmap. -/
theorem streamEncoded_unique {D : Descriptor} {W H : Nat} {s s' t t' : State} (hs : (streamPlan D W H).Sound D s) (hD : D.Fits)
    (h : StreamEncoded D W H s t) (h' : StreamEncoded D W H s' t') (hsrc : SameSource (streamPlan D W H) s s'.mem)
    (hsb : s'.srcBase = s.srcBase) (hdb : s'.dstBase = s.dstBase) {b : Nat} (hb : (streamPlan D W H).inDst s b) :
    Memory.read t'.mem b = Memory.read t.mem b := by
  obtain ⟨hlo, hhi⟩ := hb
  obtain ⟨o, rfl⟩ := Nat.exists_eq_add_of_le hlo
  have hW8 : W % 8 = 0 := hs.geometry.width_mod
  have hH8 : H % 8 = 0 := hs.geometry.height_mod
  obtain ⟨ty, tx, r, p, hty, htx, hr, hp, rfl⟩ := planeOff_covers hD hW8 hH8 (Nat.lt_of_add_lt_add_left hhi)
  refine BitVec.eq_of_getLsbD_eq fun j hj => ?_
  have hbit := h ty tx r p (7 - j) hty htx hr hp (by omega)
  have hbit' := h' ty tx r p (7 - j) hty htx hr hp (by omega)
  have hpix : (8 * ty + r) * W + (8 * tx + (7 - j)) < W * H := rowMajor_lt (by omega) (by omega)
  rw [show 7 - (7 - j) = j by omega] at hbit hbit'
  rw [hsb, hdb, hsrc _ ⟨Nat.le_add_right _ _, Nat.add_lt_add_left hpix _⟩] at hbit'
  exact hbit'.trans hbit.symm

theorem outOfRangePixel_congr {D : Descriptor} {W H : Nat} {s s' : State}
    (hsrc : SameSource (streamPlan D W H) s s'.mem) (hsb : s'.srcBase = s.srcBase) :
    OutOfRangePixel D (W * H) s' ↔ OutOfRangePixel D (W * H) s :=
  exists_congr fun o => and_congr_right fun ho => by
    rw [hsb, hsrc _ ⟨Nat.le_add_right _ _, Nat.add_lt_add_left ho _⟩]

/-- The plan of a decode is that of a bitmap. -/
theorem exists_eq_bitmapPlan {i : Instr} {D : Descriptor} {s : State} {p : Plan} (hD : D.Fits) (henc : isEncode i = false)
    (h : memoryPlan D s i = some p) : ∃ W H, p = bitmapPlan D W H :=
  match i, henc, h with
  | .decode _, _, h => ⟨_, _, ((decodePlan_ok_iff_ready hD).mp (toOption_eq_some.mp h)).2⟩
  | .decodeAuto _, _, h => ⟨_, _, ((decodeAutoPlan_ok_iff_ready hD).mp (toOption_eq_some.mp h)).2⟩

theorem undisturbed_quietly {i : Instr} {s : State} {m : Memory} {r o : Bool} {d : Word} {n : Nat} (hu : Undisturbed i s)
    (hm : m.wf) : Undisturbed i (s.quietly m r o d n) := by
  obtain ⟨-, htouched, hram⟩ := hu
  exact ⟨hm, htouched, fun D p hD hp => hram D p hD ((memoryPlan_quietly ..).symm.trans hp)⟩

/-- RANGE and the bytes of the destination used extent of `p` are in `t'` as in `t`. -/
def SameProduct (p : Plan) (s t t' : State) : Prop :=
  t'.status.range = t.status.range ∧ ∀ b, p.inDst s b → Memory.read t'.mem b = Memory.read t.mem b

variable {s t t' : State} {m : Memory} {r o : Bool} {d : Word} {n : Nat} {D : Descriptor} {p : Plan}

/-- Both runs end with the bitmap that one and the same stream encodes, and leave RANGE as it was. -/
theorem exec_decode_quietly {i : Instr} (henc : isEncode i = false) (hi : decodeWord s.cmd = .ok i)
    (hD : rom s.params i.fmt = some D) (hp : memoryPlan D s i = some p) (hu : Undisturbed i s)
    (hbus : s.params.busErrors = false) (hc : QuietlyChanged s m r) (ht : exec i s = .next t)
    (ht' : exec i (s.quietly m r o d n) = .next t') : SameProduct p s t t' := by
  have hacc := accessesMemory_of_plan hp
  have hs := memoryPlan_sound (rom_fits hD) hp
  have hsrc := hc.source p ((runningPlan_eq hi hD).trans hp)
  obtain ⟨W, H, rfl⟩ := exists_eq_bitmapPlan (rom_fits hD) henc hp
  obtain ⟨hstatus, -, -, -, hbitmap, -⟩ := decodeDone_of_no_busError hacc henc hD hu hp (busErrorHits_of_not hbus) ht
  obtain ⟨hstatus', -, -, -, hbitmap', -⟩ := decodeDone_of_no_busError (s := s.quietly m r o d n) hacc henc hD
    (undisturbed_quietly hu hc.wf) ((memoryPlan_quietly ..).trans hp) (busErrorHits_of_not hbus) ht'
  refine ⟨?_, fun b hb => bitmapDecoded_unique hs (rom_fits hD) hbitmap hbitmap' hsrc rfl rfl hb⟩
  rw [hstatus, hstatus']
  exact hc.range.of_not_encode hi henc

/-- Both runs end with the stream of one and the same bitmap; a RANGE that the walk has set already, it would set again. -/
theorem exec_encode_quietly {f : Nat} (hi : decodeWord s.cmd = .ok (.encode f)) (hD : rom s.params f = some D)
    (hp : memoryPlan D s (.encode f) = some p) (hu : Undisturbed (.encode f) s) (hbus : s.params.busErrors = false)
    (hc : QuietlyChanged s m r) (ht : exec (.encode f) s = .next t)
    (ht' : exec (.encode f) (s.quietly m r o d n) = .next t') : SameProduct p s t t' := by
  have hs := memoryPlan_sound (rom_fits hD) hp
  have hsrc := hc.source p ((runningPlan_eq hi hD).trans hp)
  obtain ⟨-, rfl⟩ := (memoryPlan_encode_iff (rom_fits hD)).mp hp
  obtain ⟨-, hrange, -, -, -, hstream, -⟩ := encodeDone_of_no_busError hD hu hp (busErrorHits_of_not hbus) ht
  obtain ⟨-, hrange', -, -, -, hstream', -⟩ := encodeDone_of_no_busError (s := s.quietly m r o d n) hD
    (undisturbed_quietly hu hc.wf) ((memoryPlan_quietly ..).trans hp) (busErrorHits_of_not hbus) ht'
  refine ⟨Bool.eq_iff_iff.mpr ?_, fun b hb => streamEncoded_unique hs (rom_fits hD) hstream hstream' hsrc rfl rfl hb⟩
  rw [hrange, hrange', outOfRangePixel_congr (s := s) (s' := s.quietly m r o d n) hsrc rfl]
  exact hc.range.of_encode hi hD

/-- The command that runs leaves the same RANGE and the same destination after a quiet host's step as without it. -/
theorem runCommand_quietly (hp : runningPlan s = some p) (hm : s.mem.wf) (htouched : s.touched = Touched.nothing)
    (hord : p.ordinary s = true) (hbus : s.params.busErrors = false) (hc : QuietlyChanged s m r)
    (ht : runCommand s = .next t) (ht' : runCommand (s.quietly m r o d n) = .next t') : SameProduct p s t t' := by
  obtain ⟨i, D, hi, hD, hp⟩ := runningPlan_eq_some.mp hp
  rw [runCommand_of_decode hi] at ht
  rw [runCommand_of_decode (s := s.quietly m r o d n) hi] at ht'
  have hu : Undisturbed i s := ⟨hm, htouched, fun D' q hD' hq => by
    obtain rfl := Option.some.inj (hD.symm.trans hD')
    exact Option.some.inj (hp.symm.trans hq) ▸ hord⟩
  cases henc : isEncode i with
  | false => exact exec_decode_quietly henc hi hD hp hu hbus hc ht ht'
  | true =>
    obtain ⟨f, rfl⟩ := eq_encode_of_isEncode henc
    exact exec_encode_quietly hi hD hp hu hbus hc ht ht'

end Sys2Proof.Machine

namespace Sys2Proof.Proofs
open Sys2Proof.Machine Sys2Proof.Claims

/-- Settles O53: the host's step leaves what the checks and the walk read, and a RANGE that the walk would have set too. -/
theorem quietHostDoesNotDisturb : Obligations.QuietHostDoesNotDisturb := by
  intro s t t' a hb hbus hm htouched hord hq ht ht'
  obtain ⟨m, r, o, d, n, h, hc⟩ := hostAct_writeRange_quiet hb hq hm htouched hord
  rw [h] at ht' ⊢
  obtain ⟨herr, hres, hdesc⟩ := runCommand_sameOutcome hbus ht ht'
  have hproduct : ∀ p, runningPlan s = some p → SameProduct p s t t' := fun p hp =>
    runCommand_quietly hp hm htouched (hord p hp) hbus hc ht ht'
  refine ⟨htouched, herr, ?_, hres, hdesc, fun p hp => (hproduct p hp).2⟩
  cases hp : runningPlan s with
  | some p => exact (hproduct p hp).1
  | none =>
    rw [runCommand_range_of_no_plan hp ht, runCommand_range_of_no_plan ((runningPlan_quietly ..).trans hp) ht']
    exact hc.range.of_no_plan hp

end Sys2Proof.Proofs
end
